-- ==== Sys2Proof/Word.lean ====
section
/-! DEFINITION. The word types of the block: a byte, and the 16-bit value that two bytes make (spec/00_scope.md R9). -/

namespace Sys2Proof

/-- A byte, 8 bits unsigned (R9). -/
abbrev Byte := BitVec 8

/-- A 16-bit value: a status, a length, a payload offset (R9, R17). -/
abbrev Half := BitVec 16

end Sys2Proof
end

