-- ==== Sys2Proof/Config.lean ====
section
/-! DEFINITION. The constants the source fixes (spec/00_scope.md R7), the parameters it leaves open (R8), and the two
free values of the model.

RESYNC_POLICY (R8, decision D7) has a single specified value, `commit_first` (spec/42_frame_parser.md R72), so the
model has no parameter for it: the scan commits to the first sync byte. -/

namespace Sys2Proof

namespace Config

/-- `SYNC`, the sync marker (R7). -/
def sync : Byte := 0x55

/-- `STATUS_OK`, the only status that is not an error (R7). -/
def statusOk : Half := 0x9000

/-- `CS_SEED`, the start value of the fold (R7). -/
def csSeed : Byte := 0x00

/-- `PAD`, the value of the unused trailing bytes of the outbound frame (R7). -/
def pad : Byte := 0x00

/-- `INFO_LEN`, the length of the info record (R7). -/
def infoLen : Nat := 82

/-- `SPLIT_AT`, the offset at which a NEGOTIATE reply is split (R7). -/
def splitAt : Nat := 48

/-- `FIXED_BODY_LEN`, the length of a command body before its data (R7, R46). -/
def fixedBodyLen : Nat := 6

/-- `PBUF_DEPTH`, the depth of the payload buffer (R8, R18). -/
def pbufDepth : Nat := 65535

/-- The largest value of a 2-byte length (R7 `LENGTH_W`, R92). -/
def maxLength : Nat := 65535

/-- FREE VALUE. What a byte of `pbuf` that no parse has written holds, by offset. The spec calls it unspecified
(spec/10_state.md R28, spec/93_implementation_defined.md U2 "any value"); nothing constrains it. Log 5. -/
opaque pbufUnwritten : Nat → Byte

/-- FREE VALUE. What `q_sig_out_len` shows when `rx_length` is below 48, by `rx_length`: spec/10_state.md R24 writes
`rx_length - 48` and states no result there; nothing constrains it. Log 22. -/
opaque sigOutLenBelowSplit : Half → Half

/-- FREE VALUE. The bytes, in order, that the adapter pads a caller's `tx` with when it is shorter than `length`:
spec/44_commands.md R87 says that it is padded and does not say with what (R7's `PAD` is of ENC's outbound buffer).
Log 23. -/
opaque adapterFill (tx : List Byte) (length : Nat) : Nat → Byte

/-- FREE VALUE. How many of the bytes that the adapter adds stand before `tx`, and how many of those it cuts are the first
of `tx`: spec/44_commands.md R87 does not say at which end it pads and truncates. Log 23. -/
opaque adapterFront (tx : List Byte) (length : Nat) : Nat

end Config

/-- The parameters that the spec asks a model to take as arguments (R8): `LEN_W`, the width in bits of the lengths and
slot counters, and `RAND_LEN`, the required length of NEGOTIATE's random value. Log 1. -/
structure Params where
  lenW : Nat
  randLen : Nat
deriving DecidableEq, Repr

/-- The reference values of R8: `LEN_W = 17`, `RAND_LEN = 32`. -/
def Params.reference : Params := { lenW := 17, randLen := 32 }

/-- The values R8 admits: `LEN_W >= 2`, and `RAND_LEN` 32 or 48. -/
def Params.admissible (p : Params) : Bool :=
  decide (2 ≤ p.lenW) && (p.randLen == 32 || p.randLen == 48)

/-- Can `n` stand on a `LEN_W`-bit port? (R8, spec/93_implementation_defined.md U8.) -/
def Params.fits (p : Params) (n : Nat) : Bool :=
  decide (n < 2 ^ p.lenW)

end Sys2Proof
end

