-- ==== Sys2Proof/Syntax.lean ====
section
/-! DEFINITION. The instructions: one constructor for each of the 27 rows of spec/opcode_table.json (spec/00_scope.md
section 6: an instruction is an operation or a machine-level event), and what may be offered to the block. -/

namespace Sys2Proof

/-- The four commands of the command table (spec/30_encoding.md R50). -/
inductive Cmd where
  | getMsCert
  | getTermCert
  | getInfo
  | negotiate
deriving DecidableEq, Repr

/-- What the environment answers to one duplex slot (spec/44_commands.md R87): the rx byte, or a failed transfer. -/
inductive Answer where
  | rx (b : Byte)
  | xferErr
deriving DecidableEq, Repr

/-- The rows of spec/opcode_table.json. The operands are those of the row's signature and of the rule it cites. -/
inductive Instr where
  /-- GET_MS_CERT, R89: a whole query. -/
  | getMsCert (total : Nat)
  /-- GET_TERM_CERT, R90: a whole query. -/
  | getTermCert (total : Nat)
  /-- GET_INFO, R91: a whole query. -/
  | getInfo (total : Nat)
  /-- NEGOTIATE, R92, R93: a whole query. -/
  | negotiate (total : Nat) (rand sig : List Byte)
  /-- RESPONSE_FRAME, R45, R69: the bytes `55 90 00` and then `rest`, as the whole inbound stream. -/
  | responseFrame (rest : List Byte)
  /-- XORFOLD, R58. -/
  | xorfold (bytes : List Byte)
  /-- CHECKSUM, R59. -/
  | checksum (bytes : List Byte)
  /-- ENCODE, R63. -/
  | encode (body : List Byte) (total : Nat)
  /-- DECODE, R69. -/
  | decode (raw : List Byte)
  /-- DECODE_INFO, R80. -/
  | decodeInfo (payload : List Byte)
  /-- HEX, R82. -/
  | hex (bytes : List Byte)
  /-- TRANSFER, R87: `tx` is the sequence to send, `length` the length of the exchange. -/
  | transfer (tx : List Byte) (length : Nat)
  /-- QUERY, R88: `rand` and `sig` are NEGOTIATE's arguments. -/
  | query (cmd : Cmd) (total : Nat) (rand sig : List Byte)
  /-- rst, R118. -/
  | rst
  /-- cs_clear, R61. -/
  | csClear
  /-- cs_absorb, R61. -/
  | csAbsorb (b : Byte)
  /-- enc_start, R65. -/
  | encStart (bodyLen total : Nat)
  /-- enc_emit, R66: `tx_ready` is 1; `body` is the byte on `body_data` when `body_valid` is 1. -/
  | encEmit (body : Option Byte)
  /-- rx_start, R75. -/
  | rxStart
  /-- rx_byte, R76: `atEnd` when `rx_end` is 1 in the same step (R77). -/
  | rxByte (b : Byte) (atEnd : Bool)
  /-- rx_end, R77. -/
  | rxEnd
  /-- rd_start, R83. -/
  | rdStart (len : Half)
  /-- rd_byte, R84: `b` is the byte on `rd_data`. -/
  | rdByte (b : Byte)
  /-- q_start, R94. -/
  | qStart (cmd : Cmd) (total randLen sigLen : Nat)
  /-- q_slot, R96: `slot_ready` is 1; `rx` is `slot_rx`; `arg` is the byte on `arg_data` when `arg_valid` is 1. -/
  | qSlot (arg : Option Byte) (rx : Byte)
  /-- q_xfer_err, R97. -/
  | qXferErr
  /-- q_post, R98. -/
  | qPost
deriving DecidableEq, Repr

/-- The input ports of one sub-block in one step, with the names and widths of spec/10_state.md R24. -/
inductive UnitPorts where
  /-- `cs_clear`, `cs_en`, `cs_din`. -/
  | csg (clear en : Bool) (din : Byte)
  /-- `enc_start`, `enc_body_len_in`, `enc_total_len_in`, `body_valid`, `body_data`, `tx_ready`. -/
  | enc (start : Bool) (bodyLen total : Nat) (bodyValid : Bool) (bodyData : Byte) (txReady : Bool)
  /-- `rx_start`, `rx_valid`, `rx_data`, `rx_end`. -/
  | rxp (start valid : Bool) (data : Byte) (atEnd : Bool)
  /-- `rd_start`, `rd_len_in`, `rd_step`, `rd_data`. -/
  | rdec (start : Bool) (len : Half) (step : Bool) (data : Byte)
  /-- `q_start`, `q_cmd`, `q_total_len`, `q_rand_len`, `q_sig_len`, `arg_valid`, `arg_data`, `slot_ready`, `slot_rx`,
  `xfer_err`. -/
  | qseq (start : Bool) (cmd : BitVec 2) (total randLen sigLen : Nat) (argValid : Bool) (argData : Byte)
      (slotReady : Bool) (slotRx : Byte) (xferErr : Bool)
deriving DecidableEq, Repr

/-- The input ports offered in one step: `rst`, and one sub-block's ports, since a step is the acceptance of exactly one
event by one sub-block (R14). -/
structure PortSample where
  rst : Bool
  unit : UnitPorts
deriving DecidableEq, Repr

/-- What the requester or the environment offers to the block: a frame in its wire encoding, the input ports of a step,
or an operation that has no encoding, issued in the notation of spec/30_encoding.md R57 (its mnemonic with its
arguments). Log 2. -/
inductive Offer where
  | wire (bytes : List Byte)
  | ports (sample : PortSample)
  | call (op : Instr)
deriving DecidableEq, Repr

end Sys2Proof
end

