-- ==== Sys2Proof/WellFormed.lean ====
section
/-! DEFINITION. Which instructions are well formed: the ones whose operands the block's ports can carry and, for the four
commands, the ones that have a frame. An instruction that is not well formed still has the meaning its rule gives it
(an `InvalidLength`, R106, or the refusal of spec/93_implementation_defined.md U8); it only has no encoding. -/

namespace Sys2Proof

/-- A length-carrying frame of `dataLen` data bytes fits a transfer of `total` slots, and `total` its port
(R44 `n + 2 <= total_len`, R46 `n = 6 + D`, R94). -/
def frameFits (p : Params) (dataLen total : Nat) : Bool :=
  decide (Config.fixedBodyLen + dataLen + 2 ≤ total) && p.fits total

/-- Well-formedness, one line a check: a fixed command's frame fits (R89 to R91); NEGOTIATE's random value has the
required length, its data length fits the 2-byte prefix, its frame fits (R92); every length stands on its port
(R24, U8). -/
def WellFormed (p : Params) : Instr → Bool
  | .getMsCert total => frameFits p 0 total
  | .getTermCert total => frameFits p 0 total
  | .getInfo total => frameFits p 0 total
  | .negotiate total rand sig =>
    rand.length == p.randLen && decide (rand.length + sig.length ≤ Config.maxLength)
      && frameFits p (rand.length + sig.length) total
  | .responseFrame _ => true
  | .xorfold _ => true
  | .checksum _ => true
  | .encode body total => p.fits body.length && p.fits total
  | .decode _ => true
  | .decodeInfo payload => decide (payload.length ≤ Config.maxLength)
  | .hex _ => true
  | .transfer _ length => p.fits length
  | .query _ total rand sig => p.fits total && p.fits rand.length && p.fits sig.length
  | .rst => true
  | .csClear => true
  | .csAbsorb _ => true
  | .encStart bodyLen total => p.fits bodyLen && p.fits total
  | .encEmit _ => true
  | .rxStart => true
  | .rxByte _ _ => true
  | .rxEnd => true
  | .rdStart _ => true
  | .rdByte _ => true
  | .qStart _ total randLen sigLen => p.fits total && p.fits randLen && p.fits sigLen
  | .qSlot _ _ => true
  | .qXferErr => true
  | .qPost => true

end Sys2Proof
end

