-- ==== Sys2Proof/Machine/Operands.lean ====
section
/-! DEFINITION. How operands are made of bytes: the fold and the checksum (spec/40_checksum.md), big-endian assembly
(spec/30_encoding.md R48), the command bodies (R46, R50), and the text rendering (spec/43_record_decoder.md R82). -/

namespace Sys2Proof.Machine

/-- `xorFold`, R58: the XOR of the seed and every byte. -/
def xorFold (bs : List Byte) : Byte :=
  bs.foldl (fun a b => a ^^^ b) Config.csSeed

/-- `checksum`, R59: the complement of the fold within 8 bits. -/
def checksum (bs : List Byte) : Byte :=
  ~~~ xorFold bs

/-- `be16`, R11: the first byte is the most significant. -/
def be16 (b0 b1 : Byte) : Half :=
  (b0.setWidth 16 <<< 8) ||| b1.setWidth 16

/-- `beN`, R11: the first byte of the sequence is the most significant of `w` bits. -/
def beN (w : Nat) (bs : List Byte) : BitVec w :=
  bs.foldl (fun v b => (v <<< 8) ||| b.setWidth w) 0

/-- The `n` bytes of a value, the most significant first: `beN` read backwards (R29, R31). -/
def bytesBE {w : Nat} (n : Nat) (v : BitVec w) : List Byte :=
  (List.range n).map (fun k => (v >>> (8 * (n - 1 - k))).setWidth 8)

/-- `zeros(n)`, R10. -/
def zeros (n : Nat) : List Byte :=
  List.replicate n Config.pad

/-- The upper byte of a 2-byte length, `D >> 8` (R48, R95). -/
def highByte (n : Nat) : Byte :=
  BitVec.ofNat 8 (n / 256)

/-- The lower byte of a 2-byte length, `D & 0xFF` (R48, R95). -/
def lowByte (n : Nat) : Byte :=
  BitVec.ofNat 8 n

/-- `p[o..o+w)`, R10. -/
def slice (o w : Nat) (bs : List Byte) : List Byte :=
  (bs.drop o).take w

/-- The value of `q_cmd` that selects a command (R50, decision D12). -/
def selectorOf : Cmd → BitVec 2
  | .getMsCert => 0
  | .getTermCert => 1
  | .getInfo => 2
  | .negotiate => 3

/-- The command that a value of `q_cmd` selects; all four values are defined (R50). -/
def cmdOf (v : BitVec 2) : Cmd :=
  if v = 0 then .getMsCert else if v = 1 then .getTermCert else if v = 2 then .getInfo else .negotiate

/-- The `hdr` bytes of a command body (R46, R50). -/
def header : Cmd → List Byte
  | .getMsCert => [0x80, 0x36, 0x00, 0x0C]
  | .getTermCert => [0x80, 0x36, 0x00, 0x0B]
  | .getInfo => [0x80, 0x36, 0x00, 0xFF]
  | .negotiate => [0x80, 0x02, 0x00, 0x00]

/-- The `data` bytes of a command body: the random value and then the signature, for NEGOTIATE alone (R46, R88). -/
def dataOf (cmd : Cmd) (rand sig : List Byte) : List Byte :=
  match cmd with
  | .negotiate => rand ++ sig
  | _ => []

/-- The command body, format `CB`: `hdr`, the 2-byte length of the data, the data (R46, R50, R92). -/
def bodyBytes (cmd : Cmd) (rand sig : List Byte) : List Byte :=
  let data := dataOf cmd rand sig
  header cmd ++ [highByte data.length, lowByte data.length] ++ data

/-- The composer of R95: the byte QSEQ offers to ENC at body offset `k`, or none while `body_valid` is 0; `arg` is the
requester's argument byte when `arg_valid` is 1. -/
def composerByte (cmd : Cmd) (randLen sigLen k : Nat) (arg : Option Byte) : Option Byte :=
  match cmd with
  | .negotiate =>
    if k < 4 then (header .negotiate)[k]?
    else if k = 4 then some (highByte (randLen + sigLen))
    else if k = 5 then some (lowByte (randLen + sigLen))
    else arg
  | cmd => (header cmd ++ [0x00, 0x00])[k]?

/-- `digit`, R82: the lowercase hexadecimal digit of four bits. -/
def hexDigit (v : BitVec 4) : Char :=
  if v.toNat < 10 then Char.ofNat (48 + v.toNat) else Char.ofNat (97 + (v.toNat - 10))

/-- `hex`, R82: two lowercase digits a byte, the upper four bits first, no separators. -/
def hexText (bs : List Byte) : List Char :=
  bs.flatMap (fun b : Byte => [hexDigit ((b >>> 4).setWidth 4), hexDigit (b.setWidth 4)])

end Sys2Proof.Machine
end

