-- ==== Sys2Proof/Machine/Functional.lean ====
section
/-! DEFINITION. The functional level (spec/00_scope.md R1): total functions from byte sequences to a result or a named
error, transcribed from the spec's pseudocode. They are what the machine level must compute. -/

namespace Sys2Proof.Machine

/-- The closed taxonomy of spec/60_exceptions.md R100: six errors, `StatusError` carrying the status it received. -/
inductive Err where
  | syncNotFound
  | statusError (status : Half)
  | truncated
  | checksumMismatch
  | invalidLength
  | transportError
deriving DecidableEq, Repr

/-- The error codes of R100. Code 7 is never produced. -/
def codeOf : Err → BitVec 3
  | .syncNotFound => 1
  | .statusError _ => 2
  | .truncated => 3
  | .checksumMismatch => 4
  | .invalidLength => 5
  | .transportError => 6

/-- The info record, R80, R81: opaque fields are byte strings, integer fields unsigned numbers. -/
structure InfoRecord where
  esamSerial : List Byte
  esamVersion : List Byte
  symKeyVersion : List Byte
  msCertVersion : BitVec 8
  termCertVersion : BitVec 8
  sessionTimeLimit : BitVec 32
  sessionTimeRemaining : BitVec 32
  asctr : BitVec 32
  arctr : BitVec 32
  agseq : BitVec 32
  termCertSerial : List Byte
  msCertSerial : List Byte
deriving DecidableEq, Repr

/-- What an operation returns (R12 `return v`): a byte, a byte sequence, a record, a text, or the two parts of a
NEGOTIATE reply. -/
inductive Value where
  | byte (b : Byte)
  | bytes (bs : List Byte)
  | record (r : InfoRecord)
  | text (cs : List Char)
  | session (sessionData signature : List Byte)
deriving DecidableEq, Repr

/-- What the requester holds after an operation: nothing yet, the value returned, or the error raised (R101). -/
inductive Reply where
  | nothing
  | value (v : Value)
  | error (e : Err)
deriving DecidableEq, Repr

/-- The reply of a functional result. -/
def replyOf : Except Err Value → Reply
  | .ok v => .value v
  | .error e => .error e

/-- `encode`, R63. -/
def encodeFrame (body : List Byte) (total : Nat) : Except Err (List Byte) :=
  if body.length + 2 > total then .error .invalidLength
  else .ok ([Config.sync] ++ body ++ [checksum body] ++ zeros (total - body.length - 2))

/-- `decode`, R69, from the status on: `frame` is what follows the sync marker. -/
def decodeAfterSync (frame : List Byte) : Except Err (List Byte) :=
  match frame with
  | s0 :: s1 :: fromLength =>
    if be16 s0 s1 ≠ Config.statusOk then .error (.statusError (be16 s0 s1))
    else match fromLength with
      | l0 :: l1 :: fromPayload =>
        let len := (be16 l0 l1).toNat
        if fromPayload.length < len then .error .truncated
        else match fromPayload.drop len with
          | received :: _ =>
            if checksum (s0 :: s1 :: l0 :: l1 :: fromPayload.take len) ≠ received then .error .checksumMismatch
            else .ok (fromPayload.take len)
          | [] => .error .truncated
      | _ => .error .truncated
  | _ => .error .truncated

/-- `decode`, R69: scan to the first sync byte, discarding, and commit to it (R72). -/
def decodeResponse (raw : List Byte) : Except Err (List Byte) :=
  match raw.dropWhile (fun b => b != Config.sync) with
  | [] => .error .syncNotFound
  | _ :: frame => decodeAfterSync frame

/-- `take(w)` of R80: the `w` bytes at the cursor and what lies after them, or `Truncated`. -/
def takeField (w : Nat) (rest : List Byte) : Except Err (List Byte × List Byte) :=
  if rest.length < w then .error .truncated else .ok (rest.take w, rest.drop w)

/-- `decodeInfo`, R80: the fields strictly in the order of spec/10_state.md R20, advancing a cursor by each width. -/
def decodeInfo (payload : List Byte) : Except Err InfoRecord := do
  let (esamSerial, rest) ← takeField 8 payload
  let (esamVersion, rest) ← takeField 4 rest
  let (symKeyVersion, rest) ← takeField 16 rest
  let (msCertVersion, rest) ← takeField 1 rest
  let (termCertVersion, rest) ← takeField 1 rest
  let (sessionTimeLimit, rest) ← takeField 4 rest
  let (sessionTimeRemaining, rest) ← takeField 4 rest
  let (asctr, rest) ← takeField 4 rest
  let (arctr, rest) ← takeField 4 rest
  let (agseq, rest) ← takeField 4 rest
  let (termCertSerial, rest) ← takeField 16 rest
  let (msCertSerial, _) ← takeField 16 rest
  return {
    esamSerial, esamVersion, symKeyVersion
    msCertVersion := beN 8 msCertVersion
    termCertVersion := beN 8 termCertVersion
    sessionTimeLimit := beN 32 sessionTimeLimit
    sessionTimeRemaining := beN 32 sessionTimeRemaining
    asctr := beN 32 asctr
    arctr := beN 32 arctr
    agseq := beN 32 agseq
    termCertSerial, msCertSerial }

/-- What the adapter sends for a caller's `tx` (R87): padded or truncated to exactly `length` bytes. DESIGN CHOICE (log 23):
R87 and R68 give neither the bytes it pads with nor the end at which it pads or cuts; both are free values, and neither
matters for a `tx` of `length` bytes, the only one this block's transfers have. -/
def adapterSends (tx : List Byte) (length : Nat) : List Byte :=
  let fill := (List.range (length - tx.length)).map (Config.adapterFill tx length)
  let front := Config.adapterFront tx length
  fill.take front ++ (tx.drop (min front (tx.length - length))).take length ++ fill.drop front

/-- `duplexTransfer`, R87, on the environment's answers: exactly `length` rx bytes, or `TransportError` as soon as the
environment fails a slot, with the answers not used; none while it has not answered every slot (the call blocks, R114,
I4). All or nothing: on the error no rx byte is delivered. -/
def duplexTransfer : Nat → List Answer → Option (Except Err (List Byte) × List Answer)
  | 0, answers => some (.ok [], answers)
  | _ + 1, [] => none
  | _ + 1, .xferErr :: answers => some (.error .transportError, answers)
  | n + 1, .rx b :: answers =>
    match duplexTransfer n answers with
    | none => none
    | some (.error e, rest) => some (.error e, rest)
    | some (.ok bs, rest) => some (.ok (b :: bs), rest)

/-- `compose`, R89 to R92: the command body, or `InvalidLength` for a NEGOTIATE whose random value has the wrong length
or whose data does not fit the 2-byte prefix. -/
def compose (p : Params) (cmd : Cmd) (rand sig : List Byte) : Except Err (List Byte) :=
  match cmd with
  | .negotiate =>
    if rand.length ≠ p.randLen then .error .invalidLength
    else if rand.length + sig.length > Config.maxLength then .error .invalidLength
    else .ok (bodyBytes .negotiate rand sig)
  | cmd => .ok (bodyBytes cmd [] [])

/-- `post`, R89 to R91 and R93: the raw payload, the decoded record, or the reply split at byte 48. -/
def post (cmd : Cmd) (payload : List Byte) : Except Err Value :=
  match cmd with
  | .getMsCert => .ok (.bytes payload)
  | .getTermCert => .ok (.bytes payload)
  | .getInfo => (decodeInfo payload).map Value.record
  | .negotiate =>
    if payload.length < Config.splitAt then .error .truncated
    else .ok (.session (payload.take Config.splitAt) (payload.drop Config.splitAt))

/-- `query`, R88: compose, encode, one transfer, decode, post; the first error raised ends it. None while the
environment has not answered every slot. -/
def query (p : Params) (cmd : Cmd) (total : Nat) (rand sig : List Byte) (answers : List Answer) :
    Option (Except Err Value) :=
  match compose p cmd rand sig with
  | .error e => some (.error e)
  | .ok body =>
    match encodeFrame body total with
    | .error e => some (.error e)
    | .ok _ =>
      match duplexTransfer total answers with
      | none => none
      | some (.error e, _) => some (.error e)
      | some (.ok rx, _) =>
        match decodeResponse rx with
        | .error e => some (.error e)
        | .ok payload => some (post cmd payload)

end Sys2Proof.Machine
end

