-- ==== Sys2Proof/Decode.lean ====
section
/-! DEFINITION. Decoding what is offered to the block into an instruction, and the encoder. The four commands and the
response frame have an encoding in bytes (spec/opcode_table.json `match` and `mask`, spec/30_encoding.md R44 to R46,
R50); a machine event is selected by the port levels of its `select` entry (R51, spec/10_state.md R24); the functional
operations have no encoding (R51) and are issued by name. -/

namespace Sys2Proof

open Machine

/-- Why bytes are no frame of the table. -/
inductive DecodeError where
  /-- The bytes begin with no row's pattern. -/
  | noRow
  /-- A byte behind the checksum is not zero (R44 `pad`). -/
  | padNotZero
  /-- The bytes end before the checksum of the frame. -/
  | frameCut
  /-- NEGOTIATE declares fewer data bytes than its random value has (R92). -/
  | dataTooShort
  /-- The checksum byte is not that of the body (R44 `cs`). -/
  | checksumWrong
  /-- The transfer length does not stand on a `LEN_W`-bit port (spec/93_implementation_defined.md U8). -/
  | lengthNotExpressible
deriving DecidableEq, Repr

/-- The rows of the table that have an encoding. -/
inductive FrameRow where
  | getMsCert
  | getTermCert
  | getInfo
  | negotiate
  | responseFrame
deriving DecidableEq, Repr

/-- The `match` bytes of a row, first byte on the wire first. Every bit of every row's `mask` is 1, so a frame belongs
to the row whose bytes it begins with. -/
def rowPattern : FrameRow → List Byte
  | .getMsCert => [0x55, 0x80, 0x36, 0x00, 0x0C, 0x00, 0x00, 0x45]
  | .getTermCert => [0x55, 0x80, 0x36, 0x00, 0x0B, 0x00, 0x00, 0x42]
  | .getInfo => [0x55, 0x80, 0x36, 0x00, 0xFF, 0x00, 0x00, 0xB6]
  | .negotiate => [0x55, 0x80, 0x02, 0x00, 0x00]
  | .responseFrame => [0x55, 0x90, 0x00]

/-- The table's rows. -/
def frameRows : List FrameRow :=
  [.getMsCert, .getTermCert, .getInfo, .negotiate, .responseFrame]

/-- The row whose pattern the bytes begin with. -/
def frameRowOf (bytes : List Byte) : Option FrameRow :=
  frameRows.find? (fun row => (rowPattern row).isPrefixOf bytes)

/-- Is every byte the pad byte? -/
def allPad (bytes : List Byte) : Bool :=
  bytes.all (fun b => b == Config.pad)

/-- A fixed command's frame: its 8 bytes, then padding to the transfer length (R44, R50). -/
def decodeFixed (p : Params) (bytes : List Byte) (i : Instr) : Except DecodeError Instr :=
  if !allPad (bytes.drop 8) then .error .padNotZero
  else if !p.fits bytes.length then .error .lengthNotExpressible
  else .ok i

/-- NEGOTIATE's frame behind its header: `dlen`, the random value, the signature, the checksum of the body, padding
(R44, R46, R92). -/
def decodeNegotiate (p : Params) (bytes : List Byte) : Except DecodeError Instr :=
  match bytes.drop 5 with
  | d1 :: d0 :: rest =>
    let dataLen := (be16 d1 d0).toNat
    let body := (bytes.drop 1).take (Config.fixedBodyLen + dataLen)
    match rest.drop dataLen with
    | [] => .error .frameCut
    | received :: padding =>
      if dataLen < p.randLen then .error .dataTooShort
      else if received ≠ checksum body then .error .checksumWrong
      else if !allPad padding then .error .padNotZero
      else if !p.fits bytes.length then .error .lengthNotExpressible
      else .ok (.negotiate bytes.length (rest.take p.randLen) ((rest.take dataLen).drop p.randLen))
  | _ => .error .frameCut

/-- Decoding bytes: total, refusing by name. A command's transfer length is the number of bytes of its frame (R44). -/
def decodeFrame (p : Params) (bytes : List Byte) : Except DecodeError Instr :=
  match frameRowOf bytes with
  | none => .error .noRow
  | some .getMsCert => decodeFixed p bytes (.getMsCert bytes.length)
  | some .getTermCert => decodeFixed p bytes (.getTermCert bytes.length)
  | some .getInfo => decodeFixed p bytes (.getInfo bytes.length)
  | some .negotiate => decodeNegotiate p bytes
  | some .responseFrame => .ok (.responseFrame (bytes.drop 3))

/-- What decoding an offer gives: an event, no event at all (no strobe is high), or a refusal. -/
inductive Decoded where
  | event (i : Instr)
  | idle
  | rejected (e : DecodeError)
deriving DecidableEq, Repr

/-- The output ports that the table's `select` entries read beside the inputs. -/
structure View where
  encReady : Bool
  qReady : Bool
deriving DecidableEq, Repr

/-- A byte on a stream port: there when its `valid` is 1 (R24). -/
def offered (valid : Bool) (data : Byte) : Option Byte :=
  if valid then some data else none

/-- The event that a sub-block's port levels select, with the priorities of spec/60_exceptions.md R109: `cs_clear` wins
over `cs_en`, `rx_start` over `rx_valid` and `rx_end`, a byte is consumed before an `rx_end` of the same step,
`rd_start` wins over `rd_step`, `xfer_err` over a slot, and a start offered to a busy ENC or QSEQ leaves the step to
what else is offered (log 17). These are the levels of `rd_step` and `rd_data` in a step in which the requester drives them;
in the others they are wired to `rd_state` and `pl_data` (`Offer.drivesRdec`, log 20). -/
def decodeUnit (v : View) : UnitPorts → Decoded
  | .csg clear en din =>
    if clear then .event .csClear else if en then .event (.csAbsorb din) else .idle
  | .enc start bodyLen total bodyValid bodyData txReady =>
    if start && (v.encReady || !txReady) then .event (.encStart bodyLen total)
    else if txReady then .event (.encEmit (offered bodyValid bodyData))
    else .idle
  | .rxp start valid data atEnd =>
    if start then .event .rxStart
    else if valid then .event (.rxByte data atEnd)
    else if atEnd then .event .rxEnd
    else .idle
  | .rdec start len step data =>
    if start then .event (.rdStart len) else if step then .event (.rdByte data) else .idle
  | .qseq start cmd total randLen sigLen argValid argData slotReady slotRx xferErr =>
    if start && (v.qReady || !(slotReady || xferErr)) then .event (.qStart (cmdOf cmd) total randLen sigLen)
    else if xferErr then .event .qXferErr
    else if slotReady then .event (.qSlot (offered argValid argData) slotRx)
    else .idle

/-- Decoding an offer. `rst` wins over every other event of the step (R109, R118). -/
def decode (p : Params) (v : View) : Offer → Decoded
  | .wire bytes =>
    match decodeFrame p bytes with
    | .ok i => .event i
    | .error e => .rejected e
  | .ports sample => if sample.rst then .event .rst else decodeUnit v sample.unit
  | .call op => .event op

/-- Does an offer drive RDEC's input ports: their levels, low ones too, or an operation or event of RDEC by name? In a step
without such an offer the block's wiring of R24 drives them (log 20). -/
def Offer.drivesRdec : Offer → Bool
  | .ports sample =>
    match sample.unit with
    | .rdec _ _ _ _ => true
    | .csg _ _ _ | .enc _ _ _ _ _ _ | .rxp _ _ _ _ | .qseq _ _ _ _ _ _ _ _ _ _ => false
  | .call op =>
    match op with
    | .decodeInfo _ | .rdStart _ | .rdByte _ => true
    | .getMsCert _ | .getTermCert _ | .getInfo _ | .negotiate _ _ _ | .responseFrame _ | .xorfold _ | .checksum _
    | .encode _ _ | .decode _ | .hex _ | .transfer _ _ | .query _ _ _ _ | .rst | .csClear | .csAbsorb _ | .encStart _ _
    | .encEmit _ | .rxStart | .rxByte _ _ | .rxEnd | .qStart _ _ _ _ | .qSlot _ _ | .qXferErr | .qPost => false
  | .wire _ => false

/-- The bytes of an instruction's number `w` of `nbits` bits, as the table lays them out (the first byte on the wire is
the most significant), and zeros behind them up to the longest row of the table, 8 bytes. -/
def tableBytes (nbits w : Nat) : List Byte :=
  (List.range (nbits / 8)).map (fun k => BitVec.ofNat 8 (w / 256 ^ (nbits / 8 - 1 - k))) ++ zeros (8 - nbits / 8)

/-- The instruction the decoder reads from the table's number `w` of `nbits` bits, at the reference parameters. -/
def decodeTableWord (nbits w : Nat) : Option Instr :=
  match decodeFrame Params.reference (tableBytes nbits w) with
  | .ok i => some i
  | .error _ => none

/-- The bytes of an instruction that has an encoding: a command's frame of its transfer length (R44, R50), or the
response frame (R45); none where the frame does not fit, or where the row has no encoding (R51). -/
def encodeBytes : Instr → Option (List Byte)
  | .getMsCert total => (encodeFrame (bodyBytes .getMsCert [] []) total).toOption
  | .getTermCert total => (encodeFrame (bodyBytes .getTermCert [] []) total).toOption
  | .getInfo total => (encodeFrame (bodyBytes .getInfo [] []) total).toOption
  | .negotiate total rand sig => (encodeFrame (bodyBytes .negotiate rand sig) total).toOption
  | .responseFrame rest => some (rowPattern .responseFrame ++ rest)
  | .xorfold _ | .checksum _ | .encode _ _ | .decode _ | .decodeInfo _ | .hex _ | .transfer _ _ | .query _ _ _ _ => none
  | .rst | .csClear | .csAbsorb _ | .encStart _ _ | .encEmit _ | .rxStart | .rxByte _ _ | .rxEnd | .rdStart _
  | .rdByte _ | .qStart _ _ _ _ | .qSlot _ _ | .qXferErr | .qPost => none

/-- The port levels that select an event (the table's `select` entries); none for the rows without a port, and for
`q_post`, which the block takes by itself (R98). -/
def encodePorts : Instr → Option PortSample
  | .rst => some { rst := true, unit := .csg false false 0 }
  | .csClear => some { rst := false, unit := .csg true false 0 }
  | .csAbsorb b => some { rst := false, unit := .csg false true b }
  | .encStart bodyLen total => some { rst := false, unit := .enc true bodyLen total false 0 false }
  | .encEmit body => some { rst := false, unit := .enc false 0 0 body.isSome (body.getD 0) true }
  | .rxStart => some { rst := false, unit := .rxp true false 0 false }
  | .rxByte b atEnd => some { rst := false, unit := .rxp false true b atEnd }
  | .rxEnd => some { rst := false, unit := .rxp false false 0 true }
  | .rdStart len => some { rst := false, unit := .rdec true len false 0 }
  | .rdByte b => some { rst := false, unit := .rdec false 0 true b }
  | .qStart cmd total randLen sigLen =>
    some { rst := false, unit := .qseq true (selectorOf cmd) total randLen sigLen false 0 false 0 false }
  | .qSlot arg rx =>
    some { rst := false, unit := .qseq false 0 0 0 0 arg.isSome (arg.getD 0) true rx false }
  | .qXferErr => some { rst := false, unit := .qseq false 0 0 0 0 false 0 false 0 true }
  | .qPost => none
  | .getMsCert _ | .getTermCert _ | .getInfo _ | .negotiate _ _ _ | .responseFrame _ => none
  | .xorfold _ | .checksum _ | .encode _ _ | .decode _ | .decodeInfo _ | .hex _ | .transfer _ _ | .query _ _ _ _ => none

/-- The encoder: the offer that stands for an instruction, in bytes where its row has an encoding, as port levels where
it is selected by ports, by name where it has neither. -/
def encode (i : Instr) : Offer :=
  match encodeBytes i with
  | some bytes => .wire bytes
  | none =>
    match encodePorts i with
    | some sample => .ports sample
    | none => .call i

end Sys2Proof
end

