-- ==== Sys2Proof/Machine/State.lean ====
section
/-! DEFINITION. The state of the block: every register of spec/10_state.md R15 to R21, the payload buffer, the tx frame,
and the model's own fields (INVENTORY.md, State). The reset values are those of R28. -/

namespace Sys2Proof.Machine

/-- `enc_state`, R16. -/
inductive EncState where
  | idle
  | sync
  | body
  | csum
  | pad
deriving DecidableEq, Repr

/-- `rx_state`, R17. -/
inductive RxState where
  | idle
  | hunt
  | stHi
  | stLo
  | lenHi
  | lenLo
  | payload
  | csum
  | ok
  | fail
deriving DecidableEq, Repr

/-- `rd_state`, R19. -/
inductive RdState where
  | idle
  | run
  | ok
  | fail
deriving DecidableEq, Repr

/-- `q_state`, R21. -/
inductive QState where
  | idle
  | xfer
  | post
  | done
deriving DecidableEq, Repr

/-- ENC, R16. The `LEN_W`-bit registers are natural numbers: none of them wraps (R22, R39; log 3). `acc` is `tx_acc`. -/
structure Enc where
  state : EncState
  idx : Nat
  bodyLen : Nat
  total : Nat
  acc : Byte
  err : BitVec 3
  done : Bool
deriving DecidableEq, Repr

/-- RXP, R17. `acc` is `rx_acc`. -/
structure Rxp where
  state : RxState
  status : Half
  length : Half
  cnt : Half
  acc : Byte
  cs : Byte
  err : BitVec 3
deriving DecidableEq, Repr

/-- The info record bank, R20: the twelve field registers, each with its first payload byte most significant. -/
structure InfoRegs where
  esamSerial : BitVec 64
  esamVersion : BitVec 32
  symKeyVersion : BitVec 128
  msCertVersion : BitVec 8
  termCertVersion : BitVec 8
  sessionTimeLimit : BitVec 32
  sessionTimeRemaining : BitVec 32
  asctr : BitVec 32
  arctr : BitVec 32
  agseq : BitVec 32
  termCertSerial : BitVec 128
  msCertSerial : BitVec 128
deriving DecidableEq, Repr

/-- RDEC, R19, R20. -/
structure Rdec where
  state : RdState
  cur : BitVec 7
  len : Half
  err : BitVec 3
  fields : InfoRegs
deriving DecidableEq, Repr

/-- QSEQ, R21. `cmd` is `q_cmd_r`, held as the command it selects (R50). -/
structure Qseq where
  state : QState
  cmd : Cmd
  total : Nat
  randLen : Nat
  sigLen : Nat
  slot : Nat
  err : BitVec 3
deriving DecidableEq, Repr

/-- The payload buffer: the bytes parses have written, by offset, the offsets strictly rising. An offset that is not
listed holds no value (log 5). -/
abbrev Memory := List Host.Cell

/-- The machine. `acc` is the accumulator of a CSG used alone (R15, R61). `txFrame` is the tx frame space of R26: what
ENC has put out since its last accepted start (log 6). `params`, `inbox`, `env` and `ret` are the model's own (logs 1,
2, 4, 7). -/
structure State where
  params : Params
  acc : Byte
  enc : Enc
  txFrame : List Byte
  rxp : Rxp
  pbuf : Memory
  rdec : Rdec
  q : Qseq
  inbox : List Offer
  env : List Answer
  ret : Reply
deriving DecidableEq, Repr

/-- Why the machine stops with a fault: accesses to offsets that do not exist (R39). -/
inductive Fault where
  /-- Raised by a byte step in `R_PAYLOAD` with `rx_cnt` 65535, an offset `pbuf` does not have (R18). SAFE: no run
  reaches it (R22). -/
  | payloadOffsetOutside
  /-- Raised by a cursor step at an offset of 82 or more, where the record has no field (R136). SAFE: no run reaches it
  (R22). -/
  | recordOffsetOutside
deriving DecidableEq, Repr

/-- Why a step has no meaning. -/
inductive Refusal where
  /-- Raised by `exec` for an instruction without a meaning yet. SAFE: nothing is claimed of it. -/
  | notModelled (mnemonic : String)
  /-- Raised when the requester drives ENC, RXP or RDEC while a query runs: the spec gives no behaviour
  (spec/93_implementation_defined.md U6, spec/70_reset_and_hazards.md R123). SAFE: a precondition of the rules. -/
  | ownedByQuery
  /-- Raised when a length offered on a `LEN_W`-bit port does not fit it: it cannot be expressed
  (spec/93_implementation_defined.md U8). SAFE: no hardware is offered it. -/
  | lengthNotExpressible
  /-- Raised by `step` for offered bytes that are no frame of the table. SAFE: they name no operation. -/
  | undecodable (e : DecodeError)
deriving DecidableEq, Repr

/-- The outcome of a step of this machine. -/
abbrev Result := Host.Outcome State Fault Refusal

/-- ENC's reset values, R28. -/
def Enc.reset : Enc :=
  { state := .idle, idx := 0, bodyLen := 0, total := 0, acc := 0x00, err := 0, done := false }

/-- RXP's reset values, R28. -/
def Rxp.reset : Rxp :=
  { state := .idle, status := 0x0000, length := 0x0000, cnt := 0x0000, acc := 0x00, cs := 0x00, err := 0 }

/-- The field registers all 0: reset (R28), a fresh record (R83), a failed decode (R84), a gated output (R85). -/
def InfoRegs.zero : InfoRegs :=
  { esamSerial := 0, esamVersion := 0, symKeyVersion := 0, msCertVersion := 0, termCertVersion := 0
    sessionTimeLimit := 0, sessionTimeRemaining := 0, asctr := 0, arctr := 0, agseq := 0
    termCertSerial := 0, msCertSerial := 0 }

/-- RDEC's reset values, R28. -/
def Rdec.reset : Rdec :=
  { state := .idle, cur := 0, len := 0, err := 0, fields := .zero }

/-- QSEQ's reset values, R28. -/
def Qseq.reset : Qseq :=
  { state := .idle, cmd := .getMsCert, total := 0, randLen := 0, sigLen := 0, slot := 0, err := 0 }

/-- The machine right after reset at given parameters: every register at its value of R28, nothing offered. -/
def State.resetAt (p : Params) : State :=
  { params := p, acc := 0x00, enc := .reset, txFrame := [], rxp := .reset, pbuf := [], rdec := .reset, q := .reset
    inbox := [], env := [], ret := .nothing }

/-- The machine right after reset, at the reference parameters of R8. -/
def State.reset : State := .resetAt .reference

end Sys2Proof.Machine
end

