-- ==== Sys2Proof/Machine/Flags.lean ====
section
/-! DEFINITION. The status flags (spec/10_state.md R23) and the output ports (R24), functions of the registers; and the
byte read and write of the payload buffer that the read port stands on. -/

namespace Sys2Proof.Machine

/-- The byte at an offset of the payload buffer; none where no parse has written (log 5). -/
def Memory.read : Memory → Nat → Option Byte
  | [], _ => none
  | (k, b) :: m, a => if k = a then some b else Memory.read m a

/-- Writing one byte, keeping the offsets strictly rising (`MemWrite` of one byte, R12). -/
def Memory.write : Memory → Nat → Byte → Memory
  | [], a, v => [(a, v)]
  | (k, b) :: m, a, v =>
    if a < k then (a, v) :: (k, b) :: m
    else if a = k then (a, v) :: m
    else (k, b) :: Memory.write m a v

/-- The canonical form: offsets strictly rising, each of them an offset of `pbuf` (0 to 65534, R18). -/
def Memory.wf : Memory → Bool
  | [] => true
  | [(k, _)] => decide (k < Config.pbufDepth)
  | (k, _) :: (k', b) :: m => decide (k < k') && Memory.wf ((k', b) :: m)

/-- What the payload buffer holds at an offset: a byte written there, or the free value (U2). -/
def pbufByte (m : Memory) (a : Nat) : Byte :=
  (Memory.read m a).getD (Config.pbufUnwritten a)

/-- `enc_ready`, R23. -/
def State.encReady (s : State) : Bool := decide (s.enc.state = .idle)

/-- `rx_ok`, R23. -/
def State.rxOk (s : State) : Bool := decide (s.rxp.state = .ok)

/-- `rx_fail`, R23. -/
def State.rxFail (s : State) : Bool := decide (s.rxp.state = .fail)

/-- `rec_valid`, R23. -/
def State.recValid (s : State) : Bool := decide (s.rdec.state = .ok)

/-- `rd_fail`, R23. -/
def State.rdFail (s : State) : Bool := decide (s.rdec.state = .fail)

/-- `q_ready`, R23. -/
def State.qReady (s : State) : Bool := decide (s.q.state = .idle) || decide (s.q.state = .done)

/-- `q_done`, R23. -/
def State.qDone (s : State) : Bool := decide (s.q.state = .done)

/-- A query is running: from its accepted start to `Q_DONE`, ENC, RXP and RDEC belong to QSEQ
(spec/44_commands.md section 3, R123). -/
def State.queryRuns (s : State) : Bool := decide (s.q.state = .xfer) || decide (s.q.state = .post)

/-- `cs_out`, R24, R61: the complement of an accumulator. -/
def csOut (acc : Byte) : Byte := ~~~ acc

/-- What ENC offers (`tx_valid`, `tx_data`, R24, R66): the byte of its state, given the body byte offered to it; none
while it is idle, or held for a body byte. -/
def Enc.tx (e : Enc) (body : Option Byte) : Option Byte :=
  match e.state with
  | .idle => none
  | .sync => some Config.sync
  | .body => body
  | .csum => some (csOut e.acc)
  | .pad => some Config.pad

/-- `tx_last`, R24: the byte offered is the frame's last. -/
def Enc.txLast (e : Enc) (body : Option Byte) : Bool :=
  (e.tx body).isSome && decide (e.idx + 1 = e.total)

/-- The body byte QSEQ's composer offers to ENC (R95): body offset `enc_idx - 1`. -/
def State.composed (s : State) (arg : Option Byte) : Option Byte :=
  composerByte s.q.cmd s.q.randLen s.q.sigLen (s.enc.idx - 1) arg

/-- The byte of the next slot, `slot_valid` and `slot_tx` (R24, R96): what ENC offers while a transfer runs. -/
def State.slotTx (s : State) (arg : Option Byte) : Option Byte :=
  if s.q.state = .xfer then s.enc.tx (s.composed arg) else none

/-- Would the next body byte come from the requester's argument stream (R95, `k >= 6`)? -/
def State.wantsArg (s : State) : Bool :=
  decide (s.q.state = .xfer) && decide (s.enc.state = .body) && decide (s.q.cmd = .negotiate)
    && decide (Config.fixedBodyLen ≤ s.enc.idx - 1)

/-- `pl_len`, R24. -/
def State.plLen (s : State) : Half := if s.rxOk then s.rxp.length else 0

/-- `pl_data` at `pl_addr`, R24: gated by `rx_ok` and by the length of the payload. -/
def State.plData (s : State) (plAddr : Half) : Byte :=
  if s.rxOk && decide (plAddr < s.rxp.length) then pbufByte s.pbuf plAddr.toNat else 0x00

/-- The released payload, as the read port shows it from offset 0 on. -/
def State.payload (s : State) : List Byte :=
  (List.range s.plLen.toNat).map (fun a => s.plData (BitVec.ofNat 16 a))

/-- The `o_*` outputs, R24, R85: the field registers when `rec_valid`, else all zero. -/
def State.outRecord (s : State) : InfoRegs := if s.recValid then s.rdec.fields else .zero

/-- `q_sig_out_len`, R24. A parse of the requester's after a good NEGOTIATE can leave fewer than 48 in `rx_length`; the
difference is then a free value (log 22). -/
def State.qSigOutLen (s : State) : Half :=
  if s.qDone && decide (s.q.err = 0) && decide (s.q.cmd = .negotiate) then
    if s.rxp.length < 48 then Config.sigOutLenBelowSplit s.rxp.length else s.rxp.length - 48
  else 0

/-- The inputs that an output port depends on combinationally (R24). -/
structure PortInputs where
  body : Option Byte
  txReady : Bool
  plAddr : Half
  arg : Option Byte
  slotReady : Bool
  xferErr : Bool
deriving DecidableEq, Repr

/-- The output ports of R24, with their widths. -/
structure Outputs where
  csOut : Byte
  encReady : Bool
  bodyReady : Bool
  txValid : Bool
  txData : Byte
  txLast : Bool
  encDone : Bool
  encErr : BitVec 3
  rxOk : Bool
  rxFail : Bool
  rxErr : BitVec 3
  rxStatus : Half
  rxLength : Half
  rxCnt : Half
  rxCsExp : Byte
  rxCsRcv : Byte
  plLen : Half
  plData : Byte
  rdAddr : BitVec 7
  recValid : Bool
  rdFail : Bool
  rdErr : BitVec 3
  record : InfoRegs
  argReady : Bool
  slotValid : Bool
  slotTx : Byte
  slotLast : Bool
  qReady : Bool
  qDone : Bool
  qErr : BitVec 3
  qSigOutLen : Half
deriving DecidableEq, Repr

/-- The body byte offered to ENC: the composer's during a transfer, the requester's otherwise (section 3 of
spec/44_commands.md). -/
def State.bodyOffered (s : State) (inp : PortInputs) : Option Byte :=
  if s.q.state = .xfer then s.composed inp.arg else inp.body

/-- Is ENC's byte taken in this step: by a slot during a transfer, by `tx_ready` otherwise? -/
def State.txTaken (s : State) (inp : PortInputs) : Bool :=
  if s.q.state = .xfer then inp.slotReady && !inp.xferErr else inp.txReady

/-- Every output port of R24. A data port reads 0 while its `valid` is 0 (log 13). `pl_data` shows the byte at the
requester's `pl_addr` in every step, also while RDEC reads at its cursor: who drives `pl_addr` then is the
model's choice (log 21). -/
def State.outputs (s : State) (inp : PortInputs) : Outputs :=
  { csOut := csOut s.acc
    encReady := s.encReady
    bodyReady := decide (s.enc.state = .body) && s.txTaken inp
    txValid := (s.enc.tx (s.bodyOffered inp)).isSome
    txData := (s.enc.tx (s.bodyOffered inp)).getD 0x00
    txLast := s.enc.txLast (s.bodyOffered inp)
    encDone := s.enc.done
    encErr := s.enc.err
    rxOk := s.rxOk
    rxFail := s.rxFail
    rxErr := s.rxp.err
    rxStatus := s.rxp.status
    rxLength := s.rxp.length
    rxCnt := s.rxp.cnt
    rxCsExp := csOut s.rxp.acc
    rxCsRcv := s.rxp.cs
    plLen := s.plLen
    plData := s.plData inp.plAddr
    rdAddr := s.rdec.cur
    recValid := s.recValid
    rdFail := s.rdFail
    rdErr := s.rdec.err
    record := s.outRecord
    argReady := s.wantsArg && inp.arg.isSome && inp.slotReady && !inp.xferErr
    slotValid := (s.slotTx inp.arg).isSome
    slotTx := (s.slotTx inp.arg).getD 0x00
    slotLast := decide (s.q.state = .xfer) && s.enc.txLast (s.composed inp.arg)
    qReady := s.qReady
    qDone := s.qDone
    qErr := s.q.err
    qSigOutLen := s.qSigOutLen }

/-- The outputs that selecting an event reads (`View`). -/
def State.view (s : State) : View := { encReady := s.encReady, qReady := s.qReady }

end Sys2Proof.Machine
end

