-- ==== Sys2Proof/Machine/Ops.lean ====
section
/-! DEFINITION. The named operations of the sub-blocks (the machine level of spec/40 to 44), the one operation that
raises an error (spec/60_exceptions.md R101), and the runs that whole operations are made of. Every operation writes
together at the end of its step: right-hand sides read the registers before it (spec/00_scope.md R12). -/

namespace Sys2Proof.Machine

/-- Sequencing outcomes: go on from a next state, stop at a fault or a refusal. -/
def andThen (r : Result) (k : State → Result) : Result :=
  match r with
  | .next s => k s
  | .fault f => .fault f
  | .refused f => .refused f

/-! ### CSG (R61) -/

/-- `cs_clear`: `acc <- 0x00`. -/
def csgClear : Byte := Config.csSeed

/-- `cs_absorb(b)`: `acc <- acc ^ b`. -/
def csgAbsorb (acc b : Byte) : Byte := acc ^^^ b

/-! ### Raising an error (R101)

There is no vector, no handler and no return from an error (R101, R110): the step that raises writes the error register
of its sub-block, puts the sub-block in its terminal state and leaves every other register, which is the error's detail
(R108), except as the clauses below say. The next start of the sub-block clears the error. -/

/-- ENC raises: `enc_err`, `enc_done = 1`, back to `E_IDLE`. -/
def Enc.raise (r : Enc) (e : Err) : Enc :=
  { r with err := codeOf e, done := true, state := .idle }

/-- RXP raises: `rx_err`, `R_FAIL`. -/
def Rxp.raise (r : Rxp) (e : Err) : Rxp :=
  { r with err := codeOf e, state := .fail }

/-- RDEC raises: `rd_err`, `D_FAIL`, the field registers cleared. -/
def Rdec.raise (r : Rdec) (e : Err) : Rdec :=
  { r with err := codeOf e, state := .fail, fields := .zero }

/-- QSEQ raises: `q_err`, `Q_DONE`. -/
def Qseq.raise (r : Qseq) (e : Err) : Qseq :=
  { r with err := codeOf e, state := .done }

/-- The sub-blocks that raise errors (R100 "appears on"). -/
inductive Raiser where
  | enc
  | rxp
  | rdec
  | qseq
deriving DecidableEq, Repr

/-- `raise E`, R101: the one operation by which a step of a sub-block ends its operation with an error. A transfer
failure of QSEQ also returns ENC, RXP and RDEC to their reset values (R97). -/
def State.raise (s : State) (by_ : Raiser) (e : Err) : State :=
  match by_ with
  | .enc => { s with enc := s.enc.raise e }
  | .rxp => { s with rxp := s.rxp.raise e }
  | .rdec => { s with rdec := s.rdec.raise e }
  | .qseq =>
    if e = .transportError then
      { s with enc := .reset, rxp := .reset, rdec := .reset, q := s.q.raise e }
    else { s with q := s.q.raise e }

/-! ### ENC (R65, R66) -/

/-- The length test of `enc_start`, R65: the sums do not wrap. -/
def tooLong (bodyLen total : Nat) : Bool := decide (bodyLen + 2 > total)

/-- `enc_start` at the registers of ENC, R65: no effect while ENC is busy; a frame that does not fit is rejected. -/
def Enc.start (e : Enc) (bodyLen total : Nat) : Enc :=
  if e.state = .idle then
    if tooLong bodyLen total then
      ({ e with bodyLen := bodyLen, total := total, idx := 0 } : Enc).raise .invalidLength
    else
      { e with bodyLen := bodyLen, total := total, idx := 0, err := 0, done := false, acc := csgClear, state := .sync }
  else e

/-- The emit of the frame's last byte ends it; another emit goes on in `E_PAD` (R66, `E_CSUM` and `E_PAD`). -/
def Enc.emitTail (e : Enc) : Enc :=
  if e.idx + 1 = e.total then { e with idx := e.idx + 1, state := .idle, done := true }
  else { e with idx := e.idx + 1, state := .pad }

/-- `enc_emit` at the registers of ENC, R66; ENC waits, unchanged, while it offers no byte. -/
def Enc.emit (e : Enc) (body : Option Byte) : Enc :=
  match e.state with
  | .idle => e
  | .sync => { e with idx := e.idx + 1, state := if e.bodyLen = 0 then .csum else .body }
  | .body =>
    match body with
    | none => e
    | some b =>
      { e with
        acc := csgAbsorb e.acc b
        idx := e.idx + 1
        state := if e.idx + 1 = e.bodyLen + 1 then .csum else .body }
  | .csum => e.emitTail
  | .pad => e.emitTail

/-- `enc_start`. -/
def State.encStart (s : State) (bodyLen total : Nat) : State :=
  { s with
    enc := s.enc.start bodyLen total
    txFrame := if s.enc.state = .idle then [] else s.txFrame }

/-- `enc_emit`: the byte offered leaves ENC. -/
def State.encEmit (s : State) (body : Option Byte) : State :=
  { s with
    enc := s.enc.emit body
    txFrame := s.txFrame ++ (s.enc.tx body).toList }

/-! ### RXP (R75 to R77) -/

/-- `rx_start`, R75: from any state. -/
def Rxp.started : Rxp := { Rxp.reset with state := .hunt }

/-- A 16-bit register with its upper byte replaced (R76 `[15:8] <- b`). -/
def setHigh (v : Half) (b : Byte) : Half := (b.setWidth 16 <<< 8) ||| (v &&& 0x00FF)

/-- A 16-bit register with its lower byte replaced (R76 `[7:0] <- b`). -/
def setLow (v : Half) (b : Byte) : Half := (v &&& 0xFF00) ||| b.setWidth 16

/-- The upper byte of a 16-bit register, `v[15:8]`. -/
def upper (v : Half) : Byte := (v >>> 8).setWidth 8

/-- `rx_byte` at the registers of RXP, R76. -/
def Rxp.byte (r : Rxp) (b : Byte) : Rxp :=
  match r.state with
  | .idle => r
  | .hunt => if b = Config.sync then { r with acc := csgClear, state := .stHi } else r
  | .stHi => { r with status := setHigh r.status b, acc := csgAbsorb r.acc b, state := .stLo }
  | .stLo =>
    let r' := { r with status := setLow r.status b, acc := csgAbsorb r.acc b }
    let status := be16 (upper r.status) b
    if status ≠ Config.statusOk then r'.raise (.statusError status) else { r' with state := .lenHi }
  | .lenHi => { r with length := setHigh r.length b, acc := csgAbsorb r.acc b, state := .lenLo }
  | .lenLo =>
    { r with
      length := setLow r.length b
      acc := csgAbsorb r.acc b
      cnt := 0
      state := if be16 (upper r.length) b = 0 then .csum else .payload }
  | .payload =>
    { r with
      acc := csgAbsorb r.acc b
      cnt := r.cnt + 1
      state := if r.cnt + 1 = r.length then .csum else .payload }
  | .csum =>
    if b = csOut r.acc then { r with cs := b, state := .ok }
    else ({ r with cs := b } : Rxp).raise .checksumMismatch
  | .ok => r
  | .fail => r

/-- The offset of `pbuf` that the next byte step writes (R18): `rx_cnt`, in `R_PAYLOAD` alone. -/
def Rxp.storeAt (r : Rxp) : Option Nat :=
  if r.state = .payload then some r.cnt.toNat else none

/-- `rx_end` at the registers of RXP, R77. -/
def Rxp.finish (r : Rxp) : Rxp :=
  match r.state with
  | .idle => r
  | .hunt => r.raise .syncNotFound
  | .stHi => r.raise .truncated
  | .stLo => r.raise .truncated
  | .lenHi => r.raise .truncated
  | .lenLo => r.raise .truncated
  | .payload => r.raise .truncated
  | .csum => r.raise .truncated
  | .ok => r
  | .fail => r

/-- `rx_start`; `pbuf` is not touched. -/
def State.rxStart (s : State) : State := { s with rxp := .started }

/-- `rx_byte`. -/
def State.rxByte (s : State) (b : Byte) : Result :=
  match s.rxp.storeAt with
  | none => .next { s with rxp := s.rxp.byte b }
  | some a =>
    if a < Config.pbufDepth then .next { s with rxp := s.rxp.byte b, pbuf := Memory.write s.pbuf a b }
    else .fault .payloadOffsetOutside

/-- `rx_end`. -/
def State.rxEnd (s : State) : State := { s with rxp := s.rxp.finish }

/-! ### RDEC (R83, R84, R136) -/

/-- The twelve fields of the record, in the order of R20. -/
inductive Field where
  | esamSerial
  | esamVersion
  | symKeyVersion
  | msCertVersion
  | termCertVersion
  | sessionTimeLimit
  | sessionTimeRemaining
  | asctr
  | arctr
  | agseq
  | termCertSerial
  | msCertSerial
deriving DecidableEq, Repr

/-- `fld(c)`, R136: the field whose offset range holds the cursor; none past the record. -/
def fieldAt (c : Nat) : Option Field :=
  if c < 8 then some .esamSerial
  else if c < 12 then some .esamVersion
  else if c < 28 then some .symKeyVersion
  else if c < 29 then some .msCertVersion
  else if c < 30 then some .termCertVersion
  else if c < 34 then some .sessionTimeLimit
  else if c < 38 then some .sessionTimeRemaining
  else if c < 42 then some .asctr
  else if c < 46 then some .arctr
  else if c < 50 then some .agseq
  else if c < 66 then some .termCertSerial
  else if c < 82 then some .msCertSerial
  else none

/-- `((F << 8) | b)[W-1:0]`, R84. -/
def shiftByte {w : Nat} (v : BitVec w) (b : Byte) : BitVec w := (v <<< 8) ||| b.setWidth w

/-- The byte shifted into the bottom of a field register, R84. -/
def InfoRegs.shiftIn (r : InfoRegs) (f : Field) (b : Byte) : InfoRegs :=
  match f with
  | .esamSerial => { r with esamSerial := shiftByte r.esamSerial b }
  | .esamVersion => { r with esamVersion := shiftByte r.esamVersion b }
  | .symKeyVersion => { r with symKeyVersion := shiftByte r.symKeyVersion b }
  | .msCertVersion => { r with msCertVersion := shiftByte r.msCertVersion b }
  | .termCertVersion => { r with termCertVersion := shiftByte r.termCertVersion b }
  | .sessionTimeLimit => { r with sessionTimeLimit := shiftByte r.sessionTimeLimit b }
  | .sessionTimeRemaining => { r with sessionTimeRemaining := shiftByte r.sessionTimeRemaining b }
  | .asctr => { r with asctr := shiftByte r.asctr b }
  | .arctr => { r with arctr := shiftByte r.arctr b }
  | .agseq => { r with agseq := shiftByte r.agseq b }
  | .termCertSerial => { r with termCertSerial := shiftByte r.termCertSerial b }
  | .msCertSerial => { r with msCertSerial := shiftByte r.msCertSerial b }

/-- `rd_start(len)`, R83: from any state, with the field registers cleared. -/
def Rdec.started (len : Half) : Rdec :=
  { state := .run, cur := 0, len := len, err := 0, fields := .zero }

/-- Does the cursor step pass the end of the payload (R84 `zext_16(rd_cur) >= rd_len`)? -/
def Rdec.atEnd (r : Rdec) : Bool := decide (r.len ≤ r.cur.setWidth 16)

/-- `rd_byte` at the registers of RDEC, with the field that the cursor names, R84. -/
def Rdec.take (r : Rdec) (f : Field) (b : Byte) : Rdec :=
  { r with
    fields := r.fields.shiftIn f b
    cur := r.cur + 1
    state := if r.cur + 1 = 82 then .ok else .run }

/-- `rd_start`. -/
def State.rdStart (s : State) (len : Half) : State := { s with rdec := .started len }

/-- `rd_byte`, R84: no effect outside `D_RUN`. -/
def State.rdByte (s : State) (b : Byte) : Result :=
  if s.rdec.state = .run then
    if s.rdec.atEnd then .next (s.raise .rdec .truncated)
    else match fieldAt s.rdec.cur.toNat with
      | some f => .next { s with rdec := s.rdec.take f b }
      | none => .fault .recordOffsetOutside
  else .next s

/-! ### QSEQ (R94, R96 to R98) -/

/-- The data length `D` of a start, R94: zero but for NEGOTIATE. -/
def dataLenOf (cmd : Cmd) (randLen sigLen : Nat) : Nat :=
  if cmd = .negotiate then randLen + sigLen else 0

/-- Is a start rejected with `InvalidLength`, R94? The sums do not wrap. -/
def startRejected (p : Params) (cmd : Cmd) (total randLen sigLen : Nat) : Bool :=
  (decide (cmd = .negotiate) && decide (randLen ≠ p.randLen))
    || decide (dataLenOf cmd randLen sigLen > Config.maxLength)
    || decide (Config.fixedBodyLen + dataLenOf cmd randLen sigLen + 2 > total)

/-- The registers QSEQ takes at a start, R94. -/
def Qseq.taken (cmd : Cmd) (total randLen sigLen : Nat) (st : QState) (err : BitVec 3) : Qseq :=
  { state := st
    cmd := cmd
    total := total
    randLen := if cmd = .negotiate then randLen else 0
    sigLen := if cmd = .negotiate then sigLen else 0
    slot := 0
    err := err }

/-- `q_start`, R94: no effect while a query runs; the results of the last query vanish, also when the new one is
rejected. -/
def State.qStart (s : State) (cmd : Cmd) (total randLen sigLen : Nat) : State :=
  if s.qReady then
    let s' := { s with rxp := .reset, rdec := .reset, q := .taken cmd total randLen sigLen s.q.state s.q.err }
    if startRejected s.params cmd total randLen sigLen then s'.raise .qseq .invalidLength
    else
      ({ s' with q := .taken cmd total randLen sigLen .xfer 0 }.encStart
        (Config.fixedBodyLen + dataLenOf cmd randLen sigLen) total).rxStart
  else s

/-- QSEQ's part of a slot, R96: the count, and `Q_POST` after the last slot. -/
def Qseq.counted (r : Qseq) : Qseq :=
  { r with slot := r.slot + 1, state := if r.slot + 1 = r.total then .post else r.state }

/-- `q_slot`, R96: ENC's emit, RXP's byte, the count, and `rx_end` after the last slot, in one step. No effect outside
`Q_XFER`, or while ENC offers no byte (R95). -/
def State.qSlot (s : State) (arg : Option Byte) (rx : Byte) : Result :=
  if (s.slotTx arg).isSome then
    andThen ((s.encEmit (s.composed arg)).rxByte rx) (fun t =>
      let u := { t with q := t.q.counted }
      .next (if s.q.slot + 1 = s.q.total then u.rxEnd else u))
  else .next s

/-- `q_xfer_err`, R97: no effect outside `Q_XFER`. -/
def State.qXferErr (s : State) : State :=
  if s.q.state = .xfer then s.raise .qseq .transportError else s

/-- The end of a query without an error (R98): `q_err <- 0`, `Q_DONE`. -/
def State.qFinish (s : State) : State := { s with q := { s.q with err := 0, state := .done } }

/-- The end of a query with RXP's error passed on (R98 `q_err <- rx_err`). -/
def State.qPassOn (s : State) : State := { s with q := { s.q with err := s.rxp.err, state := .done } }

/-- The byte that the block's wiring puts on `rd_data`: `pl_data` at `pl_addr = rd_cur` (R24, R98). -/
def State.wiredByte (s : State) : Byte := s.plData (s.rdec.cur.setWidth 16)

/-- `q_post`, R98: no effect outside `Q_POST`. -/
def State.qPost (s : State) : Result :=
  if s.q.state = .post then
    match s.rdec.state with
    | .run => s.rdByte s.wiredByte
    | .ok => .next s.qFinish
    | .fail => .next (s.raise .qseq .truncated)
    | .idle =>
      if s.rxFail then .next s.qPassOn
      else match s.q.cmd with
        | .getMsCert => .next s.qFinish
        | .getTermCert => .next s.qFinish
        | .getInfo => .next (s.rdStart s.rxp.length)
        | .negotiate =>
          if s.rxp.length < 48 then .next (s.raise .qseq .truncated) else .next s.qFinish
  else .next s

/-- The block's own event in a step that began in `before`, after the offer of the step has been taken. In `Q_POST` it is
`q_post` (R98, "taken by itself in every step with `q_state = Q_POST`"). Elsewhere, while `rd_state = D_RUN` and the
requester does not drive RDEC's ports (`driven`), `rd_step` is tied high and `pl_data` drives `rd_data`: it is `rd_byte`
with the byte shown before the step (R24, R84; log 20). It does nothing where the offer has ended the query or RDEC's run. -/
def State.ownEvent (before : State) (driven : Bool) (s : State) : Result :=
  if before.q.state = .post then s.qPost
  else if before.rdec.state = .run && !driven then s.rdByte before.wiredByte
  else .next s

/-! ### Reset (R118) -/

/-- `rst`, R118: every register to its reset value, `pbuf` excepted (R18). What is offered next, the parameters, the
bytes already sent and a value already returned are no registers. -/
def State.rstAll (s : State) : State :=
  { s with acc := 0x00, enc := .reset, rxp := .reset, rdec := .reset, q := .reset }

/-! ### Preconditions of what is offered -/

/-- ENC, RXP and RDEC may be driven only while no query runs (spec/93_implementation_defined.md U6). -/
def State.whenFree (s : State) (r : Result) : Result :=
  if s.queryRuns then .refused .ownedByQuery else r

/-- A length offered on a `LEN_W`-bit port must be expressible there (U8). -/
def State.whenFits (s : State) (lengths : List Nat) (r : Result) : Result :=
  if lengths.all s.params.fits then r else .refused .lengthNotExpressible

/-! ### The runs that whole operations are made of -/

/-- The emits of a frame whose body the requester holds (R66): `n` steps in which `tx_ready` is 1 and the body byte
that ENC is about to emit is offered. -/
def State.emits (body : List Byte) : Nat → State → State
  | 0, s => s
  | n + 1, s => State.emits body n (s.encEmit body[s.enc.idx - 1]?)

/-- The byte steps of an inbound sequence (R76). -/
def State.feed : List Byte → State → Result
  | [], s => .next s
  | b :: bs, s => andThen (s.rxByte b) (State.feed bs)

/-- One whole parse (R79): `rx_start`, the bytes, `rx_end`. -/
def State.parse (s : State) (raw : List Byte) : Result :=
  andThen (State.feed raw s.rxStart) (fun t => .next t.rxEnd)

/-- The cursor steps of a payload the requester holds (R84): `n` steps with `rd_data` the byte at `rd_cur`. Past the end
of the payload the port's value is not used. -/
def State.cursorSteps (payload : List Byte) : Nat → State → Result
  | 0, s => .next s
  | n + 1, s => andThen (s.rdByte (payload[s.rdec.cur.toNat]?.getD 0)) (State.cursorSteps payload n)

/-- The slots of the transfer in flight (R87, R96): the environment answers from its list, and the requester's argument
byte for the slot of tx offset `k` is `tx[k]`. The run ends with the transfer; it stays in flight when the environment
has no answer left or a byte is missing (R114). Answers not used stay. -/
def State.slots (tx : List Byte) : List Answer → State → Result
  | [], s => .next { s with env := [] }
  | a :: answers, s =>
    if s.q.state = .xfer then
      match a with
      | .xferErr => .next { s.qXferErr with env := answers }
      | .rx b =>
        if (s.slotTx tx[s.enc.idx]?).isSome then andThen (s.qSlot tx[s.enc.idx]? b) (State.slots tx answers)
        else .next { s with env := a :: answers }
    else .next { s with env := a :: answers }

/-- The most steps a query spends in `Q_POST` (R98): `1 + 82 + 1`. -/
def postSteps : Nat := 84

/-- The post steps of a query (R98), at most `n`. -/
def State.posts : Nat → State → Result
  | 0, s => .next s
  | n + 1, s => if s.q.state = .post then andThen s.qPost (State.posts n) else .next s

/-- A record as values (R31, R81): an opaque field's bytes are those of its register, most significant first. -/
def recordOf (r : InfoRegs) : InfoRecord :=
  { esamSerial := bytesBE 8 r.esamSerial
    esamVersion := bytesBE 4 r.esamVersion
    symKeyVersion := bytesBE 16 r.symKeyVersion
    msCertVersion := r.msCertVersion
    termCertVersion := r.termCertVersion
    sessionTimeLimit := r.sessionTimeLimit
    sessionTimeRemaining := r.sessionTimeRemaining
    asctr := r.asctr
    arctr := r.arctr
    agseq := r.agseq
    termCertSerial := bytesBE 16 r.termCertSerial
    msCertSerial := bytesBE 16 r.msCertSerial }

/-- The field registers of a record (R20, R31): an opaque field is the big-endian number of its bytes. -/
def regsOf (r : InfoRecord) : InfoRegs :=
  { esamSerial := beN 64 r.esamSerial
    esamVersion := beN 32 r.esamVersion
    symKeyVersion := beN 128 r.symKeyVersion
    msCertVersion := r.msCertVersion
    termCertVersion := r.termCertVersion
    sessionTimeLimit := r.sessionTimeLimit
    sessionTimeRemaining := r.sessionTimeRemaining
    asctr := r.asctr
    arctr := r.arctr
    agseq := r.agseq
    termCertSerial := beN 128 r.termCertSerial
    msCertSerial := beN 128 r.msCertSerial }

/-- The error that an error code names (R100), with the status for `StatusError`; none for 0 and for 7, which is never
produced. -/
def errOf (code : BitVec 3) (status : Half) : Option Err :=
  if code = 1 then some .syncNotFound
  else if code = 2 then some (.statusError status)
  else if code = 3 then some .truncated
  else if code = 4 then some .checksumMismatch
  else if code = 5 then some .invalidLength
  else if code = 6 then some .transportError
  else none

/-- What the result ports show at the end of a query without an error (R99): the payload, the record, or the two parts
of a NEGOTIATE reply. -/
def State.shown (s : State) : Value :=
  match s.q.cmd with
  | .getMsCert => .bytes s.payload
  | .getTermCert => .bytes s.payload
  | .getInfo => .record (recordOf s.outRecord)
  | .negotiate => .session (s.payload.take Config.splitAt) (s.payload.drop Config.splitAt)

/-- What the requester reads after a query: nothing before `q_done`, then the value shown or the error of `q_err`. -/
def State.readReply (s : State) : Reply :=
  if s.qDone then
    if s.q.err = 0 then .value s.shown
    else match errOf s.q.err s.rxp.status with
      | some e => .error e
      | none => .nothing
  else .nothing

/-- A whole query at the machine level (R99): `q_start`, the transfer, the post steps, and the reading of the result. A
start while a query runs has no effect (R94). -/
def State.wholeQuery (s : State) (cmd : Cmd) (total : Nat) (rand sig : List Byte) : Result :=
  s.whenFits [total, rand.length, sig.length]
    (if s.qReady then
      andThen (State.slots (Config.sync :: bodyBytes cmd rand sig) s.env
          (s.qStart cmd total rand.length sig.length)) (fun t =>
        andThen (State.posts postSteps t) (fun u => .next { u with ret := u.readReply }))
    else .next s)

/-- The reply of a transfer: the rx bytes, `TransportError`, or nothing while it has not returned. -/
def transferReply (r : Option (Except Err (List Byte) × List Answer)) : Reply :=
  match r with
  | none => .nothing
  | some (result, _) => replyOf (result.map Value.bytes)

/-- The slots a transfer of `length` performs of the one in flight: no more than are left of it. -/
def State.slotsLeft (s : State) (length : Nat) : Nat := min length (s.q.total - s.q.slot)

/-- TRANSFER at its interface (R87). While a query's transfer is in flight, the environment performs up to `length` of its
slots, and the reply is there once that transfer has ended. Otherwise the adapter serves another caller and the block has
no part in it: only the environment's answers are used up. -/
def State.transferOp (s : State) (tx : List Byte) (length : Nat) : Result :=
  if s.q.state = .xfer then
    andThen (State.slots tx (s.env.take length) s) (fun t =>
      .next { t with
        env := t.env ++ s.env.drop length
        ret := if t.q.state = .xfer then .nothing else transferReply (duplexTransfer (s.slotsLeft length) s.env) })
  else
    match duplexTransfer length s.env with
    | none => .next { s with ret := .nothing }
    | some (result, rest) => .next { s with env := rest, ret := transferReply (some (result, rest)) }

end Sys2Proof.Machine
end

