-- ==== Sys2Proof/Machine/Checksum.lean ====
section
/-! DEFINITION. The meanings of CSG's rows: XORFOLD, CHECKSUM, cs_clear, cs_absorb (spec/40_checksum.md), and of the
presentation function HEX (spec/43_record_decoder.md R82). -/

namespace Sys2Proof.Machine

/-- XORFOLD, R58: a function with no port; its value is returned. -/
def execXorfold (bytes : List Byte) (s : State) : Result :=
  .next { s with ret := .value (.byte (xorFold bytes)) }

/-- CHECKSUM, R59: CSG is cleared and absorbs every byte (R61, R62), and the checksum is returned. -/
def execChecksum (bytes : List Byte) (s : State) : Result :=
  .next { s with acc := bytes.foldl csgAbsorb csgClear, ret := .value (.byte (checksum bytes)) }

/-- HEX, R82: a function with no port; its text is returned. -/
def execHex (bytes : List Byte) (s : State) : Result :=
  .next { s with ret := .value (.text (hexText bytes)) }

/-- cs_clear, R61. -/
def execCsClear (s : State) : Result :=
  .next { s with acc := csgClear }

/-- cs_absorb, R61. -/
def execCsAbsorb (b : Byte) (s : State) : Result :=
  .next { s with acc := csgAbsorb s.acc b }

end Sys2Proof.Machine
end

