-- ==== Sys2Proof/Machine/Encoder.lean ====
section
/-! DEFINITION. The meanings of ENC's rows: ENCODE, enc_start, enc_emit (spec/41_frame_encoder.md). -/

namespace Sys2Proof.Machine

/-- ENCODE, R63, R67: the start and the emits of the whole frame, whose value is returned. Offered to a busy ENC it has
no effect (R65). Lengths that ENC's ports cannot express have a value and no run (R10; log 8). -/
def execEncode (body : List Byte) (total : Nat) (s : State) : Result :=
  s.whenFree
    (if s.encReady then
      let reply := replyOf ((encodeFrame body total).map Value.bytes)
      if s.params.fits body.length && s.params.fits total then
        .next { State.emits body total (s.encStart body.length total) with ret := reply }
      else .next { s with ret := reply }
    else .next s)

/-- enc_start, R65. -/
def execEncStart (bodyLen total : Nat) (s : State) : Result :=
  s.whenFree (s.whenFits [bodyLen, total] (.next (s.encStart bodyLen total)))

/-- enc_emit, R66. -/
def execEncEmit (body : Option Byte) (s : State) : Result :=
  s.whenFree (.next (s.encEmit body))

end Sys2Proof.Machine
end

