-- ==== Sys2Proof/Machine/Parser.lean ====
section
/-! DEFINITION. The meanings of RXP's rows: RESPONSE_FRAME, DECODE, rx_start, rx_byte, rx_end
(spec/42_frame_parser.md). -/

namespace Sys2Proof.Machine

/-- A whole parse whose functional value is returned (R69, R79). -/
def State.decodeOp (s : State) (raw : List Byte) : Result :=
  s.whenFree
    (andThen (s.parse raw) (fun t =>
      .next { t with ret := replyOf ((decodeResponse raw).map Value.bytes) }))

/-- RESPONSE_FRAME, R45, R69: the frame `55 90 00` and the bytes after it, as the whole inbound stream of a parse
(log 9). -/
def execResponseFrame (rest : List Byte) (s : State) : Result :=
  s.decodeOp (rowPattern .responseFrame ++ rest)

/-- DECODE, R69. -/
def execDecode (raw : List Byte) (s : State) : Result :=
  s.decodeOp raw

/-- rx_start, R75. -/
def execRxStart (s : State) : Result :=
  s.whenFree (.next s.rxStart)

/-- rx_byte, R76; with `rx_end` in the same step the byte is consumed first (R77). -/
def execRxByte (b : Byte) (atEnd : Bool) (s : State) : Result :=
  s.whenFree (andThen (s.rxByte b) (fun t => .next (if atEnd then t.rxEnd else t)))

/-- rx_end, R77. -/
def execRxEnd (s : State) : Result :=
  s.whenFree (.next s.rxEnd)

end Sys2Proof.Machine
end

