-- ==== Sys2Proof/Machine/Query.lean ====
section
/-! DEFINITION. The meanings of the commands, QUERY, TRANSFER and QSEQ's events (spec/44_commands.md), and of the reset
event (spec/70_reset_and_hazards.md R118). -/

namespace Sys2Proof.Machine

/-- GET_MS_CERT, R89: a whole query. -/
def execGetMsCert (total : Nat) (s : State) : Result :=
  s.wholeQuery .getMsCert total [] []

/-- GET_TERM_CERT, R90: a whole query. -/
def execGetTermCert (total : Nat) (s : State) : Result :=
  s.wholeQuery .getTermCert total [] []

/-- GET_INFO, R91: a whole query. -/
def execGetInfo (total : Nat) (s : State) : Result :=
  s.wholeQuery .getInfo total [] []

/-- NEGOTIATE, R92, R93: a whole query with the random value and the signature as its arguments. -/
def execNegotiate (total : Nat) (rand sig : List Byte) (s : State) : Result :=
  s.wholeQuery .negotiate total rand sig

/-- QUERY, R88: the flow common to the four commands; the arguments are NEGOTIATE's alone. -/
def execQuery (cmd : Cmd) (total : Nat) (rand sig : List Byte) (s : State) : Result :=
  s.wholeQuery cmd total rand sig

/-- TRANSFER, R87. -/
def execTransfer (tx : List Byte) (length : Nat) (s : State) : Result :=
  s.transferOp tx length

/-- rst, R118. -/
def execRst (s : State) : Result :=
  .next s.rstAll

/-- q_start, R94. -/
def execQStart (cmd : Cmd) (total randLen sigLen : Nat) (s : State) : Result :=
  s.whenFits [total, randLen, sigLen] (.next (s.qStart cmd total randLen sigLen))

/-- q_slot, R96. -/
def execQSlot (arg : Option Byte) (rx : Byte) (s : State) : Result :=
  s.qSlot arg rx

/-- q_xfer_err, R97. -/
def execQXferErr (s : State) : Result :=
  .next s.qXferErr

/-- q_post, R98. -/
def execQPost (s : State) : Result :=
  s.qPost

end Sys2Proof.Machine
end

