-- ==== Sys2Proof/Machine/Record.lean ====
section
/-! DEFINITION. The meanings of RDEC's rows: DECODE_INFO, rd_start, rd_byte (spec/43_record_decoder.md). -/

namespace Sys2Proof.Machine

/-- DECODE_INFO, R80, R86: the start and the cursor steps (at most 82, R84), and the functional value. A payload longer
than `rd_len_in` can express has a value and no run (R86; log 8). -/
def execDecodeInfo (payload : List Byte) (s : State) : Result :=
  s.whenFree
    (let reply := replyOf ((decodeInfo payload).map Value.record)
    if payload.length ≤ Config.maxLength then
      andThen (State.cursorSteps payload Config.infoLen (s.rdStart (BitVec.ofNat 16 payload.length))) (fun t =>
        .next { t with ret := reply })
    else .next { s with ret := reply })

/-- rd_start, R83. -/
def execRdStart (len : Half) (s : State) : Result :=
  s.whenFree (.next (s.rdStart len))

/-- rd_byte, R84, as the requester offers it, with its own byte (RDEC used alone, program P8). The block's wiring of R24
takes the event by itself (`State.ownEvent`, log 20). -/
def execRdByte (b : Byte) (s : State) : Result :=
  s.whenFree (s.rdByte b)

end Sys2Proof.Machine
end

