-- ==== Sys2Proof/Machine/Dispatch.lean ====
section
/-! DEFINITION. One arm per instruction: each calls its meaning. -/

namespace Sys2Proof.Machine

def exec (i : Instr) (s : State) : Host.Outcome State Fault Refusal :=
  match i with
  | .getMsCert total => Sys2Proof.Machine.execGetMsCert total s
  | .getTermCert total => Sys2Proof.Machine.execGetTermCert total s
  | .getInfo total => Sys2Proof.Machine.execGetInfo total s
  | .negotiate total rand sig => Sys2Proof.Machine.execNegotiate total rand sig s
  | .responseFrame rest => Sys2Proof.Machine.execResponseFrame rest s
  | .xorfold bytes => Sys2Proof.Machine.execXorfold bytes s
  | .checksum bytes => Sys2Proof.Machine.execChecksum bytes s
  | .encode body total => Sys2Proof.Machine.execEncode body total s
  | .decode raw => Sys2Proof.Machine.execDecode raw s
  | .decodeInfo payload => Sys2Proof.Machine.execDecodeInfo payload s
  | .hex bytes => Sys2Proof.Machine.execHex bytes s
  | .transfer tx length => Sys2Proof.Machine.execTransfer tx length s
  | .query cmd total rand sig => Sys2Proof.Machine.execQuery cmd total rand sig s
  | .rst => Sys2Proof.Machine.execRst s
  | .csClear => Sys2Proof.Machine.execCsClear s
  | .csAbsorb b => Sys2Proof.Machine.execCsAbsorb b s
  | .encStart bodyLen total => Sys2Proof.Machine.execEncStart bodyLen total s
  | .encEmit body => Sys2Proof.Machine.execEncEmit body s
  | .rxStart => Sys2Proof.Machine.execRxStart s
  | .rxByte b atEnd => Sys2Proof.Machine.execRxByte b atEnd s
  | .rxEnd => Sys2Proof.Machine.execRxEnd s
  | .rdStart len => Sys2Proof.Machine.execRdStart len s
  | .rdByte b => Sys2Proof.Machine.execRdByte b s
  | .qStart cmd total randLen sigLen => Sys2Proof.Machine.execQStart cmd total randLen sigLen s
  | .qSlot arg rx => Sys2Proof.Machine.execQSlot arg rx s
  | .qXferErr => Sys2Proof.Machine.execQXferErr s
  | .qPost => Sys2Proof.Machine.execQPost s

end Sys2Proof.Machine
end

