-- ==== Sys2Proof/Machine/Step.lean ====
section
/-! DEFINITION. One step of the machine (spec/10_state.md R14): the acceptance of one event. -/

namespace Sys2Proof.Machine

/-- One step. The next offer is decoded and run; a start that is ignored is not queued (R94, R123, U4). Beside it the block
takes its own event, if it has one: `q_post` in `Q_POST` (R98), where a start, a slot or a transfer failure has no effect,
ENC, RXP and RDEC may not be driven (U6) and `rst` wins (R118); `rd_byte` while RDEC runs and the requester does not drive
its ports (R24). Nothing else changes a register (R14). `q_post` by name is the block's own event and not a second one
(log 2). -/
def step (s : State) : Host.Outcome State Fault Refusal :=
  match s.inbox with
  | [] => s.ownEvent false s
  | o :: rest =>
    match decode s.params s.view o with
    | .event .qPost => s.ownEvent false { s with inbox := rest }
    | .event i => andThen (exec i { s with inbox := rest }) (s.ownEvent o.drivesRdec)
    | .idle => s.ownEvent o.drivesRdec { s with inbox := rest }
    | .rejected e => .refused (.undecodable e)

/-- `s` with the table's number `w` of `nbits` bits offered next, as a frame. A query in its post phase would take its own
post step beside it, so it is ended (log 2). -/
def State.withFetchWord (s : State) (nbits w : Nat) : State :=
  { s with
    inbox := .wire (tableBytes nbits w) :: s.inbox
    q := if s.q.state = .post then { s.q with state := .done } else s.q }

end Sys2Proof.Machine
end

