-- ==== Sys2Proof/Safety.lean ====
section
/-! DEFINITION. What counts as a sound state and a safe step, in the terms the statements use: the invariants that the
spec states between steps (R22, R39, R66, R76, R78, R84, R96), and the runs and shapes that statements name. -/

namespace Sys2Proof.Machine

/-- Running a list of instructions, each from the state the one before it left. -/
def runAll : List Instr → State → Result
  | [], s => .next s
  | i :: is, s => andThen (exec i s) (runAll is)

/-- No query runs: the sub-blocks are the requester's (R123). -/
def State.free (s : State) : Prop := s.queryRuns = false

/-- The query that an instruction is, if it is one: the four commands and QUERY (R88 to R92). -/
def queryOf : Instr → Option (Cmd × Nat × List Byte × List Byte)
  | .getMsCert total => some (.getMsCert, total, [], [])
  | .getTermCert total => some (.getTermCert, total, [], [])
  | .getInfo total => some (.getInfo, total, [], [])
  | .negotiate total rand sig => some (.negotiate, total, rand, sig)
  | .query cmd total rand sig => some (cmd, total, rand, sig)
  | .responseFrame _ | .xorfold _ | .checksum _ | .encode _ _ | .decode _ | .decodeInfo _ | .hex _ | .transfer _ _ => none
  | .rst | .csClear | .csAbsorb _ | .encStart _ _ | .encEmit _ | .rxStart | .rxByte _ _ | .rxEnd | .rdStart _
  | .rdByte _ | .qStart _ _ _ _ | .qSlot _ _ | .qXferErr | .qPost => none

/-- `respFrame(st, p)`, R73: the response frame of a status and a payload. -/
def respFrame (st : Half) (p : List Byte) : List Byte :=
  let covered := [upper st, st.setWidth 8, highByte p.length, lowByte p.length] ++ p
  [Config.sync] ++ covered ++ [checksum covered]

/-- The number of filler bytes before the first sync byte (`i` of R69). -/
def fillerLength (raw : List Byte) : Nat :=
  (raw.takeWhile (fun b => b != Config.sync)).length

/-- The slots of a transfer that the environment answers with a byte before it fails it or runs out of answers. -/
def answered : Nat → List Answer → Nat
  | 0, _ => 0
  | _ + 1, [] => 0
  | _ + 1, .xferErr :: _ => 0
  | n + 1, .rx _ :: answers => answered n answers + 1

/-- The error code that a functional result stands for (R99, R100): 0 for a value. -/
def codeOfResult (r : Except Err Value) : BitVec 3 :=
  match r with
  | .ok _ => 0
  | .error e => codeOf e

/-- The slot events of a transfer of `total` slots that the environment answers with `rx` (R96), the requester keeping the
next byte of `rand ∥ sig` on its argument stream: the byte of body offset 6 belongs to slot 7 (R95). -/
def slotEvents (total : Nat) (rand sig rx : List Byte) : List Instr :=
  (List.range total).map (fun k => .qSlot (rand ++ sig)[k - 7]? (rx.getD k 0x00))

/-- The number of steps in `Q_POST` of a query whose transfer brought `rx`, R98. -/
def postCount (cmd : Cmd) (rx : List Byte) : Nat :=
  match cmd, decodeResponse rx with
  | .getInfo, .ok payload => if 82 ≤ payload.length then 84 else payload.length + 3
  | _, _ => 1

/-- ENC between steps (R22, R39, R66): what has been put out is the beginning of the frame of some body of the declared
length, the accumulator is the fold of its bytes put out, and a finished frame is a whole one. -/
structure Enc.Inv (p : Params) (e : Enc) (frame : List Byte) : Prop where
  widths : e.idx ≤ e.total ∧ e.total < 2 ^ p.lenW ∧ e.bodyLen < 2 ^ p.lenW
  codes : e.err = 0 ∨ e.err = codeOf .invalidLength
  busy : e.state ≠ .idle → e.bodyLen + 2 ≤ e.total ∧ e.err = 0 ∧ e.done = false
  atSync : e.state = .sync → e.idx = 0
  atBody : e.state = .body → 1 ≤ e.idx ∧ e.idx ≤ e.bodyLen
  atCsum : e.state = .csum → e.idx = e.bodyLen + 1
  atPad : e.state = .pad → e.bodyLen + 2 ≤ e.idx ∧ e.idx < e.total
  sent : e.state ≠ .idle → ∃ body whole,
    body.length = e.bodyLen ∧ encodeFrame body e.total = .ok whole ∧ frame = whole.take e.idx
      ∧ e.acc = xorFold (body.take (e.idx - 1))
  finished : e.done = true → e.state = .idle ∧
    (e.err = 0 → e.idx = e.total ∧ ∃ body, body.length = e.bodyLen ∧ encodeFrame body e.total = .ok frame)

/-- The bytes of the payload buffer below an offset. -/
def stored (m : Memory) (n : Nat) : List Byte :=
  (List.range n).map (pbufByte m)

/-- What the checksum of a response covers, as the registers hold it (R49): status, length, the payload bytes stored. -/
def Rxp.covered (r : Rxp) (m : Memory) : List Byte :=
  [upper r.status, r.status.setWidth 8, upper r.length, r.length.setWidth 8] ++ stored m r.cnt.toNat

/-- RXP between steps (R22, R76), with the detail each verdict leaves (R78, R108). -/
structure Rxp.Inv (r : Rxp) (m : Memory) : Prop where
  codes : (r.state ≠ .fail ∧ r.err = 0) ∨ (r.state = .fail ∧ (r.err = 1 ∨ r.err = 2 ∨ r.err = 3 ∨ r.err = 4))
  counted : r.cnt ≤ r.length
  written : ∀ a, a < r.cnt.toNat → (Memory.read m a).isSome
  beforeStatus : r.state = .idle ∨ r.state = .hunt ∨ r.state = .stHi →
    r.status = 0 ∧ r.length = 0 ∧ r.cnt = 0 ∧ r.acc = 0 ∧ r.cs = 0
  atStLo : r.state = .stLo →
    r.status.setWidth 8 = (0 : Byte) ∧ r.acc = upper r.status ∧ r.length = 0 ∧ r.cnt = 0 ∧ r.cs = 0
  atLenHi : r.state = .lenHi → r.status = Config.statusOk ∧ r.acc = 0x90 ∧ r.length = 0 ∧ r.cnt = 0 ∧ r.cs = 0
  atLenLo : r.state = .lenLo →
    r.status = Config.statusOk ∧ r.length.setWidth 8 = (0 : Byte) ∧ r.acc = 0x90 ^^^ upper r.length ∧ r.cnt = 0
      ∧ r.cs = 0
  atPayload : r.state = .payload →
    r.status = Config.statusOk ∧ r.cnt < r.length ∧ r.acc = xorFold (r.covered m) ∧ r.cs = 0
  atCsum : r.state = .csum →
    r.status = Config.statusOk ∧ r.cnt = r.length ∧ r.acc = xorFold (r.covered m) ∧ r.cs = 0
  atOk : r.state = .ok →
    r.status = Config.statusOk ∧ r.cnt = r.length ∧ r.acc = xorFold (r.covered m) ∧ r.cs = checksum (r.covered m)
  afterSyncNotFound : r.err = codeOf .syncNotFound →
    r.status = 0 ∧ r.length = 0 ∧ r.cnt = 0 ∧ r.acc = 0 ∧ r.cs = 0
  afterStatusError : r.err = codeOf (.statusError r.status) →
    r.status ≠ Config.statusOk ∧ r.length = 0 ∧ r.cnt = 0 ∧ r.cs = 0
  afterTruncated : r.err = codeOf .truncated → r.cs = 0
  afterMismatch : r.err = codeOf .checksumMismatch →
    r.status = Config.statusOk ∧ r.cnt = r.length ∧ r.acc = xorFold (r.covered m) ∧ r.cs ≠ checksum (r.covered m)

/-- RDEC between steps (R22, R84, R85): the cursor stays in the record, and no field holds anything unless a record is
being read or is complete. -/
structure Rdec.Inv (r : Rdec) : Prop where
  atIdle : r.state = .idle → r = .reset
  atRun : r.state = .run → r.cur.toNat < 82 ∧ r.cur.toNat ≤ r.len.toNat ∧ r.err = 0
  atOk : r.state = .ok → r.cur = 82 ∧ 82 ≤ r.len.toNat ∧ r.err = 0
  atFail : r.state = .fail →
    r.cur.toNat < 82 ∧ r.cur.toNat = r.len.toNat ∧ r.err = codeOf .truncated ∧ r.fields = .zero

/-- QSEQ between steps (R22, R39, R96, R98). -/
structure State.QueryInv (s : State) : Prop where
  codes : s.q.err.toNat ≤ 6
  widths : s.q.slot ≤ s.q.total ∧ s.q.total < 2 ^ s.params.lenW ∧ s.q.randLen < 2 ^ s.params.lenW
    ∧ s.q.sigLen < 2 ^ s.params.lenW
  argsOfNegotiate : s.q.cmd ≠ .negotiate → s.q.randLen = 0 ∧ s.q.sigLen = 0
  atIdle : s.q.state = .idle → s.q = .reset
  atXfer : s.q.state = .xfer →
    s.q.slot < s.q.total ∧ s.q.err = 0 ∧ s.rxp.state ≠ .idle ∧ s.rdec = .reset
  atPost : s.q.state = .post →
    s.q.slot = s.q.total ∧ s.q.err = 0 ∧ (s.rxp.state = .ok ∨ s.rxp.state = .fail)
      ∧ (s.rdec.state = .idle ∨ (s.q.cmd = .getInfo ∧ s.rxp.state = .ok ∧ s.rdec.len = s.rxp.length))

/-- The invariant of the machine: admissible parameters (R8), the payload buffer in its canonical form, and the four
sub-blocks between steps. -/
structure State.Inv (s : State) : Prop where
  params : s.params.admissible = true
  memory : Memory.wf s.pbuf = true
  enc : s.enc.Inv s.params s.txFrame
  rxp : s.rxp.Inv s.pbuf
  rdec : s.rdec.Inv
  query : s.QueryInv

/-- ENC and QSEQ in step (R96): throughout a transfer ENC puts out the frame that the query's registers describe (R94),
and the slot count is its index. -/
def State.InStep (s : State) : Prop :=
  s.q.state = .xfer → s.enc.state ≠ .idle ∧ s.q.slot = s.enc.idx ∧ s.q.total = s.enc.total ∧
    s.enc.bodyLen = Config.fixedBodyLen + dataLenOf s.q.cmd s.q.randLen s.q.sigLen

/-- A step that does not fault. -/
def safeStep (s : State) : Prop := ∀ f, step s ≠ .fault f

end Sys2Proof.Machine
end

