-- ==== Sys2Proof/Certificates/Slice0/Obligations.lean ====
section
/-! DEFINITION. The statements for the provers. Each docstring says which rule of spec/ it formalises; an equation between
outcomes states the whole next state, so it is also the instruction's frame. -/

open Sys2Proof Sys2Proof.Machine

/-! ### Reset (spec/10_state.md R28, spec/70_reset_and_hazards.md R118) -/

/-- R28: the reset value of every register, every output after reset, and the reset event from any state, whatever else
is offered in its step. -/
def Obligations.ResetValuesAndOutputs : Prop :=
  (∀ p : Params, ∀ inp : PortInputs,
    let s := State.resetAt p
    s.enc = { state := .idle, idx := 0, bodyLen := 0, total := 0, acc := 0x00, err := 0, done := false } ∧
    s.rxp = { state := .idle, status := 0, length := 0, cnt := 0, acc := 0x00, cs := 0x00, err := 0 } ∧
    s.rdec = { state := .idle, cur := 0, len := 0, err := 0, fields := InfoRegs.zero } ∧
    s.q = { state := .idle, cmd := .getMsCert, total := 0, randLen := 0, sigLen := 0, slot := 0, err := 0 } ∧
    s.outputs inp =
      { csOut := 0xFF, encReady := true, bodyReady := false, txValid := false, txData := 0, txLast := false,
        encDone := false, encErr := 0, rxOk := false, rxFail := false, rxErr := 0, rxStatus := 0, rxLength := 0,
        rxCnt := 0, rxCsExp := 0xFF, rxCsRcv := 0, plLen := 0, plData := 0, rdAddr := 0, recValid := false,
        rdFail := false, rdErr := 0, record := InfoRegs.zero, argReady := false, slotValid := false, slotTx := 0,
        slotLast := false, qReady := true, qDone := false, qErr := 0, qSigOutLen := 0 }) ∧
  (∀ p v u, decode p v (.ports { rst := true, unit := u }) = .event .rst) ∧
  (∀ s : State, exec .rst s =
    .next { s with acc := 0x00, enc := Enc.reset, rxp := Rxp.reset, rdec := Rdec.reset, q := Qseq.reset })

/-- R23, R24, R78, R85, R93, R95, R96: every output port in every state. That a data port reads 0 while its `valid` is 0
and that slots take ENC's bytes during a transfer is the model's choice (log 13), and so is that the requester's `pl_addr`
is the one read (log 21); `q_sig_out_len` is a free value where `rx_length` is below 48 (log 22). -/
def Obligations.OutputPortsInEveryState : Prop :=
  ∀ (s : State) (inp : PortInputs),
    let o := s.outputs inp
    let xfer := s.q.state = .xfer
    let body := if xfer then composerByte s.q.cmd s.q.randLen s.q.sigLen (s.enc.idx - 1) inp.arg else inp.body
    let slotTaken := inp.slotReady = true ∧ inp.xferErr = false
    o.csOut = ~~~ s.acc ∧
    (o.encReady = true ↔ s.enc.state = .idle) ∧
    (o.bodyReady = true ↔ s.enc.state = .body ∧ (if xfer then slotTaken else inp.txReady = true)) ∧
    (o.txValid = true ↔ s.enc.state = .sync ∨ s.enc.state = .csum ∨ s.enc.state = .pad ∨
      (s.enc.state = .body ∧ body.isSome = true)) ∧
    o.txData = (match s.enc.state with
      | .idle => 0x00
      | .sync => 0x55
      | .body => body.getD 0x00
      | .csum => ~~~ s.enc.acc
      | .pad => 0x00) ∧
    (o.txLast = true ↔ o.txValid = true ∧ s.enc.idx + 1 = s.enc.total) ∧
    o.encDone = s.enc.done ∧ o.encErr = s.enc.err ∧
    (o.rxOk = true ↔ s.rxp.state = .ok) ∧ (o.rxFail = true ↔ s.rxp.state = .fail) ∧
    o.rxErr = s.rxp.err ∧ o.rxStatus = s.rxp.status ∧ o.rxLength = s.rxp.length ∧ o.rxCnt = s.rxp.cnt ∧
    o.rxCsExp = ~~~ s.rxp.acc ∧ o.rxCsRcv = s.rxp.cs ∧
    o.plLen = (if s.rxp.state = .ok then s.rxp.length else 0) ∧
    o.plData = (if s.rxp.state = .ok ∧ inp.plAddr < s.rxp.length then
      (Memory.read s.pbuf inp.plAddr.toNat).getD (Config.pbufUnwritten inp.plAddr.toNat) else 0x00) ∧
    o.rdAddr = s.rdec.cur ∧
    (o.recValid = true ↔ s.rdec.state = .ok) ∧ (o.rdFail = true ↔ s.rdec.state = .fail) ∧ o.rdErr = s.rdec.err ∧
    o.record = (if s.rdec.state = .ok then s.rdec.fields else InfoRegs.zero) ∧
    (o.argReady = true ↔ xfer ∧ s.enc.state = .body ∧ s.q.cmd = .negotiate ∧ 6 ≤ s.enc.idx - 1 ∧
      inp.arg.isSome = true ∧ slotTaken) ∧
    (o.slotValid = true ↔ xfer ∧ o.txValid = true) ∧
    o.slotTx = (if xfer then o.txData else 0x00) ∧
    (o.slotLast = true ↔ xfer ∧ o.txLast = true) ∧
    (o.qReady = true ↔ s.q.state = .idle ∨ s.q.state = .done) ∧ (o.qDone = true ↔ s.q.state = .done) ∧
    o.qErr = s.q.err ∧
    (s.q.state = .done ∧ s.q.err = 0 ∧ s.q.cmd = .negotiate → 48 ≤ s.rxp.length →
      o.qSigOutLen = s.rxp.length - 48) ∧
    (s.q.state = .done ∧ s.q.err = 0 ∧ s.q.cmd = .negotiate → s.rxp.length < 48 →
      o.qSigOutLen = Config.sigOutLenBelowSplit s.rxp.length) ∧
    (¬ (s.q.state = .done ∧ s.q.err = 0 ∧ s.q.cmd = .negotiate) → o.qSigOutLen = 0)

/-- R118: a step in which `rst` is offered is the reset event, in every state, `Q_POST` included: every register takes its
reset value, `pbuf` excepted; the bytes already sent stay sent. -/
def Obligations.RstWinsOverEverything : Prop :=
  ∀ (s : State) (u : UnitPorts) (rest : List Offer), s.inbox = .ports { rst := true, unit := u } :: rest →
    step s = .next { s with
      acc := 0x00, enc := Enc.reset, rxp := Rxp.reset, rdec := Rdec.reset, q := Qseq.reset, inbox := rest }

/-! ### The checksum (spec/40_checksum.md) -/

/-- R61: the two events of CSG and the port levels that select them; the clear wins and `cs_din` is not absorbed. -/
def Obligations.CsgEventsClearAndAbsorb : Prop :=
  (∀ s : State, exec .csClear s = .next { s with acc := 0x00 }) ∧
  (∀ (b : Byte) (s : State), exec (.csAbsorb b) s = .next { s with acc := s.acc ^^^ b }) ∧
  (∀ p v en din, decode p v (.ports { rst := false, unit := .csg true en din }) = .event .csClear) ∧
  (∀ p v din, decode p v (.ports { rst := false, unit := .csg false true din }) = .event (.csAbsorb din)) ∧
  (∀ p v din, decode p v (.ports { rst := false, unit := .csg false false din }) = .idle)

/-- R58, R82: XORFOLD and HEX have no port: they return a value and change nothing else; what the values are. -/
def Obligations.PortlessFunctionsReturnTheirValue : Prop :=
  (∀ bytes s, exec (.xorfold bytes) s = .next { s with ret := .value (.byte (xorFold bytes)) }) ∧
  (∀ bytes s, exec (.hex bytes) s = .next { s with ret := .value (.text (hexText bytes)) }) ∧
  xorFold [] = 0x00 ∧
  (∀ bytes b, xorFold (bytes ++ [b]) = xorFold bytes ^^^ b) ∧
  hexText [] = [] ∧
  (∀ xs ys, hexText (xs ++ ys) = hexText xs ++ hexText ys) ∧
  (∀ bytes, (hexText bytes).length = 2 * bytes.length) ∧
  (∀ b : Byte, hexText [b] =
    [['0','1','2','3','4','5','6','7','8','9','a','b','c','d','e','f'].getD (b.toNat / 16) '?',
     ['0','1','2','3','4','5','6','7','8','9','a','b','c','d','e','f'].getD (b.toNat % 16) '?'])

/-- R60: the laws L1 to L9 of the checksum. -/
def Obligations.ChecksumLaws : Prop :=
  (∀ b, checksum b = ~~~ xorFold b) ∧
  (∀ b, xorFold (b ++ [checksum b]) = 0xFF) ∧
  (∀ a b, xorFold (a ++ b) = xorFold a ^^^ xorFold b) ∧
  (∀ a b, checksum (a ++ b) = checksum a ^^^ xorFold b) ∧
  (∀ a b : List Byte, a.Perm b → checksum a = checksum b) ∧
  (∀ a b n, checksum (a ++ zeros n ++ b) = checksum (a ++ b)) ∧
  (∀ b x, checksum (b ++ [x, x]) = checksum b) ∧
  (∀ (b : List Byte) (k : Nat) (h : k < b.length) (x : Byte),
    checksum (b.set k x) = checksum b ^^^ (b[k] ^^^ x) ∧ (x ≠ b[k] → checksum (b.set k x) ≠ checksum b)) ∧
  (∀ b received, checksum b = received ↔ xorFold (b ++ [received]) = 0xFF)

/-- R62: after a clear and the absorbing of `b`, `acc` is the fold and `cs_out` the checksum; CHECKSUM does this run and
returns the checksum (R59). -/
def Obligations.ChecksumLevelsAgree : Prop :=
  (∀ (b : List Byte) (s : State),
    runAll (.csClear :: b.map Instr.csAbsorb) s = .next { s with acc := xorFold b } ∧
    csOut (xorFold b) = checksum b ∧
    exec (.checksum b) s = .next { s with acc := xorFold b, ret := .value (.byte (checksum b)) }) ∧
  (∀ s : State, ∃ t, exec .csClear s = .next t ∧ csOut t.acc = 0xFF) ∧
  checksum [] = 0xFF

/-! ### The frame encoder (spec/41_frame_encoder.md) -/

/-- R64: the properties P1 to P7 of a frame that did not raise. -/
def Obligations.EncodedFrameProperties : Prop :=
  ∀ (body : List Byte) (total : Nat) (f : List Byte), encodeFrame body total = .ok f →
    f.length = total ∧
    f[0]? = some 0x55 ∧
    slice 1 body.length f = body ∧
    f[body.length + 1]? = some (checksum body) ∧
    (∀ k, body.length + 2 ≤ k → k < total → f[k]? = some 0x00) ∧
    xorFold (slice 1 (body.length + 1) f) = 0xFF ∧
    xorFold (f.drop 1) = 0xFF ∧
    (∀ total', total ≤ total' → ∃ f', encodeFrame body total' = .ok f' ∧ f <+: f')

/-- R63: `InvalidLength` exactly when the frame does not fit; and ENCODE, offered to an idle ENC with lengths its ports
express, returns that value and leaves ENC after the whole frame, or rejected with nothing emitted (R67). -/
def Obligations.EncodeOperationRuns : Prop :=
  (∀ body total, body.length + 2 > total → encodeFrame body total = .error .invalidLength) ∧
  (∀ body total, body.length + 2 ≤ total →
    encodeFrame body total = .ok ([0x55] ++ body ++ [checksum body] ++ zeros (total - body.length - 2))) ∧
  (∀ (body : List Byte) (total : Nat) (s : State), s.free → s.enc.state = .idle →
    s.params.fits body.length = true → s.params.fits total = true →
    (∀ f, encodeFrame body total = .ok f →
      exec (.encode body total) s = .next { s with
        enc := { state := .idle, idx := total, bodyLen := body.length, total := total, acc := xorFold body,
                 err := 0, done := true },
        txFrame := f,
        ret := .value (.bytes f) }) ∧
    (encodeFrame body total = .error .invalidLength →
      exec (.encode body total) s = .next { s with
        enc := { state := .idle, idx := 0, bodyLen := body.length, total := total, acc := s.enc.acc,
                 err := codeOf .invalidLength, done := true },
        txFrame := [],
        ret := .error .invalidLength }))

/-- R65: `enc_start` from an idle ENC, accepted or rejected; a busy ENC is not affected at all. -/
def Obligations.EncStartAcceptsOrRejects : Prop :=
  ∀ (bodyLen total : Nat) (s : State), s.free → s.params.fits bodyLen = true → s.params.fits total = true →
    (s.enc.state = .idle → bodyLen + 2 > total →
      exec (.encStart bodyLen total) s = .next { s with
        enc := { state := .idle, idx := 0, bodyLen := bodyLen, total := total, acc := s.enc.acc, err := 5,
                 done := true },
        txFrame := [] }) ∧
    (s.enc.state = .idle → bodyLen + 2 ≤ total →
      exec (.encStart bodyLen total) s = .next { s with
        enc := { state := .sync, idx := 0, bodyLen := bodyLen, total := total, acc := 0x00, err := 0,
                 done := false },
        txFrame := [] }) ∧
    (s.enc.state ≠ .idle → exec (.encStart bodyLen total) s = .next s)

/-- R66: the byte each state emits and what the emit writes; ENC waits, unchanged, with no body byte offered in `E_BODY`,
and emits nothing in `E_IDLE`. -/
def Obligations.EncEmitByState : Prop :=
  ∀ (body : Option Byte) (s : State), s.free →
    (s.enc.state = .sync → exec (.encEmit body) s = .next { s with
      enc := { s.enc with idx := s.enc.idx + 1, state := if s.enc.bodyLen = 0 then .csum else .body },
      txFrame := s.txFrame ++ [0x55] }) ∧
    (∀ b, s.enc.state = .body → body = some b → exec (.encEmit body) s = .next { s with
      enc := { s.enc with
        acc := s.enc.acc ^^^ b,
        idx := s.enc.idx + 1,
        state := if s.enc.idx = s.enc.bodyLen then .csum else .body },
      txFrame := s.txFrame ++ [b] }) ∧
    (s.enc.state = .csum → exec (.encEmit body) s = .next { s with
      enc := { s.enc with
        idx := s.enc.idx + 1,
        state := if s.enc.idx + 1 = s.enc.total then .idle else .pad,
        done := if s.enc.idx + 1 = s.enc.total then true else s.enc.done },
      txFrame := s.txFrame ++ [~~~ s.enc.acc] }) ∧
    (s.enc.state = .pad → exec (.encEmit body) s = .next { s with
      enc := { s.enc with
        idx := s.enc.idx + 1,
        state := if s.enc.idx + 1 = s.enc.total then .idle else .pad,
        done := if s.enc.idx + 1 = s.enc.total then true else s.enc.done },
      txFrame := s.txFrame ++ [0x00] }) ∧
    (s.enc.state = .body → body = none → exec (.encEmit body) s = .next s) ∧
    (s.enc.state = .idle → exec (.encEmit body) s = .next s)

/-- R67: an accepted start, the sync emit, one emit for each body byte in order, and the emits of the rest: exactly
`total_len` emits, whose bytes are `encode(body, total_len)`, ending in `E_IDLE` with `enc_done`; or the rejection, with
nothing emitted. -/
def Obligations.EncoderLevelsAgree : Prop :=
  ∀ (body : List Byte) (total : Nat) (s : State), s.free → s.enc.state = .idle →
    s.params.fits body.length = true → s.params.fits total = true →
    (encodeFrame body total = .error .invalidLength ∧
      ∃ t, runAll [.encStart body.length total] s = .next t ∧ t.enc.err = 5 ∧ t.enc.done = true ∧
        t.enc.state = .idle ∧ t.txFrame = []) ∨
    (∃ f t, encodeFrame body total = .ok f ∧
      runAll (.encStart body.length total :: .encEmit none :: body.map (fun b => .encEmit (some b))
          ++ List.replicate (total - 1 - body.length) (.encEmit none)) s = .next t ∧
      t.txFrame = f ∧ f.length = total ∧ t.enc.state = .idle ∧ t.enc.done = true ∧ t.enc.err = 0 ∧
      t = { s with enc := t.enc, txFrame := t.txFrame })

/-- R68: of a frame that ENC made for the transfer's length, the adapter sends exactly its bytes. R87: of any other `tx` it
sends exactly `length` bytes; that a shorter `tx` stands whole in them, and that they are one piece of a longer one, is the
model's reading, which leaves the bytes added and the end free (log 23). -/
def Obligations.AdapterSendsTheFrameUnchanged : Prop :=
  (∀ (body : List Byte) (total : Nat) (f : List Byte), encodeFrame body total = .ok f → adapterSends f total = f) ∧
  (∀ (tx : List Byte) (length : Nat),
    (adapterSends tx length).length = length ∧
    (tx.length ≤ length → tx <:+: adapterSends tx length) ∧
    (length ≤ tx.length → adapterSends tx length <:+: tx))

/-! ### The frame parser (spec/42_frame_parser.md) -/

/-- R75: `rx_start` from any state, also in the middle of a parse; `pbuf` is not touched; it wins over a byte and an end
offered in the same step. -/
def Obligations.RxStartBeginsAFreshParse : Prop :=
  (∀ s : State, s.free → exec .rxStart s = .next { s with
    rxp := { state := .hunt, status := 0, length := 0, cnt := 0, acc := 0x00, cs := 0x00, err := 0 } }) ∧
  (∀ p v valid data atEnd,
    decode p v (.ports { rst := false, unit := .rxp true valid data atEnd }) = .event .rxStart)

/-- R76: what a byte does in each state of RXP, and R77: with `rx_end` in the same step the byte is consumed first. A byte
in `R_PAYLOAD` is stored at `pbuf[rx_cnt]`. -/
def Obligations.RxByteByState : Prop :=
  ∀ (b : Byte) (s : State), s.free →
    let r := s.rxp
    (∀ r', (r.state = .idle ∨ r.state = .ok ∨ r.state = .fail) ∧ r' = r ∨
        r.state = .hunt ∧ r' = (if b = 0x55 then { r with acc := 0x00, state := .stHi } else r) ∨
        r.state = .stHi ∧
          r' = { r with status := b ++ r.status.setWidth 8, acc := r.acc ^^^ b, state := .stLo } ∨
        r.state = .stLo ∧
          r' = { r with
            status := (r.status >>> 8).setWidth 8 ++ b,
            acc := r.acc ^^^ b,
            state := if (r.status >>> 8).setWidth 8 ++ b = (0x9000 : Half) then .lenHi else .fail,
            err := if (r.status >>> 8).setWidth 8 ++ b = (0x9000 : Half) then r.err else 2 } ∨
        r.state = .lenHi ∧
          r' = { r with length := b ++ r.length.setWidth 8, acc := r.acc ^^^ b, state := .lenLo } ∨
        r.state = .lenLo ∧
          r' = { r with
            length := (r.length >>> 8).setWidth 8 ++ b,
            acc := r.acc ^^^ b,
            cnt := 0,
            state := if (r.length >>> 8).setWidth 8 ++ b = (0 : Half) then .csum else .payload } ∨
        r.state = .csum ∧
          r' = { r with
            cs := b,
            state := if b = ~~~ r.acc then .ok else .fail,
            err := if b = ~~~ r.acc then r.err else 4 } →
      exec (.rxByte b false) s = .next { s with rxp := r' }) ∧
    (r.state = .payload → r.cnt.toNat < 65535 →
      exec (.rxByte b false) s = .next { s with
        rxp := { r with
          acc := r.acc ^^^ b,
          cnt := r.cnt + 1,
          state := if r.cnt + 1 = r.length then .csum else .payload },
        pbuf := Memory.write s.pbuf r.cnt.toNat b }) ∧
    (∀ t, exec (.rxByte b false) s = .next t → exec (.rxByte b true) s = .next { t with rxp := t.rxp.finish })

/-- R18, R76: the one byte of memory that a byte step changes is `pbuf[rx_cnt]`, in `R_PAYLOAD`. -/
def Obligations.RxByteStoresAtTheCount : Prop :=
  ∀ (b : Byte) (atEnd : Bool) (s t : State), exec (.rxByte b atEnd) s = .next t →
    ∀ a, (s.rxp.storeAt = some a → Memory.read t.pbuf a = some b) ∧
      (s.rxp.storeAt ≠ some a → Memory.read t.pbuf a = Memory.read s.pbuf a)

/-- R77: what the end of the transfer does in each state. -/
def Obligations.RxEndByState : Prop :=
  ∀ s : State, s.free →
    (s.rxp.state = .idle ∨ s.rxp.state = .ok ∨ s.rxp.state = .fail → exec .rxEnd s = .next s) ∧
    (s.rxp.state = .hunt → exec .rxEnd s = .next { s with rxp := { s.rxp with err := 1, state := .fail } }) ∧
    (s.rxp.state = .stHi ∨ s.rxp.state = .stLo ∨ s.rxp.state = .lenHi ∨ s.rxp.state = .lenLo ∨
        s.rxp.state = .payload ∨ s.rxp.state = .csum →
      exec .rxEnd s = .next { s with rxp := { s.rxp with err := 3, state := .fail } })

/-- R71: every read that would pass the end of `raw` is `Truncated`, whatever the bytes present are; `f` is filler. -/
def Obligations.ReadsPastTheEndAreTruncated : Prop :=
  ∀ f : List Byte, 0x55 ∉ f →
    (∀ r : List Byte, r.length < 2 → decodeResponse (f ++ [0x55] ++ r) = .error .truncated) ∧
    (∀ r : List Byte, r.length < 2 → decodeResponse (f ++ [0x55, 0x90, 0x00] ++ r) = .error .truncated) ∧
    (∀ (l0 l1 : Byte) (r : List Byte), r.length ≤ (l0 ++ l1 : Half).toNat →
      decodeResponse (f ++ [0x55, 0x90, 0x00, l0, l1] ++ r) = .error .truncated)

/-- R70, R72: the parse commits to the first marker, and a status that is not `90 00` decides it at once, whatever
follows. -/
def Obligations.ParseCommitsToTheFirstMarker : Prop :=
  ∀ f : List Byte, 0x55 ∉ f →
    decodeResponse f = .error .syncNotFound ∧
    (∀ r : List Byte, decodeResponse (f ++ [0x55] ++ r) = decodeResponse ([0x55] ++ r)) ∧
    (∀ (s0 s1 : Byte) (r : List Byte), (s0 ++ s1 : Half) ≠ 0x9000 →
      decodeResponse (f ++ [0x55, s0, s1] ++ r) = .error (.statusError (s0 ++ s1)))

/-- R73: the properties Q1 to Q8 of `decode`. -/
def Obligations.DecodeProperties : Prop :=
  (∀ p : List Byte, p.length ≤ 65535 → decodeResponse (respFrame 0x9000 p) = .ok p) ∧
  (∀ f r : List Byte, 0x55 ∉ f → decodeResponse (f ++ r) = decodeResponse r) ∧
  (∀ f p t : List Byte, 0x55 ∉ f → p.length ≤ 65535 → decodeResponse (f ++ respFrame 0x9000 p ++ t) = .ok p) ∧
  (∀ r t : List Byte, decodeResponse r ≠ .error .truncated → decodeResponse r ≠ .error .syncNotFound →
    decodeResponse (r ++ t) = decodeResponse r) ∧
  ((∃ r t p : List Byte, decodeResponse r = .error .truncated ∧ decodeResponse (r ++ t) = .ok p) ∧
    (∃ r t p : List Byte, decodeResponse r = .error .syncNotFound ∧ decodeResponse (r ++ t) = .ok p)) ∧
  (∀ (st : Half) (f p t : List Byte), st ≠ 0x9000 → 0x55 ∉ f → p.length ≤ 65535 →
    decodeResponse (f ++ respFrame st p ++ t) = .error (.statusError st)) ∧
  (∀ raw p : List Byte, decodeResponse raw = .ok p → fillerLength raw + 6 + p.length ≤ raw.length) ∧
  (∀ (b0 b1 : Byte) (body f : List Byte) (total : Nat), (b0 ++ b1 : Half) ≠ 0x9000 →
    encodeFrame (b0 :: b1 :: body) total = .ok f → decodeResponse f = .error (.statusError (b0 ++ b1))) ∧
  (∀ (p : Params) (cmd : Cmd) (rand sig body f : List Byte) (total : Nat), compose p cmd rand sig = .ok body →
    encodeFrame body total = .ok f →
    decodeResponse f = .error (.statusError (if cmd = .negotiate then 0x8002 else 0x8036)))

/-- R74: what one changed byte of a good frame behind filler does, by the byte's place. -/
def Obligations.ChangedByteOutcomes : Prop :=
  ∀ (f p t : List Byte) (k : Nat) (x : Byte), 0x55 ∉ f → p.length ≤ 65535 →
    let raw := f ++ respFrame 0x9000 p ++ t
    let i := f.length
    let raw' := raw.set k x
    raw[k]? ≠ some x → k < raw.length →
      (i + 5 ≤ k → k < i + 6 + p.length → decodeResponse raw' = .error .checksumMismatch) ∧
      (k = i + 1 → decodeResponse raw' = .error (.statusError (x ++ (0x00 : Byte)))) ∧
      (k = i + 2 → decodeResponse raw' = .error (.statusError ((0x90 : Byte) ++ x))) ∧
      (k = i + 3 ∨ k = i + 4 →
        let len := 256 * (raw'.getD (i + 3) 0).toNat + (raw'.getD (i + 4) 0).toNat
        if raw.length < i + 6 + len then decodeResponse raw' = .error .truncated
        else if raw'[i + 5 + len]? = some (checksum (slice (i + 1) (4 + len) raw')) then
          decodeResponse raw' = .ok (slice (i + 5) len raw')
        else decodeResponse raw' = .error .checksumMismatch) ∧
      (k = i → decodeResponse raw' = decodeResponse (raw.drop (i + 1))) ∧
      (k < i → x = 0x55 → decodeResponse raw' = decodeResponse ([0x55] ++ raw.drop (k + 1))) ∧
      (k < i → x ≠ 0x55 → decodeResponse raw' = .ok p) ∧
      (i + 6 + p.length ≤ k → decodeResponse raw' = .ok p)

/-- R79: the parser's registers after `rx_start`, the bytes and `rx_end` say what `decode` says; the three verdicts that
more bytes cannot change fall in the step of the deciding byte and stand. -/
def Obligations.ParserLevelsAgree : Prop :=
  (∀ (raw : List Byte) (s : State), s.free →
    ∃ t, runAll (.rxStart :: raw.map (fun b => .rxByte b false) ++ [.rxEnd]) s = .next t ∧
      t = { s with rxp := t.rxp, pbuf := t.pbuf } ∧
      (t.rxp.state = .ok ↔ ∃ p, decodeResponse raw = .ok p) ∧
      (∀ p, decodeResponse raw = .ok p →
        t.rxp.length.toNat = p.length ∧ t.payload = p ∧ ∀ a, a < p.length → Memory.read t.pbuf a = p[a]?) ∧
      (∀ e, decodeResponse raw = .error e ↔
        (t.rxp.state = .fail ∧ t.rxp.err = codeOf e ∧ ∀ st, e = .statusError st → t.rxp.status = st) ∧
          e ≠ .invalidLength ∧ e ≠ .transportError)) ∧
  (∀ (bs : List Byte) (s t : State), s.free →
    runAll (.rxStart :: bs.map (fun b => .rxByte b false)) s = .next t →
      (t.rxp.state = .ok ↔ ∃ p, decodeResponse bs = .ok p) ∧
      (t.rxp.state = .fail ↔
        (∃ st, decodeResponse bs = .error (.statusError st)) ∨ decodeResponse bs = .error .checksumMismatch)) ∧
  (∀ s : State, s.free → s.rxp.state = .ok ∨ s.rxp.state = .fail →
    (∀ b atEnd, exec (.rxByte b atEnd) s = .next s) ∧ exec .rxEnd s = .next s)

/-- R69: DECODE runs the whole parse and returns its value; RESPONSE_FRAME does so for the frame `55 90 00 ...` (that an
offered response frame is a whole stream is the model's choice, log 9). -/
def Obligations.DecodeOperationsRun : Prop :=
  (∀ (raw : List Byte) (s : State), s.free →
    ∃ t, runAll (.rxStart :: raw.map (fun b => .rxByte b false) ++ [.rxEnd]) s = .next t ∧
      exec (.decode raw) s = .next { t with ret := replyOf ((decodeResponse raw).map Value.bytes) }) ∧
  (∀ (rest : List Byte) (s : State), s.free →
    ∃ t, runAll (.rxStart :: ([0x55, 0x90, 0x00] ++ rest).map (fun b => .rxByte b false) ++ [.rxEnd]) s = .next t ∧
      exec (.responseFrame rest) s =
        .next { t with ret := replyOf ((decodeResponse ([0x55, 0x90, 0x00] ++ rest)).map Value.bytes) })

/-- R24, R78, R125: the payload is shown in `R_OK` alone and only below its length; what is shown there, in a state that
meets the invariant, is a byte that was written (R18). -/
def Obligations.PayloadIsGated : Prop :=
  (∀ (s : State) (a : Half), s.rxp.state ≠ .ok → s.plLen = 0 ∧ s.plData a = 0x00) ∧
  (∀ (s : State) (a : Half), s.rxp.state = .ok → s.plLen = s.rxp.length ∧ (s.rxp.length ≤ a → s.plData a = 0x00)) ∧
  (∀ (s : State) (a : Half), s.Inv → s.rxp.state = .ok → a < s.rxp.length →
    Memory.read s.pbuf a.toNat = some (s.plData a))

/-- R18, U2 of spec/93_implementation_defined.md: what `pbuf` held before a parse cannot be seen after it, on any output
port. -/
def Obligations.OldBufferContentIsUnobservable : Prop :=
  ∀ (raw : List Byte) (m : Memory) (s t u : State), s.free →
    exec (.decode raw) s = .next t → exec (.decode raw) { s with pbuf := m } = .next u →
    t.ret = u.ret ∧ ∀ inp, t.outputs inp = u.outputs inp

/-! ### The record decoder (spec/43_record_decoder.md) -/

/-- R83: `rd_start` from any state: the old record disappears; it wins over a cursor step offered in the same step (R84,
`rd_start = 0`). -/
def Obligations.RdStartClearsTheRecord : Prop :=
  (∀ (len : Half) (s : State), s.free → exec (.rdStart len) s = .next { s with
    rdec := { state := .run, cur := 0, len := len, err := 0, fields := InfoRegs.zero } }) ∧
  (∀ p v len step data, decode p v (.ports ⟨false, .rdec true len step data⟩) = .event (.rdStart len))

/-- R84: one cursor step: `Truncated` past the end, else the byte shifted into the field of the cursor; no effect outside
`D_RUN`. -/
def Obligations.RdByteByState : Prop :=
  ∀ (b : Byte) (s : State), s.free →
    (s.rdec.state ≠ .run → exec (.rdByte b) s = .next s) ∧
    (s.rdec.state = .run → s.rdec.len.toNat ≤ s.rdec.cur.toNat →
      exec (.rdByte b) s = .next { s with
        rdec := { s.rdec with err := 3, state := .fail, fields := InfoRegs.zero } }) ∧
    (∀ f, s.rdec.state = .run → s.rdec.cur.toNat < s.rdec.len.toNat → fieldAt s.rdec.cur.toNat = some f →
      exec (.rdByte b) s = .next { s with
        rdec := { s.rdec with
          fields := s.rdec.fields.shiftIn f b,
          cur := s.rdec.cur + 1,
          state := if s.rdec.cur.toNat = 81 then .ok else .run } })

/-- R136: the field of every cursor from 0 to 81. -/
def Obligations.CursorNamesItsField : Prop :=
  (List.range 82).map fieldAt =
    List.replicate 8 (some .esamSerial) ++ List.replicate 4 (some .esamVersion) ++
    List.replicate 16 (some .symKeyVersion) ++ [some .msCertVersion, some .termCertVersion] ++
    List.replicate 4 (some .sessionTimeLimit) ++ List.replicate 4 (some .sessionTimeRemaining) ++
    List.replicate 4 (some .asctr) ++ List.replicate 4 (some .arctr) ++ List.replicate 4 (some .agseq) ++
    List.replicate 16 (some .termCertSerial) ++ List.replicate 16 (some .msCertSerial)

/-- R85: the record outputs are gated by `rec_valid`, and in `D_OK` no event but a start of RDEC or a reset changes any
field register: not a byte or cursor step, not another sub-block's event, not a slot or a post step. -/
def Obligations.CompleteRecordIsImmutable : Prop :=
  (∀ s : State, s.outRecord = if s.rdec.state = .ok then s.rdec.fields else InfoRegs.zero) ∧
  (∀ (i : Instr) (s t : State), s.rdec.state = .ok → exec i s = .next t →
    (i = .csClear ∨ (∃ b, i = .csAbsorb b) ∨ (∃ n m, i = .encStart n m) ∨ (∃ b, i = .encEmit b) ∨ i = .rxStart ∨
      (∃ b e, i = .rxByte b e) ∨ i = .rxEnd ∨ (∃ b, i = .rdByte b) ∨ (∃ a b, i = .qSlot a b) ∨ i = .qPost ∨
      (∃ bs, i = .xorfold bs) ∨ (∃ bs, i = .checksum bs) ∨ (∃ bs, i = .hex bs) ∨ (∃ bs n, i = .encode bs n) ∨
      (∃ bs, i = .decode bs) ∨ ∃ bs, i = .responseFrame bs) →
    t.rdec = s.rdec)

/-- R80, R81: `Truncated` exactly below 82 bytes; the twelve fields at their offsets; decoding is injective on the 82
bytes, which the fields written back in table order give again. -/
def Obligations.InfoRecordFields : Prop :=
  (∀ p : List Byte, p.length < 82 → decodeInfo p = .error .truncated) ∧
  (∀ p : List Byte, 82 ≤ p.length → decodeInfo p = .ok
    { esamSerial := slice 0 8 p,
      esamVersion := slice 8 4 p,
      symKeyVersion := slice 12 16 p,
      msCertVersion := p.getD 28 0,
      termCertVersion := p.getD 29 0,
      sessionTimeLimit := p.getD 30 0 ++ p.getD 31 0 ++ p.getD 32 0 ++ p.getD 33 0,
      sessionTimeRemaining := p.getD 34 0 ++ p.getD 35 0 ++ p.getD 36 0 ++ p.getD 37 0,
      asctr := p.getD 38 0 ++ p.getD 39 0 ++ p.getD 40 0 ++ p.getD 41 0,
      arctr := p.getD 42 0 ++ p.getD 43 0 ++ p.getD 44 0 ++ p.getD 45 0,
      agseq := p.getD 46 0 ++ p.getD 47 0 ++ p.getD 48 0 ++ p.getD 49 0,
      termCertSerial := slice 50 16 p,
      msCertSerial := slice 66 16 p }) ∧
  (∀ (p : List Byte) (r : InfoRecord), decodeInfo p = .ok r →
    r.esamSerial ++ r.esamVersion ++ r.symKeyVersion ++ [r.msCertVersion, r.termCertVersion] ++
      bytesBE 4 r.sessionTimeLimit ++ bytesBE 4 r.sessionTimeRemaining ++ bytesBE 4 r.asctr ++ bytesBE 4 r.arctr ++
      bytesBE 4 r.agseq ++ r.termCertSerial ++ r.msCertSerial = p.take 82)

/-- R86: after `rd_start(|payload|)` and the cursor steps, RDEC shows the record of `decodeInfo`, or nothing and
`Truncated`. -/
def Obligations.RecordLevelsAgree : Prop :=
  ∀ (payload : List Byte) (s : State), s.free → payload.length ≤ 65535 →
    (82 ≤ payload.length →
      ∃ r t, decodeInfo payload = .ok r ∧
        runAll (.rdStart (BitVec.ofNat 16 payload.length) :: (payload.take 82).map Instr.rdByte) s = .next t ∧
        t.rdec.state = .ok ∧ t.rdec.err = 0 ∧ t.outRecord = regsOf r ∧ recordOf t.outRecord = r ∧
        t = { s with rdec := t.rdec }) ∧
    (payload.length < 82 → ∀ b : Byte,
      ∃ t, decodeInfo payload = .error .truncated ∧
        runAll (.rdStart (BitVec.ofNat 16 payload.length) :: payload.map Instr.rdByte ++ [.rdByte b]) s = .next t ∧
        t.rdec.state = .fail ∧ t.rdec.err = 3 ∧ t.rdec.cur.toNat = payload.length ∧ t.outRecord = InfoRegs.zero ∧
        t = { s with rdec := t.rdec })

/-- R80: DECODE_INFO returns the record or `Truncated`, and RDEC runs beside it when its length port can express the
payload's length; that a longer payload runs no RDEC is the model's choice (log 8). -/
def Obligations.DecodeInfoOperationRuns : Prop :=
  ∀ (payload : List Byte) (s : State), s.free →
    ∃ t, exec (.decodeInfo payload) s = .next t ∧
      t = { s with rdec := t.rdec, ret := replyOf ((decodeInfo payload).map Value.record) } ∧
      (65535 < payload.length → t.rdec = s.rdec) ∧
      (payload.length ≤ 65535 → ∀ r, decodeInfo payload = .ok r → t.rdec.state = .ok ∧ t.outRecord = regsOf r) ∧
      (payload.length ≤ 65535 → decodeInfo payload = .error .truncated →
        t.rdec.state = .fail ∧ t.rdec.err = 3 ∧ t.outRecord = InfoRegs.zero)

/-! ### The commands and the query sequencer (spec/44_commands.md) -/

/-- R50, R89 to R91: the body and the outbound bytes of the three fixed commands, which take no arguments, and R92: the
composition of NEGOTIATE with its two length preconditions. -/
def Obligations.ComposedCommands : Prop :=
  (∀ total, 8 ≤ total →
    encodeFrame (bodyBytes .getMsCert [] []) total =
      .ok ([0x55, 0x80, 0x36, 0x00, 0x0C, 0x00, 0x00, 0x45] ++ List.replicate (total - 8) 0x00) ∧
    encodeFrame (bodyBytes .getTermCert [] []) total =
      .ok ([0x55, 0x80, 0x36, 0x00, 0x0B, 0x00, 0x00, 0x42] ++ List.replicate (total - 8) 0x00) ∧
    encodeFrame (bodyBytes .getInfo [] []) total =
      .ok ([0x55, 0x80, 0x36, 0x00, 0xFF, 0x00, 0x00, 0xB6] ++ List.replicate (total - 8) 0x00)) ∧
  (∀ (p : Params) (rand sig : List Byte),
    compose p .getMsCert rand sig = .ok [0x80, 0x36, 0x00, 0x0C, 0x00, 0x00] ∧
    compose p .getTermCert rand sig = .ok [0x80, 0x36, 0x00, 0x0B, 0x00, 0x00] ∧
    compose p .getInfo rand sig = .ok [0x80, 0x36, 0x00, 0xFF, 0x00, 0x00]) ∧
  (∀ (p : Params) (rand sig : List Byte),
    (rand.length ≠ p.randLen → compose p .negotiate rand sig = .error .invalidLength) ∧
    (rand.length + sig.length > 65535 → compose p .negotiate rand sig = .error .invalidLength) ∧
    (rand.length = p.randLen → rand.length + sig.length ≤ 65535 → ∃ d1 d0 : Byte,
      (d1 ++ d0 : Half).toNat = rand.length + sig.length ∧
      compose p .negotiate rand sig = .ok ([0x80, 0x02, 0x00, 0x00, d1, d0] ++ rand ++ sig)))

/-- R95: the bytes the composer offers, offset by offset, are the body that `compose` makes. From offset 6 of NEGOTIATE it
offers what the argument stream does, so with `arg_valid = 0` it offers no byte: `slot_valid` is then 0 and a slot does
nothing. Below offset 6 the argument stream has no part in it. -/
def Obligations.ComposerOffersTheBody : Prop :=
  (∀ (p : Params) (cmd : Cmd) (rand sig body : List Byte) (k : Nat), compose p cmd rand sig = .ok body →
    k < body.length → composerByte cmd rand.length sig.length k ((rand ++ sig)[k - 6]?) = body[k]?) ∧
  (∀ (randLen sigLen k : Nat) (arg : Option Byte), 6 ≤ k →
    composerByte .negotiate randLen sigLen k arg = arg) ∧
  (∀ (cmd : Cmd) (randLen sigLen k : Nat) (arg arg' : Option Byte), k < 6 →
    composerByte cmd randLen sigLen k arg = composerByte cmd randLen sigLen k arg') ∧
  (∀ (s : State) (rx : Byte) (inp : PortInputs), s.q.state = .xfer → s.q.cmd = .negotiate → s.enc.state = .body →
    7 ≤ s.enc.idx →
    s.slotTx none = none ∧ exec (.qSlot none rx) s = .next s ∧
    (inp.arg = none → (s.outputs inp).slotValid = false))

/-- R89, R90, R91, R93: what each command returns of the payload: itself, the record it decodes to, or, for NEGOTIATE,
its two parts, split at byte 48, and `Truncated` when shorter. -/
def Obligations.NegotiateReplySplitsAt48 : Prop :=
  ∀ p : List Byte,
    post .getMsCert p = .ok (.bytes p) ∧
    post .getTermCert p = .ok (.bytes p) ∧
    (∀ r, decodeInfo p = .ok r → post .getInfo p = .ok (.record r)) ∧
    (∀ e, decodeInfo p = .error e → post .getInfo p = .error e) ∧
    (p.length < 48 → post .negotiate p = .error .truncated) ∧
    (48 ≤ p.length → ∃ d g, post .negotiate p = .ok (.session d g) ∧ d.length = 48 ∧ d ++ g = p)

/-- R94: `q_start`, accepted, rejected, or ignored while a query runs. An accepted start puts RXP and RDEC to their reset
values also when it is rejected; ENC starts if it is idle (R65). R94 does not speak of a busy ENC: that the query then starts
and ENC's frame goes on, the last clause, is the model's choice (log 11). -/
def Obligations.QStartAcceptsOrRejects : Prop :=
  ∀ (cmd : Cmd) (total randLen sigLen : Nat) (s : State),
    s.params.fits total = true → s.params.fits randLen = true → s.params.fits sigLen = true →
    let d := if cmd = .negotiate then randLen + sigLen else 0
    let bad := (cmd = .negotiate ∧ randLen ≠ s.params.randLen) ∨ d > 65535 ∨ 6 + d + 2 > total
    let q : QState → BitVec 3 → Qseq := fun st err =>
      { state := st, cmd := cmd, total := total, randLen := if cmd = .negotiate then randLen else 0,
        sigLen := if cmd = .negotiate then sigLen else 0, slot := 0, err := err }
    (s.q.state = .xfer ∨ s.q.state = .post → exec (.qStart cmd total randLen sigLen) s = .next s) ∧
    (s.q.state = .idle ∨ s.q.state = .done → bad →
      exec (.qStart cmd total randLen sigLen) s =
        .next { s with rxp := Rxp.reset, rdec := Rdec.reset, q := q .done 5 }) ∧
    (s.q.state = .idle ∨ s.q.state = .done → ¬ bad → s.enc.state = .idle →
      exec (.qStart cmd total randLen sigLen) s = .next { s with
        rxp := { Rxp.reset with state := .hunt },
        rdec := Rdec.reset,
        q := q .xfer 0,
        enc := { state := .sync, idx := 0, bodyLen := 6 + d, total := total, acc := 0x00, err := 0, done := false },
        txFrame := [] }) ∧
    (s.q.state = .idle ∨ s.q.state = .done → ¬ bad → s.enc.state ≠ .idle →
      exec (.qStart cmd total randLen sigLen) s = .next { s with
        rxp := { Rxp.reset with state := .hunt }, rdec := Rdec.reset, q := q .xfer 0 })

/-- R96: a slot puts out the byte offered, consumes the rx byte, counts, and after the last slot ends the parse and enters
`Q_POST`; with no byte offered, or outside `Q_XFER`, nothing happens (R95). -/
def Obligations.QSlotExchangesOneByteEachWay : Prop :=
  ∀ (arg : Option Byte) (rx : Byte) (s : State),
    (s.q.state ≠ .xfer → exec (.qSlot arg rx) s = .next s) ∧
    (s.slotTx arg = none → exec (.qSlot arg rx) s = .next s) ∧
    (∀ b, s.slotTx arg = some b → (s.rxp.state = .payload → s.rxp.cnt.toNat < 65535) →
      let last := s.q.slot + 1 = s.q.total
      exec (.qSlot arg rx) s = .next { s with
        enc := s.enc.emit (s.composed arg),
        txFrame := s.txFrame ++ [b],
        rxp := if last then (s.rxp.byte rx).finish else s.rxp.byte rx,
        pbuf := (match s.rxp.storeAt with
          | some a => Memory.write s.pbuf a rx
          | none => s.pbuf),
        q := { s.q with slot := s.q.slot + 1, state := if last then .post else .xfer } })

/-- R96: `q_slot = enc_idx` throughout `Q_XFER`: a start of a query with ENC idle establishes it, every slot and every
step of the machine keep it, whatever is offered, and ENC is back in `E_IDLE` in the step in which the post phase begins. -/
def Obligations.SlotCountIsTheEncoderIndex : Prop :=
  (∀ (cmd : Cmd) (total randLen sigLen : Nat) (s t : State), s.q.state ≠ .xfer → s.enc.state = .idle →
    exec (.qStart cmd total randLen sigLen) s = .next t → t.InStep) ∧
  (∀ (i : Instr) (query : Cmd × Nat × List Byte × List Byte) (s t : State), queryOf i = some query →
    s.q.state ≠ .xfer → s.enc.state = .idle → exec i s = .next t → t.InStep) ∧
  (∀ (arg : Option Byte) (rx : Byte) (s t : State), s.Inv → s.InStep → s.q.state = .xfer →
    exec (.qSlot arg rx) s = .next t → t.InStep ∧ (t.q.state = .post → t.enc.state = .idle)) ∧
  (∀ s t : State, s.Inv → s.InStep → s.q.state = .xfer → step s = .next t →
    t.InStep ∧ (t.q.state = .post → t.enc.state = .idle))

/-- R97: a failed transfer: `TransportError`, ENC, RXP and RDEC at their reset values, `q_slot` and `pbuf` kept; no effect
outside `Q_XFER`; it wins over a slot offered in the same step. -/
def Obligations.XferErrEndsTheQuery : Prop :=
  (∀ s : State, s.q.state = .xfer → exec .qXferErr s = .next { s with
    enc := Enc.reset, rxp := Rxp.reset, rdec := Rdec.reset, q := { s.q with err := 6, state := .done } }) ∧
  (∀ s : State, s.q.state ≠ .xfer → exec .qXferErr s = .next s) ∧
  (∀ p v cmd total randLen sigLen argValid argData slotReady slotRx,
    decode p v (.ports ⟨false, .qseq false cmd total randLen sigLen argValid argData slotReady slotRx true⟩) =
      .event .qXferErr)

/-- R98: every branch of the post step. -/
def Obligations.QPostByState : Prop :=
  ∀ s : State,
    let done : BitVec 3 → State := fun err => { s with q := { s.q with err := err, state := .done } }
    (s.q.state ≠ .post → exec .qPost s = .next s) ∧
    (s.q.state = .post → s.rdec.state = .run → s.rdec.len.toNat ≤ s.rdec.cur.toNat →
      exec .qPost s = .next { s with rdec := { s.rdec with err := 3, state := .fail, fields := InfoRegs.zero } }) ∧
    (∀ f, s.q.state = .post → s.rdec.state = .run → s.rdec.cur.toNat < s.rdec.len.toNat →
      fieldAt s.rdec.cur.toNat = some f →
      exec .qPost s = .next { s with rdec := { s.rdec with
        fields := s.rdec.fields.shiftIn f (s.plData (s.rdec.cur.setWidth 16)),
        cur := s.rdec.cur + 1,
        state := if s.rdec.cur.toNat = 81 then .ok else .run } }) ∧
    (s.q.state = .post → s.rdec.state = .ok → exec .qPost s = .next (done 0)) ∧
    (s.q.state = .post → s.rdec.state = .fail → exec .qPost s = .next (done 3)) ∧
    (s.q.state = .post → s.rdec.state = .idle → s.rxp.state = .fail → exec .qPost s = .next (done s.rxp.err)) ∧
    (s.q.state = .post → s.rdec.state = .idle → s.rxp.state ≠ .fail →
      (s.q.cmd = .getMsCert ∨ s.q.cmd = .getTermCert → exec .qPost s = .next (done 0)) ∧
      (s.q.cmd = .getInfo → exec .qPost s = .next { s with
        rdec := { state := .run, cur := 0, len := s.rxp.length, err := 0, fields := InfoRegs.zero } }) ∧
      (s.q.cmd = .negotiate →
        exec .qPost s = .next (done (if s.rxp.length.toNat < 48 then 3 else 0))))

/-- R99: a whole query (the four commands and QUERY), offered when QSEQ is ready and ENC idle, computes `query`: with the
environment's answers it ends in `Q_DONE` with the code of the functional result, the ports show its value or error (the
payload port, the record outputs, or the two parts of `pbuf`), which is what the requester reads, and it puts out the frame;
while the environment has not answered every slot it waits in `Q_XFER` (R114). The same registers are reached event by
event: `q_start` alone if it is rejected; otherwise one `q_slot` for each answer, then `q_xfer_err` where the transfer
fails, or, after exactly `total_len` slots, the steps in `Q_POST` that R98 counts, and no fewer. The events keep the
requester's own `env` and `ret`. -/
def Obligations.QueryLevelsAgree : Prop :=
  ∀ (i : Instr) (cmd : Cmd) (total : Nat) (rand sig : List Byte) (s : State),
    queryOf i = some (cmd, total, rand, sig) → s.qReady = true → s.enc.state = .idle →
    s.params.fits total = true → s.params.fits rand.length = true → s.params.fits sig.length = true →
    ∃ t, exec i s = .next t ∧
      t = { s with enc := t.enc, txFrame := t.txFrame, rxp := t.rxp, pbuf := t.pbuf, rdec := t.rdec, q := t.q,
                   env := t.env, ret := t.ret } ∧
      (query s.params cmd total rand sig s.env = none →
        t.q.state = .xfer ∧ t.ret = .nothing ∧ t.env = [] ∧ t.q.slot = answered total s.env) ∧
      (∀ r, query s.params cmd total rand sig s.env = some r →
        t.q.state = .done ∧ t.q.err = codeOfResult r ∧ t.ret = replyOf r ∧ t.readReply = replyOf r ∧
          (∀ st, r = .error (.statusError st) → t.rxp.status = st) ∧
          (∀ payload, r = .ok (.bytes payload) → t.payload = payload) ∧
          (∀ record, r = .ok (.record record) → t.rdec.state = .ok ∧ t.outRecord = regsOf record) ∧
          (∀ data signature, r = .ok (.session data signature) →
            data.length = 48 ∧ t.payload = data ++ signature ∧ t.qSigOutLen.toNat = signature.length)) ∧
      (∀ body f, compose s.params cmd rand sig = .ok body → encodeFrame body total = .ok f →
        t.txFrame = f.take (answered total s.env) ∧ t.q.slot = answered total s.env ∧
          ∀ result rest, duplexTransfer total s.env = some (result, rest) → t.env = rest) ∧
      (∀ e, (compose s.params cmd rand sig).bind (fun body => encodeFrame body total) = .error e →
        t.enc = s.enc ∧ t.txFrame = s.txFrame ∧ t.env = s.env ∧ t.q.slot = 0 ∧ t.pbuf = s.pbuf) ∧
      (∀ (rx : List Byte) (u : State), t.q.slot = rx.length → s.env.take rx.length = rx.map Answer.rx →
        State.feed rx s.rxStart = .next u → t.pbuf = u.pbuf) ∧
      (∀ e, (compose s.params cmd rand sig).bind (fun body => encodeFrame body total) = .error e →
        runAll [.qStart cmd total rand.length sig.length] s = .next { t with env := s.env, ret := s.ret }) ∧
      (∀ (body f rx : List Byte) (rest : List Answer), compose s.params cmd rand sig = .ok body →
        encodeFrame body total = .ok f → rx.length ≤ total →
        let slots := .qStart cmd total rand.length sig.length :: (slotEvents total rand sig rx).take rx.length
        (rx.length < total → s.env = rx.map Answer.rx → runAll slots s = .next { t with env := s.env, ret := s.ret }) ∧
        (rx.length < total → ∃ u, runAll slots s = .next u ∧ u.q.state = .xfer ∧ u.q.slot = rx.length ∧
          u.txFrame = f.take rx.length) ∧
        (rx.length < total → s.env = rx.map Answer.rx ++ .xferErr :: rest →
          runAll (slots ++ [.qXferErr]) s = .next { t with env := s.env, ret := s.ret }) ∧
        (rx.length = total → ∀ m < postCount cmd rx, ∃ u,
          runAll (slots ++ List.replicate m .qPost) s = .next u ∧ u.q.state = .post ∧ u.txFrame = f) ∧
        (rx.length = total → s.env = rx.map Answer.rx ++ rest →
          runAll (slots ++ List.replicate (postCount cmd rx) .qPost) s =
            .next { t with env := s.env, ret := s.ret }))

/-- A query whose lengths fit its ports answers a next state from every state, whatever ENC and QSEQ are doing; TRANSFER
answers one from every state that meets the invariant, whatever it is offered. That a query starts with ENC busy (log 11),
and that TRANSFER takes any `tx` and length, in a query and outside (log 16), is the model's choice. -/
def Obligations.QueriesAndTransfersNeverStop : Prop :=
  (∀ (i : Instr) (cmd : Cmd) (total : Nat) (rand sig : List Byte) (s : State),
    queryOf i = some (cmd, total, rand, sig) → s.params.fits total = true → s.params.fits rand.length = true →
    s.params.fits sig.length = true → ∃ t, exec i s = .next t) ∧
  (∀ (tx : List Byte) (length : Nat) (s : State), s.Inv → ∃ t, exec (.transfer tx length) s = .next t)

/-- R87: the transfer's contract (exactly `length` rx bytes or `TransportError`); and the row TRANSFER, whose last two
clauses are the model's choice (logs 4 and 16): outside a query it changes nothing in the block; in a query it performs the
slots with `tx` as the argument bytes, and the query goes to its post phase or fails. -/
def Obligations.TransferKeepsItsContract : Prop :=
  (∀ (n : Nat) (answers rest : List Answer) (rx : List Byte),
    duplexTransfer n answers = some (.ok rx, rest) ↔ rx.length = n ∧ answers = rx.map Answer.rx ++ rest) ∧
  (∀ (n : Nat) (answers rest : List Answer) (e : Err), duplexTransfer n answers = some (.error e, rest) ↔
    e = .transportError ∧
      ∃ rx : List Byte, rx.length < n ∧ answers = rx.map Answer.rx ++ Answer.xferErr :: rest) ∧
  (∀ (tx : List Byte) (length : Nat) (s : State), s.q.state ≠ .xfer →
    exec (.transfer tx length) s = .next (match duplexTransfer length s.env with
      | none => { s with ret := .nothing }
      | some (.ok rx, rest) => { s with env := rest, ret := .value (.bytes rx) }
      | some (.error e, rest) => { s with env := rest, ret := .error e })) ∧
  (∀ (tx : List Byte) (length : Nat) (s : State), s.Inv → s.InStep → s.q.state = .xfer →
    s.q.total - s.q.slot ≤ length → s.enc.bodyLen < tx.length →
    ∃ t, exec (.transfer tx length) s = .next t ∧
      t = { s with enc := t.enc, txFrame := t.txFrame, rxp := t.rxp, pbuf := t.pbuf, rdec := t.rdec, q := t.q,
                   env := t.env, ret := t.ret } ∧
      (∀ (rx : List Byte) (u : State), t.q.slot = s.q.slot + rx.length → s.env.take rx.length = rx.map Answer.rx →
        State.feed rx s = .next u → t.pbuf = u.pbuf) ∧
      (∀ rx rest, duplexTransfer (s.q.total - s.q.slot) s.env = some (.ok rx, rest) →
        t.q.state = .post ∧ t.env = rest ∧ t.ret = .value (.bytes rx)) ∧
      (∀ rest, duplexTransfer (s.q.total - s.q.slot) s.env = some (.error .transportError, rest) →
        t.q.state = .done ∧ t.q.err = 6 ∧ t.env = rest ∧ t.ret = .error .transportError) ∧
      (duplexTransfer (s.q.total - s.q.slot) s.env = none → t.q.state = .xfer ∧ t.ret = .nothing))

/-- R128: with the rx bytes equal to the tx bytes every query fails with the status that its command's first two body
bytes make. -/
def Obligations.LoopBackFails : Prop :=
  ∀ (p : Params) (cmd : Cmd) (total : Nat) (rand sig body f : List Byte) (rest : List Answer),
    compose p cmd rand sig = .ok body → encodeFrame body total = .ok f →
    query p cmd total rand sig (f.map Answer.rx ++ rest) =
      some (.error (.statusError (if cmd = .negotiate then 0x8002 else 0x8036)))

/-- R41: what ENC puts out in a slot does not depend on the rx byte, and what RXP makes of the rx byte does not depend on
ENC or on the argument byte. -/
def Obligations.TxAndRxAreIndependent : Prop :=
  (∀ (arg : Option Byte) (rx rx' : Byte) (s t t' : State), exec (.qSlot arg rx) s = .next t →
    exec (.qSlot arg rx') s = .next t' → t.enc = t'.enc ∧ t.txFrame = t'.txFrame) ∧
  (∀ (arg arg' : Option Byte) (rx : Byte) (e : Enc) (f : List Byte) (s t t' : State),
    (s.slotTx arg).isSome = true → (({ s with enc := e, txFrame := f } : State).slotTx arg').isSome = true →
    exec (.qSlot arg rx) s = .next t → exec (.qSlot arg' rx) { s with enc := e, txFrame := f } = .next t' →
    t.rxp = t'.rxp ∧ t.pbuf = t'.pbuf ∧ t.q = t'.q)

/-! ### Errors, preconditions (spec/60_exceptions.md, spec/70_reset_and_hazards.md, spec/93_implementation_defined.md) -/

/-- R100: the code of each error, 1 to 6, so none of them 0 or 7, and the error a code names. -/
def Obligations.ErrorCodesNameTheErrors : Prop :=
  (codeOf .syncNotFound = 1 ∧ (∀ status, codeOf (.statusError status) = 2) ∧ codeOf .truncated = 3 ∧
    codeOf .checksumMismatch = 4 ∧ codeOf .invalidLength = 5 ∧ codeOf .transportError = 6) ∧
  (∀ e, codeOf e ≠ 0 ∧ codeOf e ≠ 7) ∧
  (∀ (e : Err) (status : Half), errOf (codeOf e) status =
    some (match e with
      | .statusError _ => .statusError status
      | e => e)) ∧
  (∀ status, errOf 0 status = none ∧ errOf 7 status = none)

/-- R101: raising an error writes the sub-block's error register and terminal state and leaves every other register,
except that RDEC clears its fields and QSEQ's transfer failure clears ENC, RXP and RDEC. -/
def Obligations.RaiseLeavesTheDetail : Prop :=
  ∀ (s : State) (e : Err),
    s.raise .enc e = { s with enc := { s.enc with err := codeOf e, done := true, state := .idle } } ∧
    s.raise .rxp e = { s with rxp := { s.rxp with err := codeOf e, state := .fail } } ∧
    s.raise .rdec e = { s with rdec := { s.rdec with err := codeOf e, state := .fail, fields := InfoRegs.zero } } ∧
    (e ≠ .transportError → s.raise .qseq e = { s with q := { s.q with err := codeOf e, state := .done } }) ∧
    s.raise .qseq .transportError = { s with
      enc := Enc.reset, rxp := Rxp.reset, rdec := Rdec.reset, q := { s.q with err := 6, state := .done } }

/-- R123: a start offered to a busy ENC or to a QSEQ that is not ready is ignored without any sign: nothing changes. It is
not queued either (R94, R109, U4): every step that answers a next state has taken its offer, and in `Q_POST` an offered
`q_start`, slot, transfer failure or whole query leaves the block's own post step as the only effect. That ENCODE, whose
value R63 gives for every body, returns nothing from a busy ENC (log 8), and that offers come as a list, one a step (log 2),
is the model's choice. -/
def Obligations.StartsWhileBusyAreIgnored : Prop :=
  (∀ (bodyLen total : Nat) (s : State), s.free → s.params.fits bodyLen = true → s.params.fits total = true →
    s.enc.state ≠ .idle → exec (.encStart bodyLen total) s = .next s) ∧
  (∀ (body : List Byte) (total : Nat) (s : State), s.free → s.enc.state ≠ .idle →
    exec (.encode body total) s = .next s) ∧
  (∀ (i : Instr) (cmd : Cmd) (total : Nat) (rand sig : List Byte) (s : State),
    queryOf i = some (cmd, total, rand, sig) → s.params.fits total = true → s.params.fits rand.length = true →
    s.params.fits sig.length = true → s.q.state = .xfer ∨ s.q.state = .post → exec i s = .next s) ∧
  (∀ (s t : State) (o : Offer) (rest : List Offer), s.inbox = o :: rest → step s = .next t → t.inbox = rest) ∧
  (∀ (s : State) (o : Offer) (rest : List Offer) (i : Instr), s.inbox = o :: rest → s.q.state = .post →
    decode s.params s.view o = .event i →
    ((∃ cmd total randLen sigLen, i = .qStart cmd total randLen sigLen ∧ s.params.fits total = true ∧
        s.params.fits randLen = true ∧ s.params.fits sigLen = true) ∨
      (∃ arg rx, i = .qSlot arg rx) ∨ i = .qXferErr ∨
      (∃ cmd total rand sig, queryOf i = some (cmd, total, rand, sig) ∧ s.params.fits total = true ∧
        s.params.fits rand.length = true ∧ s.params.fits sig.length = true)) →
    step s = exec .qPost { s with inbox := rest })

/-- R50, R84, R109, R123: the events that the port levels of ENC, RXP, RDEC and QSEQ select, each value of `q_cmd` with the
command it selects. What a start at a busy ENC or QSEQ
beside another strobe does is read from R109 by inference (log 17); that the requester's levels stand before the block's
wiring of `rd_step` and `rd_data` is the model's choice (log 20). -/
def Obligations.PortLevelsSelectEvents : Prop :=
  ∀ (p : Params) (v : View),
    let on : UnitPorts → Decoded := fun u => decode p v (.ports ⟨false, u⟩)
    let byteOn : Bool → Byte → Option Byte := fun valid data => if valid then some data else none
    (∀ n total valid data,
      on (.enc true n total valid data false) = .event (.encStart n total) ∧
      (v.encReady = true → on (.enc true n total valid data true) = .event (.encStart n total)) ∧
      (v.encReady = false → on (.enc true n total valid data true) = .event (.encEmit (byteOn valid data))) ∧
      on (.enc false n total valid data true) = .event (.encEmit (byteOn valid data)) ∧
      on (.enc false n total valid data false) = .idle) ∧
    (∀ valid data atEnd,
      on (.rxp true valid data atEnd) = .event .rxStart ∧
      on (.rxp false true data atEnd) = .event (.rxByte data atEnd) ∧
      on (.rxp false false data true) = .event .rxEnd ∧
      on (.rxp false false data false) = .idle) ∧
    (∀ len step data,
      on (.rdec true len step data) = .event (.rdStart len) ∧
      on (.rdec false len true data) = .event (.rdByte data) ∧
      on (.rdec false len false data) = .idle) ∧
    (selectorOf .getMsCert = 0 ∧ selectorOf .getTermCert = 1 ∧ selectorOf .getInfo = 2 ∧ selectorOf .negotiate = 3) ∧
    (∀ (sel : BitVec 2) (cmd : Cmd) total randLen sigLen valid data slotReady rx xferErr,
      (sel, cmd) ∈ [((0 : BitVec 2), Cmd.getMsCert), (1, .getTermCert), (2, .getInfo), (3, .negotiate)] →
      let q : Bool → Bool → Bool → UnitPorts := fun start slot err =>
        .qseq start sel total randLen sigLen valid data slot rx err
      on (q true false false) = .event (.qStart cmd total randLen sigLen) ∧
      (v.qReady = true → on (q true slotReady xferErr) = .event (.qStart cmd total randLen sigLen)) ∧
      (v.qReady = false → on (q true slotReady true) = .event .qXferErr) ∧
      (v.qReady = false → on (q true true false) = .event (.qSlot (byteOn valid data) rx)) ∧
      on (q false slotReady true) = .event .qXferErr ∧
      on (q false true false) = .event (.qSlot (byteOn valid data) rx) ∧
      on (q false false false) = .idle)

/-- U6, R123: while a query runs, whatever drives ENC, RXP or RDEC is refused by name. -/
def Obligations.UnitsBelongToTheRunningQuery : Prop :=
  ∀ s : State, s.q.state = .xfer ∨ s.q.state = .post →
    (∀ n m, exec (.encStart n m) s = .refused .ownedByQuery) ∧
    (∀ b, exec (.encEmit b) s = .refused .ownedByQuery) ∧
    (∀ body n, exec (.encode body n) s = .refused .ownedByQuery) ∧
    exec .rxStart s = .refused .ownedByQuery ∧
    (∀ b e, exec (.rxByte b e) s = .refused .ownedByQuery) ∧
    exec .rxEnd s = .refused .ownedByQuery ∧
    (∀ raw, exec (.decode raw) s = .refused .ownedByQuery) ∧
    (∀ rest, exec (.responseFrame rest) s = .refused .ownedByQuery) ∧
    (∀ n, exec (.rdStart n) s = .refused .ownedByQuery) ∧
    (∀ b, exec (.rdByte b) s = .refused .ownedByQuery) ∧
    (∀ p, exec (.decodeInfo p) s = .refused .ownedByQuery)

/-- U8: a length that a `LEN_W`-bit port cannot express is refused by name where it is offered on that port; ENCODE,
whose value is defined for every length (R10), returns it without a run of ENC (log 8). -/
def Obligations.LengthsThatDoNotFitAreRefused : Prop :=
  (∀ (bodyLen total : Nat) (s : State), s.free → s.params.fits bodyLen = false ∨ s.params.fits total = false →
    exec (.encStart bodyLen total) s = .refused .lengthNotExpressible) ∧
  (∀ (cmd : Cmd) (total randLen sigLen : Nat) (s : State),
    s.params.fits total = false ∨ s.params.fits randLen = false ∨ s.params.fits sigLen = false →
    exec (.qStart cmd total randLen sigLen) s = .refused .lengthNotExpressible) ∧
  (∀ (i : Instr) (cmd : Cmd) (total : Nat) (rand sig : List Byte) (s : State),
    queryOf i = some (cmd, total, rand, sig) →
    s.params.fits total = false ∨ s.params.fits rand.length = false ∨ s.params.fits sig.length = false →
    exec i s = .refused .lengthNotExpressible) ∧
  (∀ (body : List Byte) (total : Nat) (s : State), s.free → s.enc.state = .idle →
    s.params.fits body.length = false ∨ s.params.fits total = false →
    exec (.encode body total) s = .next { s with ret := replyOf ((encodeFrame body total).map Value.bytes) })

/-! ### Encoding and the step -/

/-- No two rows of the table overlap: no frame begins with the patterns of two rows. -/
def Obligations.TableRowsDoNotOverlap : Prop :=
  ∀ (a b : FrameRow) (bytes : List Byte), rowPattern a <+: bytes → rowPattern b <+: bytes → a = b

/-- A few words written out from the spec's encodings (R50, R45) decode to the instructions they stand for. -/
def Obligations.TableWordsDecode : Prop :=
  decodeTableWord 64 0x558036000C000045 = some (.getMsCert 8) ∧
  decodeTableWord 64 0x558036000B000042 = some (.getTermCert 8) ∧
  decodeTableWord 64 0x55803600FF0000B6 = some (.getInfo 8) ∧
  decodeTableWord 24 0x559000 = some (.responseFrame [0, 0, 0, 0, 0])

/-- R44 to R46, R50, R51: decoding what the encoder writes gives the instruction back, for every well-formed
instruction. -/
def Obligations.DecodeOfEncodeIsIdentity : Prop :=
  ∀ (p : Params) (v : View) (i : Instr), WellFormed p i = true → decode p v (encode i) = .event i

/-- The other direction: bytes that decode are the encoding of what they decode to, which is well formed; so no byte of a
frame is dropped, and no two frames stand for one instruction. -/
def Obligations.DecodedFramesAreEncodings : Prop :=
  ∀ (p : Params) (bytes : List Byte) (i : Instr), decodeFrame p bytes = .ok i →
    encodeBytes i = some bytes ∧ WellFormed p i = true

/-- A step runs the decoded instruction: when what is offered next decodes to `i`, the step is `exec i` with the offer
taken. The block's own event follows in the same step, and does nothing after a reset: in `Q_POST` the post step (R98);
elsewhere, while RDEC runs and the offer does not drive its ports, the cursor step with the byte that `pl_data` shows at
`rd_cur` (R24). That offers come as a list, that the own event stands beside an offer, and that `withFetchWord` places a
word in the list and ends a query in its post phase (log 2), and which offers drive RDEC's ports (log 20), is the model's
choice. -/
def Obligations.StepRunsTheDecodedInstruction : Prop :=
  (∀ (s : State) (o : Offer) (rest : List Offer) (i : Instr), s.inbox = o :: rest →
    decode s.params s.view o = .event i →
    (s.q.state ≠ .post → s.rdec.state ≠ .run ∨ o.drivesRdec = true → step s = exec i { s with inbox := rest }) ∧
    (s.q.state ≠ .post → s.rdec.state = .run → o.drivesRdec = false →
      step s = andThen (exec i { s with inbox := rest })
        (fun t => t.rdByte (s.plData (s.rdec.cur.setWidth 16)))) ∧
    (s.q.state = .post → i ≠ .qPost → step s = andThen (exec i { s with inbox := rest }) (exec .qPost)) ∧
    (s.q.state = .post → i = .qPost → step s = exec .qPost { s with inbox := rest })) ∧
  (∀ (s : State) (nbits w : Nat) (i : Instr), decodeFrame s.params (tableBytes nbits w) = .ok i →
    let s' := { s with q := if s.q.state = .post then { s.q with state := .done } else s.q }
    (s.rdec.state ≠ .run → step (s.withFetchWord nbits w) = exec i s') ∧
    (s.rdec.state = .run → step (s.withFetchWord nbits w) =
      andThen (exec i s') (fun t => t.rdByte (s.plData (s.rdec.cur.setWidth 16)))))

/-- What a step does otherwise: with nothing offered, or no strobe high, the block's own event: the post step in `Q_POST`
(R98); elsewhere the cursor step with the byte that `pl_data` shows at `rd_cur` while RDEC runs (R24), which an offer of
low levels on RDEC's ports holds; and else no register changes (R14). Bytes that are no frame of the table are refused by
name. That offers come as a list (log 2), which offers drive RDEC's ports (log 20), and which bytes are refused as no frame
(log 12), is the model's choice. -/
def Obligations.StepWithoutAnInstruction : Prop :=
  (∀ s : State, s.inbox = [] →
    (s.q.state = .post → step s = exec .qPost s) ∧
    (s.q.state ≠ .post → s.rdec.state ≠ .run → step s = .next s) ∧
    (s.q.state ≠ .post → s.rdec.state = .run → step s = s.rdByte (s.plData (s.rdec.cur.setWidth 16)))) ∧
  (∀ (s : State) (o : Offer) (rest : List Offer), s.inbox = o :: rest → decode s.params s.view o = .idle →
    (s.q.state = .post → step s = exec .qPost { s with inbox := rest }) ∧
    (s.q.state ≠ .post → s.rdec.state ≠ .run ∨ o.drivesRdec = true → step s = .next { s with inbox := rest }) ∧
    (s.q.state ≠ .post → s.rdec.state = .run → o.drivesRdec = false →
      step s = ({ s with inbox := rest } : State).rdByte (s.plData (s.rdec.cur.setWidth 16)))) ∧
  (∀ (s : State) (o : Offer) (rest : List Offer) (e : DecodeError), s.inbox = o :: rest →
    decode s.params s.view o = .rejected e → step s = .refused (.undecodable e))

/-! ### Invariants -/

/-- The invariant holds right after reset, at every admissible choice of the parameters, so at the reference one. -/
def Obligations.InvariantHoldsAtReset : Prop :=
  (∀ p : Params, p.admissible = true → (State.resetAt p).Inv) ∧ State.reset.Inv

/-- R22, R39, R66, R76, R78, R84, R96: every step keeps the invariant. -/
def Obligations.EveryStepKeepsTheInvariant : Prop :=
  ∀ s t : State, s.Inv → step s = .next t → t.Inv

/-- R39: from a state that meets the invariant no step faults, so no access goes out of bounds. -/
def Obligations.NoAccessGoesOutOfBounds : Prop :=
  ∀ s : State, s.Inv → safeStep s
end

