-- ==== Sys2Proof/Laws/Memory.lean ====
section
/-! SUPPORT. The laws of the payload buffer: reading back what was written, leaving every other offset alone, and
keeping the canonical form. -/

namespace Sys2Proof.Machine

@[simp] theorem Memory.read_nil (a : Nat) : Memory.read [] a = none := rfl

/-- A byte written is read back. -/
@[simp] theorem Memory.read_write_same (m : Memory) (a : Nat) (v : Byte) :
    Memory.read (Memory.write m a v) a = some v := by
  induction m with
  | nil => simp [Memory.write, Memory.read]
  | cons c m ih =>
    obtain ⟨k, b⟩ := c
    simp only [Memory.write]
    split
    · simp [Memory.read]
    · split
      · simp [Memory.read]
      · rename_i h
        simp [Memory.read, Ne.symm h, ih]

/-- A write leaves every other offset alone. -/
theorem Memory.read_write_other (m : Memory) {a a' : Nat} (v : Byte) (h : a' ≠ a) :
    Memory.read (Memory.write m a v) a' = Memory.read m a' := by
  induction m with
  | nil => simp [Memory.write, Memory.read, Ne.symm h]
  | cons c m ih =>
    obtain ⟨k, b⟩ := c
    simp only [Memory.write]
    split
    · simp [Memory.read, Ne.symm h]
    · split
      · subst_vars
        simp [Memory.read, Ne.symm h]
      · simp [Memory.read, ih]

/-- A write behind a listed offset keeps what stands before it in canonical form. -/
theorem Memory.wf_cons_write (m : Memory) {k a : Nat} {b v : Byte} (hm : Memory.wf ((k, b) :: m) = true)
    (hk : k < a) (ha : a < Config.pbufDepth) : Memory.wf ((k, b) :: Memory.write m a v) = true := by
  induction m generalizing k b with
  | nil => simp [Memory.write, Memory.wf, hk, ha]
  | cons c m ih =>
    obtain ⟨k', b'⟩ := c
    simp only [Memory.wf, Bool.and_eq_true, decide_eq_true_eq] at hm
    simp only [Memory.write]
    split
    · simp_all [Memory.wf]
    · split
      · subst_vars
        cases m with
        | nil => simp [Memory.wf, hk, ha]
        | cons c m => obtain ⟨k'', b''⟩ := c; simp_all [Memory.wf]
      · have := ih hm.2 (by omega)
        simp [Memory.wf, hm.1, this]

/-- A write to an offset of `pbuf` keeps the canonical form. -/
theorem Memory.wf_write (m : Memory) {a : Nat} (v : Byte) (hm : Memory.wf m = true) (ha : a < Config.pbufDepth) :
    Memory.wf (Memory.write m a v) = true := by
  cases m with
  | nil => simpa [Memory.write, Memory.wf] using ha
  | cons c m =>
    obtain ⟨k, b⟩ := c
    simp only [Memory.write]
    split
    · rename_i h
      simp [Memory.wf, h, hm]
    · split
      · subst_vars
        cases m with
        | nil => simpa [Memory.wf] using ha
        | cons c m => obtain ⟨k', b'⟩ := c; simpa [Memory.wf] using hm
      · exact Memory.wf_cons_write m hm (by omega) ha

/-- Nothing is listed right after reset. -/
theorem Memory.wf_reset (p : Params) : Memory.wf (State.resetAt p).pbuf = true := rfl

end Sys2Proof.Machine
end

