-- ==== Sys2Proof/Laws/State.lean ====
section
/-! SUPPORT. One lemma per field for every operation that updates the state: what the operation leaves in that field. -/

namespace Sys2Proof.Machine

@[simp] theorem State.encStart_params (s : State) (bodyLen total : Nat) :
    (s.encStart bodyLen total).params = s.params := rfl

@[simp] theorem State.encStart_acc (s : State) (bodyLen total : Nat) :
    (s.encStart bodyLen total).acc = s.acc := rfl

@[simp] theorem State.encStart_enc (s : State) (bodyLen total : Nat) :
    (s.encStart bodyLen total).enc = s.enc.start bodyLen total := rfl

@[simp] theorem State.encStart_txFrame (s : State) (bodyLen total : Nat) :
    (s.encStart bodyLen total).txFrame = if s.enc.state = .idle then [] else s.txFrame := rfl

@[simp] theorem State.encStart_rxp (s : State) (bodyLen total : Nat) :
    (s.encStart bodyLen total).rxp = s.rxp := rfl

@[simp] theorem State.encStart_pbuf (s : State) (bodyLen total : Nat) :
    (s.encStart bodyLen total).pbuf = s.pbuf := rfl

@[simp] theorem State.encStart_rdec (s : State) (bodyLen total : Nat) :
    (s.encStart bodyLen total).rdec = s.rdec := rfl

@[simp] theorem State.encStart_q (s : State) (bodyLen total : Nat) :
    (s.encStart bodyLen total).q = s.q := rfl

@[simp] theorem State.encStart_inbox (s : State) (bodyLen total : Nat) :
    (s.encStart bodyLen total).inbox = s.inbox := rfl

@[simp] theorem State.encStart_env (s : State) (bodyLen total : Nat) :
    (s.encStart bodyLen total).env = s.env := rfl

@[simp] theorem State.encStart_ret (s : State) (bodyLen total : Nat) :
    (s.encStart bodyLen total).ret = s.ret := rfl

@[simp] theorem State.encEmit_params (s : State) (body : Option Byte) :
    (s.encEmit body).params = s.params := rfl

@[simp] theorem State.encEmit_acc (s : State) (body : Option Byte) :
    (s.encEmit body).acc = s.acc := rfl

@[simp] theorem State.encEmit_enc (s : State) (body : Option Byte) :
    (s.encEmit body).enc = s.enc.emit body := rfl

@[simp] theorem State.encEmit_txFrame (s : State) (body : Option Byte) :
    (s.encEmit body).txFrame = s.txFrame ++ (s.enc.tx body).toList := rfl

@[simp] theorem State.encEmit_rxp (s : State) (body : Option Byte) :
    (s.encEmit body).rxp = s.rxp := rfl

@[simp] theorem State.encEmit_pbuf (s : State) (body : Option Byte) :
    (s.encEmit body).pbuf = s.pbuf := rfl

@[simp] theorem State.encEmit_rdec (s : State) (body : Option Byte) :
    (s.encEmit body).rdec = s.rdec := rfl

@[simp] theorem State.encEmit_q (s : State) (body : Option Byte) :
    (s.encEmit body).q = s.q := rfl

@[simp] theorem State.encEmit_inbox (s : State) (body : Option Byte) :
    (s.encEmit body).inbox = s.inbox := rfl

@[simp] theorem State.encEmit_env (s : State) (body : Option Byte) :
    (s.encEmit body).env = s.env := rfl

@[simp] theorem State.encEmit_ret (s : State) (body : Option Byte) :
    (s.encEmit body).ret = s.ret := rfl

@[simp] theorem State.rxStart_params (s : State) :
    (s.rxStart).params = s.params := rfl

@[simp] theorem State.rxStart_acc (s : State) :
    (s.rxStart).acc = s.acc := rfl

@[simp] theorem State.rxStart_enc (s : State) :
    (s.rxStart).enc = s.enc := rfl

@[simp] theorem State.rxStart_txFrame (s : State) :
    (s.rxStart).txFrame = s.txFrame := rfl

@[simp] theorem State.rxStart_rxp (s : State) :
    (s.rxStart).rxp = .started := rfl

@[simp] theorem State.rxStart_pbuf (s : State) :
    (s.rxStart).pbuf = s.pbuf := rfl

@[simp] theorem State.rxStart_rdec (s : State) :
    (s.rxStart).rdec = s.rdec := rfl

@[simp] theorem State.rxStart_q (s : State) :
    (s.rxStart).q = s.q := rfl

@[simp] theorem State.rxStart_inbox (s : State) :
    (s.rxStart).inbox = s.inbox := rfl

@[simp] theorem State.rxStart_env (s : State) :
    (s.rxStart).env = s.env := rfl

@[simp] theorem State.rxStart_ret (s : State) :
    (s.rxStart).ret = s.ret := rfl

@[simp] theorem State.rxEnd_params (s : State) :
    (s.rxEnd).params = s.params := rfl

@[simp] theorem State.rxEnd_acc (s : State) :
    (s.rxEnd).acc = s.acc := rfl

@[simp] theorem State.rxEnd_enc (s : State) :
    (s.rxEnd).enc = s.enc := rfl

@[simp] theorem State.rxEnd_txFrame (s : State) :
    (s.rxEnd).txFrame = s.txFrame := rfl

@[simp] theorem State.rxEnd_rxp (s : State) :
    (s.rxEnd).rxp = s.rxp.finish := rfl

@[simp] theorem State.rxEnd_pbuf (s : State) :
    (s.rxEnd).pbuf = s.pbuf := rfl

@[simp] theorem State.rxEnd_rdec (s : State) :
    (s.rxEnd).rdec = s.rdec := rfl

@[simp] theorem State.rxEnd_q (s : State) :
    (s.rxEnd).q = s.q := rfl

@[simp] theorem State.rxEnd_inbox (s : State) :
    (s.rxEnd).inbox = s.inbox := rfl

@[simp] theorem State.rxEnd_env (s : State) :
    (s.rxEnd).env = s.env := rfl

@[simp] theorem State.rxEnd_ret (s : State) :
    (s.rxEnd).ret = s.ret := rfl

@[simp] theorem State.rdStart_params (s : State) (len : Half) :
    (s.rdStart len).params = s.params := rfl

@[simp] theorem State.rdStart_acc (s : State) (len : Half) :
    (s.rdStart len).acc = s.acc := rfl

@[simp] theorem State.rdStart_enc (s : State) (len : Half) :
    (s.rdStart len).enc = s.enc := rfl

@[simp] theorem State.rdStart_txFrame (s : State) (len : Half) :
    (s.rdStart len).txFrame = s.txFrame := rfl

@[simp] theorem State.rdStart_rxp (s : State) (len : Half) :
    (s.rdStart len).rxp = s.rxp := rfl

@[simp] theorem State.rdStart_pbuf (s : State) (len : Half) :
    (s.rdStart len).pbuf = s.pbuf := rfl

@[simp] theorem State.rdStart_rdec (s : State) (len : Half) :
    (s.rdStart len).rdec = .started len := rfl

@[simp] theorem State.rdStart_q (s : State) (len : Half) :
    (s.rdStart len).q = s.q := rfl

@[simp] theorem State.rdStart_inbox (s : State) (len : Half) :
    (s.rdStart len).inbox = s.inbox := rfl

@[simp] theorem State.rdStart_env (s : State) (len : Half) :
    (s.rdStart len).env = s.env := rfl

@[simp] theorem State.rdStart_ret (s : State) (len : Half) :
    (s.rdStart len).ret = s.ret := rfl

@[simp] theorem State.qFinish_params (s : State) :
    (s.qFinish).params = s.params := rfl

@[simp] theorem State.qFinish_acc (s : State) :
    (s.qFinish).acc = s.acc := rfl

@[simp] theorem State.qFinish_enc (s : State) :
    (s.qFinish).enc = s.enc := rfl

@[simp] theorem State.qFinish_txFrame (s : State) :
    (s.qFinish).txFrame = s.txFrame := rfl

@[simp] theorem State.qFinish_rxp (s : State) :
    (s.qFinish).rxp = s.rxp := rfl

@[simp] theorem State.qFinish_pbuf (s : State) :
    (s.qFinish).pbuf = s.pbuf := rfl

@[simp] theorem State.qFinish_rdec (s : State) :
    (s.qFinish).rdec = s.rdec := rfl

@[simp] theorem State.qFinish_q (s : State) :
    (s.qFinish).q = { s.q with err := 0, state := .done } := rfl

@[simp] theorem State.qFinish_inbox (s : State) :
    (s.qFinish).inbox = s.inbox := rfl

@[simp] theorem State.qFinish_env (s : State) :
    (s.qFinish).env = s.env := rfl

@[simp] theorem State.qFinish_ret (s : State) :
    (s.qFinish).ret = s.ret := rfl

@[simp] theorem State.qPassOn_params (s : State) :
    (s.qPassOn).params = s.params := rfl

@[simp] theorem State.qPassOn_acc (s : State) :
    (s.qPassOn).acc = s.acc := rfl

@[simp] theorem State.qPassOn_enc (s : State) :
    (s.qPassOn).enc = s.enc := rfl

@[simp] theorem State.qPassOn_txFrame (s : State) :
    (s.qPassOn).txFrame = s.txFrame := rfl

@[simp] theorem State.qPassOn_rxp (s : State) :
    (s.qPassOn).rxp = s.rxp := rfl

@[simp] theorem State.qPassOn_pbuf (s : State) :
    (s.qPassOn).pbuf = s.pbuf := rfl

@[simp] theorem State.qPassOn_rdec (s : State) :
    (s.qPassOn).rdec = s.rdec := rfl

@[simp] theorem State.qPassOn_q (s : State) :
    (s.qPassOn).q = { s.q with err := s.rxp.err, state := .done } := rfl

@[simp] theorem State.qPassOn_inbox (s : State) :
    (s.qPassOn).inbox = s.inbox := rfl

@[simp] theorem State.qPassOn_env (s : State) :
    (s.qPassOn).env = s.env := rfl

@[simp] theorem State.qPassOn_ret (s : State) :
    (s.qPassOn).ret = s.ret := rfl

@[simp] theorem State.rstAll_params (s : State) :
    (s.rstAll).params = s.params := rfl

@[simp] theorem State.rstAll_acc (s : State) :
    (s.rstAll).acc = 0x00 := rfl

@[simp] theorem State.rstAll_enc (s : State) :
    (s.rstAll).enc = .reset := rfl

@[simp] theorem State.rstAll_txFrame (s : State) :
    (s.rstAll).txFrame = s.txFrame := rfl

@[simp] theorem State.rstAll_rxp (s : State) :
    (s.rstAll).rxp = .reset := rfl

@[simp] theorem State.rstAll_pbuf (s : State) :
    (s.rstAll).pbuf = s.pbuf := rfl

@[simp] theorem State.rstAll_rdec (s : State) :
    (s.rstAll).rdec = .reset := rfl

@[simp] theorem State.rstAll_q (s : State) :
    (s.rstAll).q = .reset := rfl

@[simp] theorem State.rstAll_inbox (s : State) :
    (s.rstAll).inbox = s.inbox := rfl

@[simp] theorem State.rstAll_env (s : State) :
    (s.rstAll).env = s.env := rfl

@[simp] theorem State.rstAll_ret (s : State) :
    (s.rstAll).ret = s.ret := rfl

@[simp] theorem State.qXferErr_params (s : State) :
    (s.qXferErr).params = s.params := by
  unfold State.qXferErr; split <;> rfl

@[simp] theorem State.qXferErr_acc (s : State) :
    (s.qXferErr).acc = s.acc := by
  unfold State.qXferErr; split <;> rfl

@[simp] theorem State.qXferErr_txFrame (s : State) :
    (s.qXferErr).txFrame = s.txFrame := by
  unfold State.qXferErr; split <;> rfl

@[simp] theorem State.qXferErr_pbuf (s : State) :
    (s.qXferErr).pbuf = s.pbuf := by
  unfold State.qXferErr; split <;> rfl

@[simp] theorem State.qXferErr_inbox (s : State) :
    (s.qXferErr).inbox = s.inbox := by
  unfold State.qXferErr; split <;> rfl

@[simp] theorem State.qXferErr_env (s : State) :
    (s.qXferErr).env = s.env := by
  unfold State.qXferErr; split <;> rfl

@[simp] theorem State.qXferErr_ret (s : State) :
    (s.qXferErr).ret = s.ret := by
  unfold State.qXferErr; split <;> rfl

@[simp] theorem State.qStart_params (s : State) (cmd : Cmd) (total randLen sigLen : Nat) :
    (s.qStart cmd total randLen sigLen).params = s.params := by
  unfold State.qStart; split
  · split <;> rfl
  · rfl

@[simp] theorem State.qStart_acc (s : State) (cmd : Cmd) (total randLen sigLen : Nat) :
    (s.qStart cmd total randLen sigLen).acc = s.acc := by
  unfold State.qStart; split
  · split <;> rfl
  · rfl

@[simp] theorem State.qStart_pbuf (s : State) (cmd : Cmd) (total randLen sigLen : Nat) :
    (s.qStart cmd total randLen sigLen).pbuf = s.pbuf := by
  unfold State.qStart; split
  · split <;> rfl
  · rfl

@[simp] theorem State.qStart_inbox (s : State) (cmd : Cmd) (total randLen sigLen : Nat) :
    (s.qStart cmd total randLen sigLen).inbox = s.inbox := by
  unfold State.qStart; split
  · split <;> rfl
  · rfl

@[simp] theorem State.qStart_env (s : State) (cmd : Cmd) (total randLen sigLen : Nat) :
    (s.qStart cmd total randLen sigLen).env = s.env := by
  unfold State.qStart; split
  · split <;> rfl
  · rfl

@[simp] theorem State.qStart_ret (s : State) (cmd : Cmd) (total randLen sigLen : Nat) :
    (s.qStart cmd total randLen sigLen).ret = s.ret := by
  unfold State.qStart; split
  · split <;> rfl
  · rfl

@[simp] theorem State.raise_params (s : State) (u : Raiser) (e : Err) :
    (s.raise u e).params = s.params := by
  cases u <;> first | rfl | (simp only [State.raise]; split <;> rfl)

@[simp] theorem State.raise_acc (s : State) (u : Raiser) (e : Err) :
    (s.raise u e).acc = s.acc := by
  cases u <;> first | rfl | (simp only [State.raise]; split <;> rfl)

@[simp] theorem State.raise_txFrame (s : State) (u : Raiser) (e : Err) :
    (s.raise u e).txFrame = s.txFrame := by
  cases u <;> first | rfl | (simp only [State.raise]; split <;> rfl)

@[simp] theorem State.raise_pbuf (s : State) (u : Raiser) (e : Err) :
    (s.raise u e).pbuf = s.pbuf := by
  cases u <;> first | rfl | (simp only [State.raise]; split <;> rfl)

@[simp] theorem State.raise_inbox (s : State) (u : Raiser) (e : Err) :
    (s.raise u e).inbox = s.inbox := by
  cases u <;> first | rfl | (simp only [State.raise]; split <;> rfl)

@[simp] theorem State.raise_env (s : State) (u : Raiser) (e : Err) :
    (s.raise u e).env = s.env := by
  cases u <;> first | rfl | (simp only [State.raise]; split <;> rfl)

@[simp] theorem State.raise_ret (s : State) (u : Raiser) (e : Err) :
    (s.raise u e).ret = s.ret := by
  cases u <;> first | rfl | (simp only [State.raise]; split <;> rfl)

end Sys2Proof.Machine
end

