-- ==== Sys2Proof/Laws/Ops.lean ====
section
/-! SUPPORT. What each shared operation can do, said once: if it answers a next state, then which. -/

namespace Sys2Proof.Machine

@[simp] theorem andThen_next (s : State) (k : State → Result) : andThen (.next s) k = k s := rfl

@[simp] theorem andThen_next_right (r : Result) : andThen r .next = r := by cases r <;> rfl

/-- A sequence answers a next state when both parts do. -/
theorem andThen_eq_next {r : Result} {k : State → Result} {t : State} :
    andThen r k = .next t ↔ ∃ s, r = .next s ∧ k s = .next t := by
  cases r <;> simp [andThen]

/-- Sequencing is associative. -/
theorem andThen_assoc (r : Result) (k l : State → Result) :
    andThen (andThen r k) l = andThen r (fun s => andThen (k s) l) := by
  cases r <;> rfl

/-- What is offered to a sub-block goes on only while no query runs. -/
theorem whenFree_eq_next {s t : State} {r : Result} :
    s.whenFree r = .next t ↔ s.queryRuns = false ∧ r = .next t := by
  unfold State.whenFree; split <;> simp_all

theorem whenFree_of_free {s : State} {r : Result} (h : s.queryRuns = false) : s.whenFree r = r := by
  simp [State.whenFree, h]

/-- A length offered goes on only when its port can express it. -/
theorem whenFits_eq_next {s t : State} {l : List Nat} {r : Result} :
    s.whenFits l r = .next t ↔ l.all s.params.fits = true ∧ r = .next t := by
  unfold State.whenFits; split <;> simp_all

theorem whenFits_of_all {s : State} {l : List Nat} {r : Result} (h : l.all s.params.fits = true) :
    s.whenFits l r = r := by
  simp [State.whenFits, h]

/-- A byte step writes RXP, and `pbuf` at the offset RXP stores to, an offset that exists. -/
theorem State.rxByte_eq_next {s t : State} {b : Byte} :
    s.rxByte b = .next t ↔
      (s.rxp.storeAt = none ∧ t = { s with rxp := s.rxp.byte b }) ∨
      (∃ a, s.rxp.storeAt = some a ∧ a < Config.pbufDepth ∧
        t = { s with rxp := s.rxp.byte b, pbuf := Memory.write s.pbuf a b }) := by
  unfold State.rxByte
  cases s.rxp.storeAt with
  | none => simp [@eq_comm State t]
  | some a =>
    dsimp only
    split
    · rename_i h
      refine ⟨fun e => .inr ⟨a, rfl, h, (Host.Outcome.next.inj e).symm⟩, ?_⟩
      rintro (⟨e, _⟩ | ⟨_, e, _, rfl⟩)
      · cases e
      · cases e; rfl
    · rename_i h
      refine ⟨fun e => (nomatch e), ?_⟩
      rintro (⟨e, _⟩ | ⟨_, e, h', _⟩)
      · cases e
      · cases e; exact absurd h' h

/-- A cursor step writes RDEC alone: nothing, an error, or the field of the cursor. -/
theorem State.rdByte_eq_next {s t : State} {b : Byte} :
    s.rdByte b = .next t ↔
      (s.rdec.state ≠ .run ∧ t = s) ∨
      (s.rdec.state = .run ∧ s.rdec.atEnd = true ∧ t = s.raise .rdec .truncated) ∨
      (∃ f, s.rdec.state = .run ∧ s.rdec.atEnd = false ∧ fieldAt s.rdec.cur.toNat = some f ∧
        t = { s with rdec := s.rdec.take f b }) := by
  unfold State.rdByte
  by_cases hr : s.rdec.state = .run
  · cases he : s.rdec.atEnd
    · cases hf : fieldAt s.rdec.cur.toNat <;> simp [hr, @eq_comm State t]
    · simp [hr, @eq_comm State t]
  · simp [hr, @eq_comm State t]

/-- A slot: nothing while no byte is offered, else ENC's emit, RXP's byte, the count, and the end after the last. -/
theorem State.qSlot_eq_next {s t : State} {arg : Option Byte} {rx : Byte} :
    s.qSlot arg rx = .next t ↔
      ((s.slotTx arg).isSome = false ∧ t = s) ∨
      ((s.slotTx arg).isSome = true ∧ ∃ u, (s.encEmit (s.composed arg)).rxByte rx = .next u ∧
        t = if s.q.slot + 1 = s.q.total then ({ u with q := u.q.counted } : State).rxEnd
          else { u with q := u.q.counted }) := by
  unfold State.qSlot
  cases hs : (s.slotTx arg).isSome
  · simp [@eq_comm State t]
  · simp [andThen_eq_next, @eq_comm State t]

/-- The post step outside `Q_POST` does nothing. -/
theorem State.qPost_outside {s : State} (h : s.q.state ≠ .post) : s.qPost = .next s := by
  simp [State.qPost, h]

/-- Bytes fed in two parts. -/
theorem State.feed_append (xs ys : List Byte) (s : State) :
    State.feed (xs ++ ys) s = andThen (State.feed xs s) (State.feed ys) := by
  induction xs generalizing s with
  | nil => rfl
  | cons x xs ih =>
    have h : State.feed (xs ++ ys) = fun s => andThen (State.feed xs s) (State.feed ys) := funext ih
    simp only [List.cons_append, State.feed, andThen_assoc, h]

/-- Bytes fed change RXP and the payload buffer alone. -/
theorem State.feed_frame {bs : List Byte} {s t : State} (h : State.feed bs s = .next t) :
    t = { s with rxp := t.rxp, pbuf := t.pbuf } := by
  induction bs generalizing s with
  | nil => cases h; rfl
  | cons b bs ih =>
    obtain ⟨u, hu, ht⟩ := andThen_eq_next.mp h
    have := ih ht
    rcases State.rxByte_eq_next.mp hu with ⟨_, rfl⟩ | ⟨_, _, _, rfl⟩ <;> simpa using this

/-- Cursor steps change RDEC alone. -/
theorem State.cursorSteps_frame {payload : List Byte} {n : Nat} {s t : State}
    (h : State.cursorSteps payload n s = .next t) : t = { s with rdec := t.rdec } := by
  induction n generalizing s with
  | zero => cases h; rfl
  | succ n ih =>
    obtain ⟨u, hu, ht⟩ := andThen_eq_next.mp h
    have := ih ht
    rcases State.rdByte_eq_next.mp hu with ⟨_, rfl⟩ | ⟨_, _, rfl⟩ | ⟨_, _, _, _, rfl⟩ <;>
      simpa [State.raise] using this

/-- Emits change ENC and the tx frame alone. -/
theorem State.emits_frame (body : List Byte) (n : Nat) (s : State) :
    State.emits body n s =
      { s with enc := (State.emits body n s).enc, txFrame := (State.emits body n s).txFrame } := by
  induction n generalizing s with
  | zero => rfl
  | succ n ih =>
    simp only [State.emits]
    rw [ih]
    rfl

/-- A slot changes ENC, the tx frame, RXP, the payload buffer and QSEQ alone. -/
theorem State.qSlot_frame {s t : State} {arg : Option Byte} {rx : Byte} (h : s.qSlot arg rx = .next t) :
    t = { s with enc := t.enc, txFrame := t.txFrame, rxp := t.rxp, pbuf := t.pbuf, q := t.q } := by
  rcases State.qSlot_eq_next.mp h with ⟨_, rfl⟩ | ⟨_, u, hu, rfl⟩
  · rfl
  · rcases State.rxByte_eq_next.mp hu with ⟨_, rfl⟩ | ⟨_, _, _, rfl⟩ <;> split <;> rfl

/-- A start of QSEQ changes ENC, the tx frame, RXP, RDEC and QSEQ alone. -/
theorem State.qStart_frame (s : State) (cmd : Cmd) (total randLen sigLen : Nat) :
    s.qStart cmd total randLen sigLen =
      { s with
        enc := (s.qStart cmd total randLen sigLen).enc
        txFrame := (s.qStart cmd total randLen sigLen).txFrame
        rxp := (s.qStart cmd total randLen sigLen).rxp
        rdec := (s.qStart cmd total randLen sigLen).rdec
        q := (s.qStart cmd total randLen sigLen).q } := by
  unfold State.qStart
  split
  · dsimp only; split <;> rfl
  · rfl

/-- A failed transfer changes ENC, RXP, RDEC and QSEQ alone. -/
theorem State.qXferErr_frame (s : State) :
    s.qXferErr = { s with enc := s.qXferErr.enc, rxp := s.qXferErr.rxp, rdec := s.qXferErr.rdec, q := s.qXferErr.q } := by
  unfold State.qXferErr
  split <;> rfl

/-- The slots of a transfer change ENC, the tx frame, RXP, the payload buffer, RDEC, QSEQ and the answers left alone. -/
theorem State.slots_frame {tx : List Byte} {answers : List Answer} {s t : State}
    (h : State.slots tx answers s = .next t) :
    t = { s with enc := t.enc, txFrame := t.txFrame, rxp := t.rxp, pbuf := t.pbuf, rdec := t.rdec, q := t.q
                 env := t.env } := by
  induction answers generalizing s with
  | nil => cases h; rfl
  | cons a answers ih =>
    unfold State.slots at h
    split at h
    · cases a with
      | xferErr => cases h; rw [State.qXferErr_frame s]
      | rx b =>
        dsimp only at h
        split at h
        · obtain ⟨u, hu, ht⟩ := andThen_eq_next.mp h
          have h1 := State.qSlot_frame hu
          have h2 := ih ht
          rw [h1] at h2
          exact h2
        · cases h; rfl
    · cases h; rfl

/-- A post step changes RDEC and QSEQ alone. -/
theorem State.qPost_frame {s t : State} (h : s.qPost = .next t) : t = { s with rdec := t.rdec, q := t.q } := by
  unfold State.qPost at h
  split at h
  · split at h
    · rcases State.rdByte_eq_next.mp h with ⟨_, rfl⟩ | ⟨_, _, rfl⟩ | ⟨_, _, _, _, rfl⟩ <;> rfl
    · cases h; rfl
    · cases h; rfl
    · split at h
      · cases h; rfl
      · split at h
        · cases h; rfl
        · cases h; rfl
        · cases h; rfl
        · split at h <;> cases h <;> rfl
  · cases h; rfl

/-- The post steps of a query change RDEC and QSEQ alone. -/
theorem State.posts_frame {n : Nat} {s t : State} (h : State.posts n s = .next t) :
    t = { s with rdec := t.rdec, q := t.q } := by
  induction n generalizing s with
  | zero => cases h; rfl
  | succ n ih =>
    unfold State.posts at h
    split at h
    · obtain ⟨u, hu, ht⟩ := andThen_eq_next.mp h
      have h1 := State.qPost_frame hu
      have h2 := ih ht
      rw [h1] at h2
      exact h2
    · cases h; rfl

/-- The cursors 0 to 81 name a field. -/
theorem fieldAt_isSome {c : Nat} (h : c < 82) : (fieldAt c).isSome = true := by
  unfold fieldAt
  repeat' split
  all_goals rfl

/-- Big-endian assembly of two bytes is their concatenation. -/
theorem be16_eq_append (a b : Byte) : be16 a b = a ++ b := by
  apply BitVec.eq_of_getLsbD_eq
  intro i hi
  rw [be16, BitVec.getLsbD_or, BitVec.getLsbD_append]
  by_cases h : i < 8
  · simp [h]; omega
  · have h8 : 8 ≤ i := by omega
    simp [h, hi, BitVec.getLsbD_of_ge b i h8]

/-- The lower byte replaced: the upper byte stays. -/
theorem setLow_eq_append (v : Half) (b : Byte) : setLow v b = upper v ++ b := by
  apply BitVec.eq_of_getLsbD_eq
  intro i hi
  have hm : (0xFF00 : Half).getLsbD i = decide (8 ≤ i) := by revert i; decide
  rw [setLow, upper, BitVec.getLsbD_or, BitVec.getLsbD_and, hm, BitVec.getLsbD_append]
  by_cases h : i < 8
  · have h8 : ¬ 8 ≤ i := by omega
    simp [h, h8, hi]
  · have h8 : 8 ≤ i := by omega
    have hi8 : i - 8 < 8 := by omega
    simp [h, h8, hi, hi8]

/-- The upper byte replaced: the lower byte stays. -/
theorem setHigh_eq_append (v : Half) (b : Byte) : setHigh v b = b ++ v.setWidth 8 := by
  apply BitVec.eq_of_getLsbD_eq
  intro i hi
  have hm : (0x00FF : Half).getLsbD i = decide (i < 8) := by revert i; decide
  rw [setHigh, BitVec.getLsbD_or, BitVec.getLsbD_and, hm, BitVec.getLsbD_append]
  by_cases h : i < 8
  · simp [h]
  · have hi8 : i - 8 < 8 := by omega
    simp [h, hi, hi8]

end Sys2Proof.Machine
end

