-- ==== Sys2Proof/Laws/PerInstr.lean ====
section
/-! SUPPORT. Families of facts proved instruction by instruction. `EncodeForm`: in which form the encoder offers an
instruction, by its row of the table (spec/30_encoding.md R51): a frame, port levels, or a call by name. -/

namespace Sys2Proof.Laws

/-- The forms of an offer. -/
inductive OfferForm where
  | wire
  | ports
  | call
deriving DecidableEq, Repr

/-- The form of an offer. -/
def formOf : Offer → OfferForm
  | .wire _ => .wire
  | .ports _ => .ports
  | .call _ => .call

/-- The form in which the table lets an instruction be offered: rows with `match` and `mask` are frames; rows whose `select` names a strobe are port levels; the others have neither. -/
def tableForm : Instr → OfferForm
  | .getMsCert _ | .getTermCert _ | .getInfo _ | .negotiate _ _ _ | .responseFrame _ => .wire
  | .xorfold _ | .checksum _ | .encode _ _ | .decode _ | .decodeInfo _ | .hex _ | .transfer _ _ | .query _ _ _ _ => .call
  | .rst | .csClear | .csAbsorb _ | .encStart _ _ | .encEmit _ | .rxStart | .rxByte _ _ | .rxEnd | .rdStart _
  | .rdByte _ | .qStart _ _ _ _ | .qSlot _ _ | .qXferErr => .ports
  | .qPost => .call

namespace EncodeForm

/-- A well-formed instruction is offered in the form of its row. -/
def Statement (i : Instr) : Prop :=
  WellFormed .reference i = true → formOf (encode i) = tableForm i

/-- A frame that fits is made. -/
theorem fixed_wire (cmd : Cmd) (rand sig : List Byte) (total : Nat) (i : Instr)
    (hi : encodeBytes i = (Machine.encodeFrame (Machine.bodyBytes cmd rand sig) total).toOption)
    (h : (Machine.bodyBytes cmd rand sig).length + 2 ≤ total) : formOf (encode i) = .wire := by
  have hn : ¬ total < (Machine.bodyBytes cmd rand sig).length + 2 := by omega
  simp [encode, hi, Machine.encodeFrame, hn, Except.toOption, formOf]

theorem getMsCert (total : Nat) : Statement (.getMsCert total) := by
  intro h
  simp only [WellFormed, frameFits, Bool.and_eq_true, decide_eq_true_eq] at h
  exact fixed_wire .getMsCert [] [] total _ rfl h.1

theorem getTermCert (total : Nat) : Statement (.getTermCert total) := by
  intro h
  simp only [WellFormed, frameFits, Bool.and_eq_true, decide_eq_true_eq] at h
  exact fixed_wire .getTermCert [] [] total _ rfl h.1

theorem getInfo (total : Nat) : Statement (.getInfo total) := by
  intro h
  simp only [WellFormed, frameFits, Bool.and_eq_true, decide_eq_true_eq] at h
  exact fixed_wire .getInfo [] [] total _ rfl h.1

theorem negotiate (total : Nat) (rand sig : List Byte) : Statement (.negotiate total rand sig) := by
  intro h
  refine fixed_wire .negotiate rand sig total _ rfl ?_
  simp only [WellFormed, frameFits, Bool.and_eq_true, decide_eq_true_eq] at h
  have := h.2.1
  simp only [Config.fixedBodyLen] at this
  simp only [Machine.bodyBytes, Machine.dataOf, Machine.header, List.length_append, List.length_cons,
    List.length_nil]
  omega

theorem responseFrame (rest : List Byte) : Statement (.responseFrame rest) := fun _ => rfl
theorem xorfold (bytes : List Byte) : Statement (.xorfold bytes) := fun _ => rfl
theorem checksum (bytes : List Byte) : Statement (.checksum bytes) := fun _ => rfl
theorem encode (body : List Byte) (total : Nat) : Statement (.encode body total) := fun _ => rfl
theorem decode (raw : List Byte) : Statement (.decode raw) := fun _ => rfl
theorem decodeInfo (payload : List Byte) : Statement (.decodeInfo payload) := fun _ => rfl
theorem hex (bytes : List Byte) : Statement (.hex bytes) := fun _ => rfl
theorem transfer (tx : List Byte) (length : Nat) : Statement (.transfer tx length) := fun _ => rfl
theorem query (cmd : Cmd) (total : Nat) (rand sig : List Byte) : Statement (.query cmd total rand sig) := fun _ => rfl
theorem rst : Statement .rst := fun _ => rfl
theorem csClear : Statement .csClear := fun _ => rfl
theorem csAbsorb (b : Byte) : Statement (.csAbsorb b) := fun _ => rfl
theorem encStart (bodyLen total : Nat) : Statement (.encStart bodyLen total) := fun _ => rfl
theorem encEmit (body : Option Byte) : Statement (.encEmit body) := fun _ => rfl
theorem rxStart : Statement .rxStart := fun _ => rfl
theorem rxByte (b : Byte) (atEnd : Bool) : Statement (.rxByte b atEnd) := fun _ => rfl
theorem rxEnd : Statement .rxEnd := fun _ => rfl
theorem rdStart (len : Half) : Statement (.rdStart len) := fun _ => rfl
theorem rdByte (b : Byte) : Statement (.rdByte b) := fun _ => rfl
theorem qStart (cmd : Cmd) (total randLen sigLen : Nat) : Statement (.qStart cmd total randLen sigLen) := fun _ => rfl
theorem qSlot (arg : Option Byte) (rx : Byte) : Statement (.qSlot arg rx) := fun _ => rfl
theorem qXferErr : Statement .qXferErr := fun _ => rfl
theorem qPost : Statement .qPost := fun _ => rfl

end EncodeForm

end Sys2Proof.Laws
end

