-- ==== Sys2Proof/Laws/Step.lean ====
section
/-! SUPPORT. What one step can do, said once, so that facts about every step are facts about one instruction and the
block's own post step. -/

namespace Sys2Proof.Machine

/-- The block's own event of a step that began in `Q_POST` is the post step. -/
theorem State.ownEvent_post {before s : State} {driven : Bool} (h : before.q.state = .post) :
    before.ownEvent driven s = s.qPost := by
  simp [State.ownEvent, h]

/-- The block's own event of a step that began elsewhere with RDEC running and its ports not driven is the cursor step. -/
theorem State.ownEvent_wired {before s : State} (h : before.q.state ≠ .post) (hr : before.rdec.state = .run) :
    before.ownEvent false s = s.rdByte before.wiredByte := by
  simp [State.ownEvent, h, hr]

/-- Otherwise the block has no event of its own. -/
theorem State.ownEvent_none {before s : State} {driven : Bool} (h : before.q.state ≠ .post)
    (hr : before.rdec.state ≠ .run ∨ driven = true) : before.ownEvent driven s = .next s := by
  rcases hr with hr | rfl <;> simp [State.ownEvent, *]

/-- The block's own event that answers a next state: a post step, a cursor step, or nothing. -/
theorem State.ownEvent_eq_next {before s t : State} {driven : Bool} (h : before.ownEvent driven s = .next t) :
    (before.q.state = .post ∧ s.qPost = .next t) ∨
    (before.q.state ≠ .post ∧ before.rdec.state = .run ∧ driven = false ∧ s.rdByte before.wiredByte = .next t) ∨
    (before.q.state ≠ .post ∧ (before.rdec.state ≠ .run ∨ driven = true) ∧ t = s) := by
  by_cases hp : before.q.state = .post
  · exact .inl ⟨hp, State.ownEvent_post hp ▸ h⟩
  · by_cases hr : before.rdec.state = .run
    · cases driven with
      | false => exact .inr (.inl ⟨hp, hr, rfl, State.ownEvent_wired hp hr ▸ h⟩)
      | true =>
        rw [State.ownEvent_none hp (.inr rfl)] at h
        exact .inr (.inr ⟨hp, .inr rfl, (Host.Outcome.next.inj h).symm⟩)
    · rw [State.ownEvent_none hp (.inl hr)] at h
      exact .inr (.inr ⟨hp, .inl hr, (Host.Outcome.next.inj h).symm⟩)

/-- The block's own event changes RDEC and QSEQ alone. -/
theorem State.ownEvent_frame {before s t : State} {driven : Bool} (h : before.ownEvent driven s = .next t) :
    t = { s with rdec := t.rdec, q := t.q } := by
  rcases State.ownEvent_eq_next h with ⟨_, h⟩ | ⟨_, _, _, h⟩ | ⟨_, _, rfl⟩
  · exact State.qPost_frame h
  · rcases State.rdByte_eq_next.mp h with ⟨_, rfl⟩ | ⟨_, _, rfl⟩ | ⟨_, _, _, _, rfl⟩ <;> rfl
  · rfl

/-- A step that answers a next state: nothing offered, no strobe high, `q_post` by name, or one instruction; then the
block's own event. -/
theorem step_eq_next {s t : State} (h : step s = .next t) :
    (s.inbox = [] ∧ s.ownEvent false s = .next t) ∨
    ∃ o rest, s.inbox = o :: rest ∧
      ((decode s.params s.view o = .idle ∧ s.ownEvent o.drivesRdec { s with inbox := rest } = .next t) ∨
       (decode s.params s.view o = .event .qPost ∧ s.ownEvent false { s with inbox := rest } = .next t) ∨
       ∃ i u, decode s.params s.view o = .event i ∧ i ≠ .qPost ∧ exec i { s with inbox := rest } = .next u ∧
         s.ownEvent o.drivesRdec u = .next t) := by
  unfold step at h
  split at h
  · exact .inl ⟨by assumption, h⟩
  · rename_i o rest hin
    refine .inr ⟨o, rest, hin, ?_⟩
    split at h
    · exact .inr (.inl ⟨by assumption, h⟩)
    · rename_i i hi hd
      obtain ⟨u, hu, ht⟩ := andThen_eq_next.mp h
      exact .inr (.inr ⟨i, u, hd, hi, hu, ht⟩)
    · exact .inl ⟨by assumption, h⟩
    · cases h

end Sys2Proof.Machine
end

