-- ==== Sys2Proof/Tests/Slice0.lean ====
section
/-! SUPPORT. Our own tests: ill-formed terms that WellFormed refuses, words written out from the spec's encodings that
decode as they should, vectors of spec/95_test_vectors.md (each names its vector), and a witness for the hypotheses of
every statement. -/

namespace Sys2Proof.Tests

open Machine

/-- The next state of an outcome. -/
def nextOf (r : Result) : Option State :=
  match r with
  | .next s => some s
  | .fault _ => none
  | .refused _ => none

/-- One field of the next state. -/
def after {α : Type} (r : Result) (f : State → α) : Option α := (nextOf r).map f

/-- Ports of two bits, the narrowest that R8 admits. -/
def narrow : Params := { lenW := 2, randLen := 32 }

/-- The 32 bytes `00 01 ... 1F`. -/
def rand32 : List Byte := (List.range 32).map (BitVec.ofNat 8)

/-- The sample `S` of V4. -/
def sampleS : List Byte :=
  [0x01, 0x02, 0x03, 0x04, 0x05, 0x06, 0x07, 0x08, 0x10, 0x20, 0x30, 0x40, 0xA0, 0xA1, 0xA2, 0xA3,
   0xA4, 0xA5, 0xA6, 0xA7, 0xA8, 0xA9, 0xAA, 0xAB, 0xAC, 0xAD, 0xAE, 0xAF, 0x03, 0x07, 0x00, 0x00,
   0x01, 0x00, 0x00, 0x00, 0x00, 0xC8, 0x00, 0x00, 0x00, 0x2A, 0x00, 0x01, 0x00, 0x00, 0xFF, 0xFF] ++
  [0xFF, 0xFE, 0xB0, 0xB1, 0xB2, 0xB3, 0xB4, 0xB5, 0xB6, 0xB7, 0xB8, 0xB9, 0xBA, 0xBB, 0xBC, 0xBD,
   0xBE, 0xBF, 0xC0, 0xC1, 0xC2, 0xC3, 0xC4, 0xC5, 0xC6, 0xC7, 0xC8, 0xC9, 0xCA, 0xCB, 0xCC, 0xCD,
   0xCE, 0xCF]

/-- Right after reset, with the environment's answers. -/
def withEnv (env : List Answer) : State := { State.reset with env := env }

/-- Right after reset but for ENC, in the middle of a frame of 6 body bytes. -/
def encAt (st : EncState) (idx total : Nat) : State :=
  { State.reset with enc := { Enc.reset with state := st, idx := idx, bodyLen := 6, total := total } }

/-- Right after reset but for RXP's state. -/
def rxAt (st : RxState) : State := { State.reset with rxp := { Rxp.reset with state := st } }

/-- Right after reset but for RDEC's state, cursor and length. -/
def rdAt (st : RdState) (cur : BitVec 7) (len : Half) : State :=
  { State.reset with rdec := { Rdec.reset with state := st, cur := cur, len := len } }

/-- Right after reset but for QSEQ's state. -/
def qAt (st : QState) : State := { State.reset with q := { Qseq.reset with state := st } }

/-- Right after the accepted start of a fixed command with 8 slots. -/
def inXfer : State := State.reset.qStart .getMsCert 8 0 0

/-- Before the first argument byte of a NEGOTIATE of 54 slots. -/
def holding : State :=
  { State.reset.qStart .negotiate 54 32 0 with
    enc := { state := .body, idx := 7, bodyLen := 38, total := 54, acc := 0xA2, err := 0, done := false } }

/-! ### WellFormed refuses -/

theorem test_wf_fixed_frame_too_short : WellFormed .reference (.getMsCert 7) = false ∧
    WellFormed .reference (.getTermCert 7) = false ∧ WellFormed .reference (.getInfo 7) = false := by decide

theorem test_wf_fixed_total_not_expressible : WellFormed .reference (.getMsCert 131072) = false ∧
    WellFormed .reference (.getTermCert 131072) = false ∧ WellFormed .reference (.getInfo 131072) = false := by decide

theorem test_wf_negotiate_random_length : WellFormed .reference (.negotiate 72 (rand32.drop 1) []) = false := by decide

theorem test_wf_negotiate_data_over_prefix :
    WellFormed .reference (.negotiate 70000 rand32 (List.replicate 65504 0x00)) = false := by
  rw [WellFormed, List.length_replicate]
  decide

theorem test_wf_negotiate_frame_too_short :
    WellFormed .reference (.negotiate 43 rand32 [0xA1, 0xA2, 0xA3, 0xA4]) = false := by decide

theorem test_wf_negotiate_total_not_expressible :
    WellFormed .reference (.negotiate 131072 rand32 [0xA1, 0xA2, 0xA3, 0xA4]) = false := by decide

theorem test_wf_encode_lengths : WellFormed narrow (.encode [0x00, 0x00, 0x00, 0x00] 0) = false ∧
    WellFormed narrow (.encode [] 4) = false := by decide

theorem test_wf_decodeInfo_length : WellFormed .reference (.decodeInfo (List.replicate 65536 0x00)) = false := by
  rw [WellFormed, List.length_replicate]
  decide

theorem test_wf_transfer_length : WellFormed narrow (.transfer [] 4) = false := by decide

theorem test_wf_query_lengths : WellFormed narrow (.query .getMsCert 4 [] []) = false ∧
    WellFormed narrow (.query .getMsCert 0 [0x00, 0x00, 0x00, 0x00] []) = false ∧
    WellFormed narrow (.query .getMsCert 0 [] [0x00, 0x00, 0x00, 0x00]) = false := by decide

theorem test_wf_start_lengths : WellFormed narrow (.encStart 4 0) = false ∧ WellFormed narrow (.encStart 0 4) = false ∧
    WellFormed narrow (.qStart .getInfo 4 0 0) = false ∧ WellFormed narrow (.qStart .getInfo 0 4 0) = false ∧
    WellFormed narrow (.qStart .getInfo 0 0 4) = false := by decide

/-! ### Decoding: words written out from the encodings -/

/-- R50 and R44: the fixed commands, the first two with padding, and the response frame of R45. -/
theorem test_decode_fixed_frames :
    decodeFrame .reference [0x55, 0x80, 0x36, 0x00, 0x0C, 0x00, 0x00, 0x45, 0x00] = .ok (.getMsCert 9) ∧
    decodeFrame .reference [0x55, 0x80, 0x36, 0x00, 0x0B, 0x00, 0x00, 0x42, 0x00, 0x00] = .ok (.getTermCert 10) ∧
    decodeFrame .reference [0x55, 0x80, 0x36, 0x00, 0xFF, 0x00, 0x00, 0xB6] = .ok (.getInfo 8) ∧
    decodeFrame .reference [0x55, 0x90, 0x00, 0x00, 0x01, 0x6F, 0x01] =
      .ok (.responseFrame [0x00, 0x01, 0x6F, 0x01]) := ⟨rfl, rfl, rfl, rfl⟩

/-- R92, the example; V5: checksum 5D; one pad byte. -/
theorem test_decode_negotiate_frame :
    decodeFrame .reference ([0x55, 0x80, 0x02, 0x00, 0x00, 0x00, 0x24] ++ rand32 ++ [0xA1, 0xA2, 0xA3, 0xA4] ++
      [0x5D, 0x00]) = .ok (.negotiate 45 rand32 [0xA1, 0xA2, 0xA3, 0xA4]) := rfl

/-- R44, R46, R92: what is no frame is refused by name. -/
theorem test_decode_refuses :
    decodeFrame .reference [0x55, 0x80, 0x36, 0x00, 0x0C, 0x00, 0x00, 0x44] = .error .noRow ∧
    decodeFrame .reference [0x55, 0x80, 0x36, 0x00, 0x0C, 0x00, 0x00, 0x45, 0x01] = .error .padNotZero ∧
    decodeFrame .reference [0x55, 0x80, 0x02, 0x00, 0x00, 0x00, 0x24, 0x00] = .error .frameCut ∧
    decodeFrame .reference [0x55, 0x80, 0x02, 0x00, 0x00, 0x00, 0x00, 0x7D] = .error .dataTooShort ∧
    decodeFrame .reference ([0x55, 0x80, 0x02, 0x00, 0x00, 0x00, 0x20] ++ rand32 ++ [0x5E]) =
      .error .checksumWrong ∧
    decodeFrame narrow [0x55, 0x80, 0x36, 0x00, 0x0C, 0x00, 0x00, 0x45] = .error .lengthNotExpressible :=
  ⟨rfl, rfl, rfl, rfl, rfl, rfl⟩

/-- The levels that the table's `select` entries name; `rst` with everything else high. -/
theorem test_decode_port_levels (v : View) :
    decode .reference v (.ports ⟨true, .qseq true 0 16 0 0 true 0x11 true 0x22 true⟩) = .event .rst ∧
    decodeUnit v (.csg true true 0x77) = .event .csClear ∧
    decodeUnit v (.csg false true 0x80) = .event (.csAbsorb 0x80) ∧
    decodeUnit v (.enc true 6 9 false 0x00 false) = .event (.encStart 6 9) ∧
    decodeUnit v (.enc false 0 0 true 0x80 true) = .event (.encEmit (some 0x80)) ∧
    decodeUnit v (.rxp true true 0x55 true) = .event .rxStart ∧
    decodeUnit v (.rxp false true 0x55 true) = .event (.rxByte 0x55 true) ∧
    decodeUnit v (.rxp false false 0x55 true) = .event .rxEnd ∧
    decodeUnit v (.rdec true 82 true 0x01) = .event (.rdStart 82) ∧
    decodeUnit v (.rdec false 82 true 0x01) = .event (.rdByte 0x01) ∧
    decodeUnit v (.qseq true 3 44 32 4 false 0x00 false 0x00 false) = .event (.qStart .negotiate 44 32 4) ∧
    decodeUnit v (.qseq false 0 0 0 0 true 0xA1 true 0xFF false) = .event (.qSlot (some 0xA1) 0xFF) ∧
    decodeUnit v (.qseq false 0 0 0 0 true 0xA1 true 0xFF true) = .event .qXferErr := by
  cases v with | mk e q => cases e <;> cases q <;> decide

/-- R57: operations without an encoding are issued by name. -/
theorem test_decode_calls (v : View) :
    [Instr.xorfold [0x01], .checksum [0x01], .encode [0x01] 3, .decode [0x55], .decodeInfo [0x01], .hex [0x01],
      .transfer [0x01] 1, .query .getInfo 8 [] [], .qPost].map (fun i => decode .reference v (encode i)) =
    [Instr.xorfold [0x01], .checksum [0x01], .encode [0x01] 3, .decode [0x55], .decodeInfo [0x01], .hex [0x01],
      .transfer [0x01] 1, .query .getInfo 8 [] [], .qPost].map Decoded.event := rfl

/-! ### Vectors of spec/95_test_vectors.md, and examples of the rules -/

/-- R58, the example. -/
theorem test_xorfold : after (exec (.xorfold [0x80, 0x36, 0x00, 0x0C, 0x00, 0x00]) .reset) State.ret =
    some (.value (.byte 0xBA)) := by decide

/-- P8 and V1. -/
theorem test_checksum : after (exec (.checksum [0x90, 0x00, 0x00, 0x02, 0xAB, 0xCD]) .reset)
    (fun t => (t.ret, t.acc)) = some (.value (.byte 0x0B), 0xF4) := by decide

/-- R82, the second example. -/
theorem test_hex : after (exec (.hex [0xAB, 0x0C]) .reset) State.ret =
    some (.value (.text ['a', 'b', '0', 'c'])) := by decide

/-- V2: the last byte is the checksum `00`, not padding. -/
theorem test_encode : after (exec (.encode [0xFF] 3) .reset) (fun t => (t.ret, t.txFrame, t.enc.idx, t.enc.done)) =
    some (.value (.bytes [0x55, 0xFF, 0x00]), [0x55, 0xFF, 0x00], 3, true) := by decide

/-- V2, row 5. -/
theorem test_encode_rejected : after (exec (.encode [0x80, 0x36, 0x00, 0xFF, 0x00, 0x00] 7) .reset)
    (fun t => (t.ret, t.txFrame, t.enc)) = some (.error .invalidLength, [],
      { state := .idle, idx := 0, bodyLen := 6, total := 7, acc := 0x00, err := 5, done := true }) := by decide

/-- V3 and P8. -/
theorem test_decode : after (exec (.decode [0x00, 0x00, 0xFF, 0x55, 0x90, 0x00, 0x00, 0x02, 0xAB, 0xCD, 0x0B, 0x00])
    .reset) (fun t => (t.ret, t.rxp.state, t.rxp.acc, t.rxp.cs, t.rxp.length)) =
    some (.value (.bytes [0xAB, 0xCD]), .ok, 0xF4, 0x0B, 2) := by decide

/-- V3: a false marker directly before a good frame. -/
theorem test_decode_false_marker : after (exec (.decode [0x55, 0x55, 0x90, 0x00, 0x00, 0x00, 0x6F]) .reset)
    (fun t => (t.ret, t.rxp.state, t.rxp.err, t.rxp.status)) =
    some (.error (.statusError 0x5590), .fail, 2, 0x5590) := by decide

/-- V3: `55 90 00 00 00 6E`. -/
theorem test_responseFrame : after (exec (.responseFrame [0x00, 0x00, 0x6E]) .reset)
    (fun t => (t.ret, csOut t.rxp.acc, t.rxp.cs)) = some (.error .checksumMismatch, 0x6F, 0x6E) := by decide

/-- V4. -/
theorem test_decodeInfo : after (exec (.decodeInfo sampleS) .reset)
    (fun t => (t.outRecord.esamSerial, t.outRecord.termCertVersion, t.outRecord.agseq, t.outRecord.msCertSerial,
      t.rdec.cur)) =
    some (0x0102030405060708, 0x07, 0xFFFFFFFE, 0xC0C1C2C3C4C5C6C7C8C9CACBCCCDCECF, 82) := by decide +kernel

/-- V4: 81 bytes. -/
theorem test_decodeInfo_short : after (exec (.decodeInfo (sampleS.take 81)) .reset)
    (fun t => (t.ret, t.rdec.state, t.rdec.err, t.rdec.cur, t.outRecord)) =
    some (.error .truncated, .fail, 3, 81, InfoRegs.zero) := by decide +kernel

/-- R89, the example. -/
theorem test_getMsCert : after (exec (.getMsCert 16) (withEnv ([0x00, 0x00, 0x00, 0x00, 0x00, 0x00, 0x00, 0x00,
      0x55, 0x90, 0x00, 0x00, 0x02, 0x30, 0x82, 0xDF].map Answer.rx)))
    (fun t => (t.ret, t.q.err, t.q.slot, t.env)) = some (.value (.bytes [0x30, 0x82]), 0, 16, []) := by decide +kernel

/-- P6. -/
theorem test_getMsCert_xfer_err : after (exec (.getMsCert 16)
      (withEnv [.rx 0xFF, .rx 0xFF, .rx 0xFF, .xferErr])) (fun t => (t.ret, t.txFrame, t.q.slot, t.enc, t.rxp)) =
    some (.error .transportError, [0x55, 0x80, 0x36], 3, Enc.reset, Rxp.reset) := by decide +kernel

/-- P2. -/
theorem test_getTermCert : after (exec (.getTermCert 12) (withEnv ([0xFF, 0xFF, 0xFF, 0xFF, 0xFF, 0xFF, 0xFF, 0xFF,
      0x55, 0x6A, 0x86, 0x00].map Answer.rx)))
    (fun t => (t.ret, t.q.err, t.rxp.acc, t.enc.acc, t.txFrame)) = some (.error (.statusError 0x6A86), 2, 0xEC, 0xBD,
      [0x55, 0x80, 0x36, 0x00, 0x0B, 0x00, 0x00, 0x42, 0x00, 0x00, 0x00, 0x00]) := by decide +kernel

/-- P1. -/
theorem test_getInfo : after (exec (.getInfo 100) (withEnv (([0xFF, 0xFF, 0xFF, 0xFF, 0xFF, 0xFF, 0xFF, 0xFF, 0x00, 0x00,
      0x55, 0x90, 0x00, 0x00, 0x52] ++ sampleS ++ [0x92, 0x00, 0x00]).map Answer.rx)))
    (fun t => (t.q.state, t.q.err, t.rxp.acc, t.rdec.state, t.outRecord.asctr, t.outRecord.sessionTimeLimit)) =
    some (.done, 0, 0x6D, .ok, 42, 256) := by decide +kernel

/-- V5: `total_len` 8 and eight bytes `FF`. -/
theorem test_query : after (exec (.query .getInfo 8 [] []) (withEnv (List.replicate 8 (.rx 0xFF))))
    (fun t => (t.ret, t.txFrame)) =
    some (.error .syncNotFound, [0x55, 0x80, 0x36, 0x00, 0xFF, 0x00, 0x00, 0xB6]) := by decide +kernel

/-- V5: the least frame of the example, whose transfer is never answered after the argument bytes. -/
theorem test_negotiate : after (exec (.negotiate 44 rand32 [0xA1, 0xA2, 0xA3, 0xA4])
      (withEnv (List.replicate 43 (.rx 0x00)))) (fun t => (t.ret, t.q.state, t.q.slot, t.txFrame)) =
    some (.nothing, .xfer, 43, [0x55, 0x80, 0x02, 0x00, 0x00, 0x00, 0x24] ++ rand32 ++ [0xA1, 0xA2, 0xA3, 0xA4]) := by
  decide +kernel

/-- V5: a random value of 48 bytes is rejected at the reference parameters. -/
theorem test_negotiate_rejected : after (exec (.negotiate 72 (List.replicate 48 0x00) []) .reset)
    (fun t => (t.ret, t.q.state, t.q.err, t.txFrame)) = some (.error .invalidLength, .done, 5, []) := by decide +kernel

/-- R87: two slots of a transfer outside a query. -/
theorem test_transfer : after (exec (.transfer [0x55] 2) (withEnv [.rx 0x01, .rx 0x02, .rx 0x03]))
    (fun t => (t.ret, t.env)) = some (.value (.bytes [0x01, 0x02]), [.rx 0x03]) := by decide

/-- V1, the machine trace: the third row; the last row. -/
theorem test_cs_events : after (exec (.csAbsorb 0x36) { State.reset with acc := 0x80 }) (fun t => csOut t.acc) =
      some 0x49 ∧
    after (exec .csClear { State.reset with acc := 0x49 }) (fun t => csOut t.acc) = some 0xFF := by decide

/-- V2: `enc_start(6, 9)`. -/
theorem test_encStart : after (exec (.encStart 6 9) .reset) (fun t => (t.enc.state, t.enc.total)) =
    some (.sync, 9) := by decide

/-- R66: the last body byte, and the last byte of a frame. -/
theorem test_encEmit : after (exec (.encEmit (some 0x00)) (encAt .body 6 9)) (fun t => (t.enc.state, t.enc.idx)) =
      some (.csum, 7) ∧
    after (exec (.encEmit none) (encAt .csum 7 8)) (fun t => (t.enc.state, t.enc.done, t.txFrame)) =
      some (.idle, true, [0xFF]) := by decide

/-- V3, the machine trace: the second status byte; the payload byte. -/
theorem test_rxByte : after (exec (.rxByte 0x00 false) { rxAt .stLo with
      rxp := { Rxp.reset with state := .stLo, status := 0x9000, acc := 0x90 } }) (fun t => (t.rxp.state, t.rxp.acc)) =
      some (.lenHi, 0x90) ∧
    after (exec (.rxByte 0x6F false) { rxAt .payload with
      rxp := { Rxp.reset with state := .payload, status := 0x9000, length := 1, acc := 0x91 } })
      (fun t => (t.rxp.state, t.rxp.acc, t.rxp.cnt, Memory.read t.pbuf 0)) = some (.csum, 0xFE, 1, some 0x6F) := by decide

/-- R77: a byte and the end in one step; R75: a fresh parse. -/
theorem test_rxEnd_rxStart : after (exec (.rxByte 0x55 true) (rxAt .hunt)) (fun t => (t.rxp.state, t.rxp.err)) =
      some (.fail, 3) ∧
    after (exec .rxEnd (rxAt .hunt)) (fun t => (t.rxp.state, t.rxp.err)) = some (.fail, 1) ∧
    after (exec .rxStart (rxAt .fail)) (fun t => t.rxp.state) = some .hunt := by decide

/-- R84, the example: the third byte of the session time limit; R83. -/
theorem test_rdByte : after (exec (.rdByte 0x01) (rdAt .run 32 82)) (fun t => (t.outRecord.sessionTimeLimit,
      t.rdec.fields.sessionTimeLimit, t.rdec.cur)) = some (0, 1, 33) ∧
    after (exec (.rdStart 81) (rdAt .ok 82 82)) (fun t => (t.rdec.state, t.rdec.len, t.rdec.cur)) =
      some (.run, 81, 0) := by decide

/-- V5: the acceptance table, two rows of NEGOTIATE. -/
theorem test_qStart : after (exec (.qStart .negotiate 70000 32 65503) .reset) (fun t => (t.q.state, t.enc.bodyLen)) =
      some (.xfer, 65541) ∧
    after (exec (.qStart .negotiate 70000 32 65504) .reset) (fun t => (t.q.state, t.q.err, t.enc.state)) =
      some (.done, 5, .idle) := by decide

/-- P2, slot 0; R95: no slot while an argument byte is missing. -/
theorem test_qSlot : after (exec (.qSlot none 0xFF) inXfer) (fun t => (t.txFrame, t.q.slot, t.rxp.state)) =
      some ([0x55], 1, .hunt) ∧
    after (exec (.qSlot none 0xFF) { State.reset.qStart .negotiate 44 32 4 with
      enc := { Enc.reset with state := .body, idx := 7, bodyLen := 42, total := 44 } }) (fun t => (t.enc.idx, t.q.slot)) =
      some (7, 0) := by decide

/-- R97; R118. -/
theorem test_qXferErr_rst : after (exec .qXferErr inXfer) (fun t => (t.q.state, t.q.err, t.enc)) =
      some (.done, 6, Enc.reset) ∧
    after (exec .rst inXfer) (fun t => (t.q, t.enc, t.rxp)) = some (Qseq.reset, Enc.reset, Rxp.reset) := by decide

/-- R98, the example, and the reply of 47 bytes. -/
theorem test_qPost : after (exec .qPost { State.reset with
      q := { Qseq.reset with state := .post, cmd := .negotiate }
      rxp := { Rxp.reset with state := .ok, length := 52 } }) (fun t => (t.q.state, t.q.err, t.qSigOutLen)) =
      some (.done, 0, 4) ∧
    after (exec .qPost { State.reset with
      q := { Qseq.reset with state := .post, cmd := .negotiate }
      rxp := { Rxp.reset with state := .ok, length := 47 } }) (fun t => (t.q.state, t.q.err, t.qSigOutLen)) =
      some (.done, 3, 0) := by decide

/-- A word of the table placed where the next step takes it runs as the first instruction after reset (R91). -/
theorem test_step_runs_fetched_word : after (step (State.reset.withFetchWord 64 0x55803600FF0000B6))
    (fun t => (t.q.state, t.q.cmd, t.q.total, t.inbox)) = some (.xfer, .getInfo, 8, []) := by decide +kernel

/-- R94, U4: a start offered in `Q_POST` is ignored and not queued; the post step is taken; the next step is free. -/
theorem test_start_in_post_is_not_queued : after (step { qAt .post with
      inbox := [.ports ⟨false, .qseq true 2 8 0 0 false 0 false 0 false⟩, .ports ⟨false, .csg true false 0⟩] })
    (fun t => (t.q, t.inbox)) =
    some ({ Qseq.reset with state := .done }, [.ports ⟨false, .csg true false 0⟩]) := by decide

/-- R118: a reset offered in `Q_POST` wins over the post step. -/
theorem test_rst_in_post : after (step { qAt .post with inbox := [.call .rst] }) (fun t => (t.q, t.inbox)) =
    some (Qseq.reset, []) := by decide

/-- R24, R84: after a requester's rd_start the block's wiring reads the payload by itself, beside another sub-block's event,
and fails at its end; low levels on RDEC's ports hold it. -/
theorem test_rdec_wiring :
    after (step { State.reset with
      rxp := { Rxp.reset with state := .ok, length := 1, cnt := 1 }, pbuf := [(0, 0x6F)], rdec := Rdec.started 1
      inbox := [.ports ⟨false, .csg false true 0x80⟩] }) (fun t => (t.rdec.fields.esamSerial, t.rdec.cur, t.acc)) =
      some (0x6F, 1, 0x80) ∧
    after (step (rdAt .run 1 1)) (fun t => (t.rdec.state, t.rdec.err)) = some (.fail, 3) ∧
    after (step { rdAt .run 1 1 with inbox := [.ports ⟨false, .rdec false 0 false 0⟩] })
      (fun t => (t.rdec.state, t.rdec.cur)) = some (.run, 1) := by decide

/-! ### Witnesses: states and operands that meet the hypotheses of the statements -/

/-- After the good frame `55 90 00 00 01 6F 01` of V3. -/
def parsed : State :=
  { State.reset with
    rxp := { state := .ok, status := 0x9000, length := 1, cnt := 1, acc := 0xFE, cs := 0x01, err := 0 }
    pbuf := [(0, 0x6F)] }

/-- Before the last of the 8 slots of GET_MS_CERT, with no reply yet. -/
def lastSlot : State :=
  { State.reset with
    enc := { state := .csum, idx := 7, bodyLen := 6, total := 8, acc := 0xBA, err := 0, done := false }
    txFrame := [0x55, 0x80, 0x36, 0x00, 0x0C, 0x00, 0x00]
    rxp := Rxp.started
    q := { Qseq.reset with state := .xfer, total := 8, slot := 7 } }

/-- The invariant is not empty: it holds after a good parse. -/
theorem test_parsed_inv : parsed.Inv where
  params := rfl
  memory := rfl
  enc := {
    widths := by decide, codes := .inl rfl, busy := fun h => absurd rfl h, atSync := nofun, atBody := nofun
    atCsum := nofun, atPad := nofun, sent := fun h => absurd rfl h, finished := nofun }
  rxp := {
    codes := .inl ⟨nofun, rfl⟩, counted := by decide, beforeStatus := by decide, atStLo := nofun, atLenHi := nofun
    written := fun a h => by
      have h0 : a = 0 := by have : a < 1 := h; omega
      subst h0; rfl
    atLenLo := nofun, atPayload := nofun, atCsum := nofun, atOk := fun _ => ⟨rfl, rfl, by decide, by decide⟩
    afterSyncNotFound := nofun, afterStatusError := nofun, afterTruncated := nofun, afterMismatch := nofun }
  rdec := { atIdle := fun _ => rfl, atRun := nofun, atOk := nofun, atFail := nofun }
  query := {
    codes := by decide, widths := by decide, argsOfNegotiate := fun _ => ⟨rfl, rfl⟩, atIdle := fun _ => rfl
    atXfer := nofun, atPost := nofun }

/-- And in the middle of a query. -/
theorem test_lastSlot_inv : lastSlot.Inv where
  params := rfl
  memory := rfl
  enc := {
    widths := by decide, codes := .inl rfl, busy := fun _ => by decide, atSync := nofun, atBody := nofun
    atCsum := fun _ => rfl, atPad := nofun
    sent := fun _ => ⟨bodyBytes .getMsCert [] [], _, rfl, rfl, rfl, rfl⟩, finished := nofun }
  rxp := {
    codes := .inl ⟨nofun, rfl⟩, counted := by decide, written := nofun, beforeStatus := fun _ => by decide
    atStLo := nofun, atLenHi := nofun, atLenLo := nofun, atPayload := nofun, atCsum := nofun, atOk := nofun
    afterSyncNotFound := nofun, afterStatusError := nofun, afterTruncated := nofun, afterMismatch := nofun }
  rdec := { atIdle := fun _ => rfl, atRun := nofun, atOk := nofun, atFail := nofun }
  query := {
    codes := by decide, widths := by decide, argsOfNegotiate := fun _ => ⟨rfl, rfl⟩, atIdle := nofun
    atXfer := fun _ => by decide, atPost := nofun }

theorem test_lastSlot_inStep : lastSlot.InStep := fun _ => by decide

/-- RstWinsOverEverything, in `Q_POST`, a start offered too. -/
theorem test_witness_rst : ({ qAt .post with inbox := [.ports ⟨true, .rxp true true 0x55 true⟩] } : State).inbox =
    .ports { rst := true, unit := .rxp true true 0x55 true } :: [] := rfl

/-- ChecksumLaws: the first and the last place of a list. -/
theorem test_witness_checksum_laws : [0x01, 0x02].Perm ([0x02, 0x01] : List Byte) ∧ 0 < ([0x01, 0x02] : List Byte).length ∧
    1 < ([0x01, 0x02] : List Byte).length ∧ (0x03 : Byte) ≠ 0x02 := ⟨.swap _ _ _, by decide⟩

/-- EncodedFrameProperties, EncodeOperationRuns, EncoderLevelsAgree, AdapterSendsTheFrameUnchanged: a frame that fits
exactly, and one byte less; a `tx` of the transfer's length, where the clauses meet. -/
theorem test_witness_encode : encodeFrame [0xFF] 3 = .ok [0x55, 0xFF, 0x00] ∧
    encodeFrame [0xFF] 2 = .error .invalidLength ∧ State.reset.free ∧ State.reset.enc.state = .idle ∧
    State.reset.params.fits 1 = true ∧ State.reset.params.fits 3 = true ∧ State.reset.params.fits 131071 = true ∧
    ([0x55] : List Byte).length ≤ 1 ∧ 1 ≤ ([0x55] : List Byte).length :=
  ⟨rfl, rfl, rfl, rfl, rfl, rfl, rfl, by decide, by decide⟩

/-- EncStartAcceptsOrRejects, StartsWhileBusyAreIgnored: idle and busy, the boundary lengths of its clauses. -/
theorem test_witness_encStart : State.reset.free ∧ State.reset.enc.state = .idle ∧ 6 + 2 > 7 ∧ 6 + 2 ≤ 8 ∧
    (encAt .sync 0 8).free ∧ (encAt .sync 0 8).enc.state ≠ .idle ∧ (encAt .sync 0 8).params.fits 8 = true :=
  ⟨rfl, rfl, by decide, by decide, rfl, by decide, rfl⟩

/-- EncEmitByState: each state. -/
theorem test_witness_encEmit : [EncState.sync, .body, .csum, .pad, .idle].all (fun st =>
    !(encAt st 7 8).queryRuns && decide ((encAt st 7 8).enc.state = st)) = true := by decide

/-- RxStartBeginsAFreshParse, RxByteByState, RxEndByState: each state, the last offset of `pbuf`, and a byte step. -/
theorem test_witness_rxp : [RxState.idle, .hunt, .stHi, .stLo, .lenHi, .lenLo, .payload, .csum, .ok, .fail].all (fun st =>
    !(rxAt st).queryRuns && decide ((rxAt st).rxp.state = st)) = true ∧ (65534 : Half).toNat < 65535 ∧
    ∃ t, exec (.rxByte 0x55 false) (rxAt .hunt) = .next t := ⟨by decide, by decide, _, rfl⟩

/-- RxByteStoresAtTheCount: a byte that is stored, and one that is not. -/
theorem test_witness_rxByte_stores : (∃ t, exec (.rxByte 0x6F true) (rxAt .payload) = .next t) ∧
    (rxAt .payload).rxp.storeAt = some 0 ∧ (∃ t, exec (.rxByte 0x6F true) (rxAt .csum) = .next t) ∧
    (rxAt .csum).rxp.storeAt ≠ some 0 := ⟨⟨_, rfl⟩, rfl, ⟨_, rfl⟩, by decide⟩

/-- ReadsPastTheEndAreTruncated, ParseCommitsToTheFirstMarker. -/
theorem test_witness_filler : (0x55 : Byte) ∉ ([0x54] : List Byte) ∧ ([0x90] : List Byte).length < 2 ∧
    ([0x6F] : List Byte).length ≤ ((0x00 : Byte) ++ (0x01 : Byte) : Half).toNat ∧
    ((0x90 : Byte) ++ (0x01 : Byte) : Half) ≠ 0x9000 := by decide

/-- DecodeProperties: its clauses in order. -/
theorem test_witness_decode_properties : ([] : List Byte).length ≤ 65535 ∧ (0x55 : Byte) ∉ ([] : List Byte) ∧
    decodeResponse [0x55, 0x6A, 0x86] = .error (.statusError 0x6A86) ∧ (0x9001 : Half) ≠ 0x9000 ∧
    decodeResponse [0x55, 0x90, 0x00, 0x00, 0x00, 0x6F] = .ok [] ∧
    encodeFrame [0x80, 0x36] 4 = .ok [0x55, 0x80, 0x36, 0x49] ∧
    (∃ body, compose .reference .getInfo [] [] = .ok body ∧ ∃ f, encodeFrame body 8 = .ok f) :=
  ⟨by decide, by decide, rfl, by decide, rfl, rfl, _, rfl, _, rfl⟩

/-- ChangedByteOutcomes: filler, sync, status, length, payload, checksum, trailing byte, each changed. -/
theorem test_witness_changed_byte : (List.range 10).all (fun k =>
    let raw := [0x00] ++ respFrame 0x9000 [0x6F] ++ [0x00, 0x00]
    decide (raw[k]? ≠ some (if k = 1 then 0x56 else 0x55)) && decide (k < raw.length)) = true := by
  decide

/-- ParserLevelsAgree, DecodeOperationsRun, OldBufferContentIsUnobservable. -/
theorem test_witness_parser : State.reset.free ∧
    (∃ t, runAll (.rxStart :: [0x55, 0x6A, 0x86].map (fun b => .rxByte b false)) .reset = .next t) ∧
    (rxAt .ok).free ∧ (rxAt .ok).rxp.state = .ok ∧
    (∃ t, exec (.decode [0x55, 0x6A]) .reset = .next t) ∧
    (∃ t, exec (.decode [0x55, 0x6A]) { State.reset with pbuf := [(0, 0x01)] } = .next t) :=
  ⟨rfl, ⟨_, rfl⟩, rfl, rfl, ⟨_, rfl⟩, ⟨_, rfl⟩⟩

/-- PayloadIsGated: the first offset, and the first one past the payload. -/
theorem test_witness_payload : parsed.Inv ∧ parsed.rxp.state = .ok ∧ (0 : Half) < parsed.rxp.length ∧
    parsed.rxp.length ≤ (1 : Half) ∧ State.reset.rxp.state ≠ .ok := ⟨test_parsed_inv, rfl, by decide, by decide, nofun⟩

/-- RdStartClearsTheRecord, RdByteByState: not running, at the end, at the last offset. -/
theorem test_witness_rdec : (rdAt .ok 82 82).free ∧ (rdAt .ok 82 82).rdec.state ≠ .run ∧
    (rdAt .run 81 81).rdec.len.toNat ≤ (rdAt .run 81 81).rdec.cur.toNat ∧ (rdAt .run 81 82).free ∧
    (rdAt .run 81 82).rdec.state = .run ∧ (rdAt .run 81 82).rdec.cur.toNat < (rdAt .run 81 82).rdec.len.toNat ∧
    fieldAt (rdAt .run 81 82).rdec.cur.toNat = some .msCertSerial :=
  ⟨rfl, by decide, by decide, rfl, rfl, by decide, rfl⟩

/-- CompleteRecordIsImmutable. -/
theorem test_witness_record : (rdAt .ok 82 82).rdec.state = .ok ∧
    ∃ t, exec (.rdByte 0x01) (rdAt .ok 82 82) = .next t := ⟨rfl, _, rfl⟩

/-- InfoRecordFields, RecordLevelsAgree, DecodeInfoOperationRuns: 82 bytes and 81, 65535 and 65536. -/
theorem test_witness_record_lengths : 82 ≤ sampleS.length ∧ (sampleS.take 81).length < 82 ∧
    sampleS.length ≤ 65535 ∧ State.reset.free ∧ (∃ r, decodeInfo sampleS = .ok r) ∧
    decodeInfo (sampleS.take 81) = .error .truncated ∧ 65535 < (List.replicate 65536 (0x00 : Byte)).length :=
  ⟨by decide, by decide, by decide, rfl, ⟨_, rfl⟩, rfl, by rw [List.length_replicate]; decide⟩

/-- ComposedCommands, ComposerOffersTheBody: the first data byte. -/
theorem test_witness_compose : 8 ≤ 8 ∧ (rand32.drop 1).length ≠ Params.reference.randLen ∧
    rand32.length = Params.reference.randLen ∧ rand32.length + [].length (α := Byte) ≤ 65535 ∧
    rand32.length + (List.replicate 65504 (0x00 : Byte)).length > 65535 ∧
    ∃ body, compose .reference .negotiate rand32 [] = .ok body ∧ 6 < body.length :=
  ⟨by decide, by decide, rfl, by decide, by rw [List.length_replicate]; decide, _, rfl, by decide⟩

/-- ComposerOffersTheBody: the hold at the first argument byte, and the last offset before it. -/
theorem test_witness_hold : holding.q.state = .xfer ∧ holding.q.cmd = .negotiate ∧ holding.enc.state = .body ∧
    7 ≤ holding.enc.idx ∧ (⟨none, true, 0, none, true, false⟩ : PortInputs).arg = none ∧ 6 ≤ 6 ∧ 5 < 6 := by decide

/-- NegotiateReplySplitsAt48: 47 bytes and 48; a record and none. -/
theorem test_witness_split : (List.replicate 47 (0x00 : Byte)).length < 48 ∧
    48 ≤ (List.replicate 48 (0x00 : Byte)).length ∧ (∃ r, decodeInfo sampleS = .ok r) ∧
    decodeInfo (sampleS.take 81) = .error .truncated := ⟨by decide, by decide, ⟨_, rfl⟩, rfl⟩

/-- QStartAcceptsOrRejects, SlotCountIsTheEncoderIndex: while a query runs; rejected by one; accepted, ENC idle and busy;
a whole query that is answered nothing. -/
theorem test_witness_qStart : (∃ t, exec (.getMsCert 8) .reset = .next t) ∧ State.reset.params.fits 44 = true ∧ State.reset.params.fits 32 = true ∧
    (qAt .post).q.state = .post ∧ State.reset.q.state = .idle ∧ 6 + (32 + 4) + 2 > 43 ∧
    ¬ (32 ≠ State.reset.params.randLen ∨ 32 + 4 > 65535 ∨ 6 + (32 + 4) + 2 > 44) ∧ State.reset.enc.state = .idle ∧
    (encAt .pad 7 9).q.state = .idle ∧ (encAt .pad 7 9).enc.state ≠ .idle ∧
    State.reset.q.state ≠ .xfer ∧ ∃ t, exec (.qStart .negotiate 44 32 4) .reset = .next t :=
  ⟨⟨_, rfl⟩, rfl, rfl, rfl, rfl, by decide, by decide, rfl, rfl, by decide, by decide, _, rfl⟩

/-- QSlotExchangesOneByteEachWay, SlotCountIsTheEncoderIndex, TransferKeepsItsContract: outside a transfer, no byte
offered, the last slot. -/
theorem test_witness_qSlot : State.reset.q.state ≠ .xfer ∧ (encAt .body 7 9).slotTx none = none ∧
    lastSlot.slotTx none = some 0x45 ∧ lastSlot.rxp.state ≠ .payload ∧ lastSlot.Inv ∧ lastSlot.InStep ∧
    lastSlot.q.state = .xfer ∧ (∃ t, exec (.qSlot none 0x55) lastSlot = .next t) ∧
    (∃ t, step lastSlot = .next t) ∧ lastSlot.q.total - lastSlot.q.slot ≤ 1 ∧ lastSlot.enc.bodyLen < (bodyBytes .getMsCert [] [] ++ [0x45]).length ∧
    duplexTransfer 1 [.rx 0x55] = some (.ok [0x55], []) ∧
    duplexTransfer 1 [.xferErr] = some (.error .transportError, []) ∧ duplexTransfer 1 [] = none :=
  ⟨by decide, by decide, rfl, by decide, test_lastSlot_inv, test_lastSlot_inStep, rfl, ⟨_, rfl⟩, ⟨_, rfl⟩, by decide,
    by decide, rfl, rfl, rfl⟩

/-- XferErrEndsTheQuery. -/
theorem test_witness_xferErr : inXfer.q.state = .xfer ∧ State.reset.q.state ≠ .xfer := by decide

/-- QPostByState: each branch, with the cursor at the end and at the last offset. -/
theorem test_witness_qPost : (qAt .done).q.state ≠ .post ∧ (qAt .post).q.state = .post ∧
    (qAt .post).rdec.state = .idle ∧ (qAt .post).rxp.state ≠ .fail ∧ (qAt .post).q.cmd = .getMsCert ∧
    (rdAt .run 81 81).rdec.state = .run ∧ (rdAt .run 81 81).rdec.len.toNat ≤ (rdAt .run 81 81).rdec.cur.toNat ∧
    (rdAt .run 81 82).rdec.cur.toNat < (rdAt .run 81 82).rdec.len.toNat ∧ fieldAt 81 = some .msCertSerial ∧
    (rdAt .ok 82 82).rdec.state = .ok ∧ (rdAt .fail 81 81).rdec.state = .fail ∧ (rxAt .fail).rxp.state = .fail := by
  decide

/-- QueryLevelsAgree, QueriesAndTransfersNeverStop, LoopBackFails: a query that is answered whole, one that is not, one that is rejected. -/
theorem test_witness_query : queryOf (.getMsCert 8) = some (.getMsCert, 8, [], []) ∧ State.reset.qReady = true ∧
    State.reset.enc.state = .idle ∧ State.reset.params.fits 8 = true ∧ State.reset.params.fits 0 = true ∧
    query .reference .getMsCert 8 [] [] [] = none ∧
    query .reference .getMsCert 8 [] [] (List.replicate 8 (.rx 0xFF)) = some (.error .syncNotFound) ∧
    query .reference .getMsCert 7 [] [] [] = some (.error .invalidLength) ∧
    (∃ u, State.feed [0x55] State.reset.rxStart = .next u) ∧ (∃ u, State.feed [0x55] lastSlot = .next u) ∧
    ∃ body f, compose .reference .getMsCert [] [] = .ok body ∧ encodeFrame body 8 = .ok f :=
  ⟨rfl, rfl, rfl, rfl, rfl, rfl, rfl, rfl, ⟨_, rfl⟩, ⟨_, rfl⟩, _, _, rfl, rfl⟩

/-- QueryLevelsAgree: a value of each kind; a rejected start; fewer answers than slots, and all, with a step in `Q_POST`
after which the query is still there: the counts of R98 at their boundary. -/
theorem test_witness_queryRun : query .reference .getMsCert 8 [] [] ((respFrame 0x9000 [0x6F] ++ [0]).map .rx) =
      some (.ok (.bytes [0x6F])) ∧
    (∃ r, query .reference .getInfo 88 [] [] ((respFrame 0x9000 sampleS).map .rx) = some (.ok (.record r))) ∧
    query .reference .negotiate 54 rand32 [] ((respFrame 0x9000 (zeros 48)).map .rx) =
      some (.ok (.session (zeros 48) [])) ∧
    (compose .reference .getMsCert [] []).bind (fun body => encodeFrame body 7) = .error .invalidLength ∧
    ([] : List Byte).length < 8 ∧ (respFrame 0x9000 [0x6F]).length < 8 ∧ 0 < postCount .getMsCert (zeros 8) ∧
    postCount .getInfo (respFrame 0x9000 (zeros 81)) = 84 ∧ postCount .getInfo (respFrame 0x9000 (zeros 82)) = 84 ∧
    postCount .getInfo (respFrame 0x9000 [0x6F]) = 4 ∧ 83 < postCount .getInfo (respFrame 0x9000 (zeros 82)) :=
  ⟨rfl, ⟨_, rfl⟩, rfl, rfl, by decide, by decide, by decide, rfl, rfl, rfl, by decide⟩

/-- TxAndRxAreIndependent. -/
theorem test_witness_independent : (∃ t, exec (.qSlot none 0x00) lastSlot = .next t) ∧
    (∃ t, exec (.qSlot none 0x55) lastSlot = .next t) ∧ (lastSlot.slotTx none).isSome = true ∧
    (({ lastSlot with enc := { lastSlot.enc with acc := 0x00 }, txFrame := [] } : State).slotTx none).isSome = true ∧
    ∃ t, exec (.qSlot none 0x00) { lastSlot with enc := { lastSlot.enc with acc := 0x00 }, txFrame := [] } = .next t :=
  ⟨⟨_, rfl⟩, ⟨_, rfl⟩, rfl, rfl, _, rfl⟩

/-- RaiseLeavesTheDetail. -/
theorem test_witness_raise : Err.invalidLength ≠ .transportError := by decide

/-- StartsWhileBusyAreIgnored (a query), UnitsBelongToTheRunningQuery. -/
theorem test_witness_running : inXfer.q.state = .xfer ∧ (qAt .post).q.state = .post ∧
    queryOf (.getInfo 8) = some (.getInfo, 8, [], []) ∧ inXfer.params.fits 8 = true ∧ inXfer.params.fits 0 = true :=
  ⟨rfl, rfl, rfl, rfl, rfl⟩

/-- LengthsThatDoNotFitAreRefused: the first length that does not fit. -/
theorem test_witness_not_expressible : State.reset.free ∧ State.reset.enc.state = .idle ∧
    State.reset.params.fits 131072 = false ∧ State.reset.params.fits 131071 = true ∧
    queryOf (.getInfo 131072) = some (.getInfo, 131072, [], []) := ⟨rfl, rfl, rfl, rfl, rfl⟩

/-- TableRowsDoNotOverlap. -/
theorem test_witness_rows : rowPattern .negotiate <+: [0x55, 0x80, 0x02, 0x00, 0x00, 0x00] := by decide

/-- DecodeOfEncodeIsIdentity, DecodedFramesAreEncodings: the least transfer length and the greatest. -/
theorem test_witness_roundtrip : WellFormed .reference (.getMsCert 8) = true ∧
    WellFormed .reference (.getMsCert 131071) = true ∧
    WellFormed .reference (.negotiate 44 rand32 [0xA1, 0xA2, 0xA3, 0xA4]) = true ∧
    decodeFrame .reference [0x55, 0x80, 0x36, 0x00, 0xFF, 0x00, 0x00, 0xB6] = .ok (.getInfo 8) :=
  ⟨rfl, rfl, rfl, rfl⟩

/-- StepRunsTheDecodedInstruction, StepWithoutAnInstruction, StartsWhileBusyAreIgnored: an event, the reset event and a start in
`Q_POST`, no strobe, bytes that are no frame. -/
theorem test_witness_step : decode .reference State.reset.view (.ports ⟨false, .rxp true false 0 false⟩) = .event .rxStart ∧
    State.reset.q.state ≠ .post ∧
    (qAt .post).q.state = .post ∧ Instr.rst ≠ .qPost ∧
    decode .reference (qAt .post).view (.ports ⟨false, .qseq true 0 8 0 0 false 0 false 0 false⟩) =
      .event (.qStart .getMsCert 8 0 0) ∧
    decode .reference (qAt .post).view (.call .rst) = .event .rst ∧ State.reset.inbox = [] ∧
    decode .reference State.reset.view (.ports ⟨false, .rxp false false 0 false⟩) = .idle ∧
    decode .reference State.reset.view (.wire []) = .rejected .noRow ∧
    State.reset.rdec.state ≠ .run ∧ (rdAt .run 0 1).rdec.state = .run ∧ (rdAt .run 0 1).q.state ≠ .post ∧
    Offer.drivesRdec (.ports ⟨false, .rdec false 0 false 0⟩) = true ∧
    Offer.drivesRdec (.ports ⟨false, .rxp false false 0 false⟩) = false ∧
    decodeFrame State.reset.params (tableBytes 24 0x559000) = .ok (.responseFrame [0, 0, 0, 0, 0]) :=
  ⟨rfl, by decide, rfl, by decide, rfl, rfl, rfl, rfl, rfl, by decide, rfl, by decide, rfl, rfl, rfl⟩

/-- OutputPortsInEveryState: the difference at its boundary, from both sides. -/
theorem test_witness_sigOutLen : (48 : Half) ≤ 48 ∧ (47 : Half) < 48 ∧ (qAt .done).q.state = .done ∧
    (qAt .done).q.err = 0 ∧ Cmd.negotiate = .negotiate := by decide

/-- PortLevelsSelectEvents: both values of each output it reads, the least selector and the greatest. -/
theorem test_witness_views : State.reset.view = ⟨true, true⟩ ∧ inXfer.view = ⟨false, false⟩ ∧
    ((0 : BitVec 2), Cmd.getMsCert) ∈ [((0 : BitVec 2), Cmd.getMsCert), (1, .getTermCert), (2, .getInfo), (3, .negotiate)] ∧
    ((3 : BitVec 2), Cmd.negotiate) ∈ [((0 : BitVec 2), Cmd.getMsCert), (1, .getTermCert), (2, .getInfo), (3, .negotiate)] := by decide

/-- InvariantHoldsAtReset: both lengths of the random value, the least width. -/
theorem test_witness_admissible : Params.admissible ⟨2, 32⟩ = true ∧ Params.admissible ⟨17, 48⟩ = true ∧
    Params.admissible ⟨1, 32⟩ = false ∧ Params.admissible ⟨17, 33⟩ = false := by decide

/-- EveryStepKeepsTheInvariant, NoAccessGoesOutOfBounds: a step in the middle of a query. -/
theorem test_witness_step_keeps : lastSlot.Inv ∧ ∃ t, step lastSlot = .next t := ⟨test_lastSlot_inv, _, rfl⟩

end Sys2Proof.Tests
end

section
/-! PROOFS. Lengths that a `LEN_W`-bit port cannot express (spec/93_implementation_defined.md U8). -/

namespace Sys2Proof.Machine

/-- One length that does not fit is enough to refuse the offer. -/
theorem whenFits_of_mem {s : State} {l : List Nat} {n : Nat} (r : Result) (hn : n ∈ l)
    (h : s.params.fits n = false) : s.whenFits l r = .refused .lengthNotExpressible := by
  have hall : l.all s.params.fits = false := List.all_eq_false.mpr ⟨n, hn, by simp [h]⟩
  simp [State.whenFits, hall]

/-- The two lengths of ENC's ports. -/
theorem whenFits_pair {s : State} {a b : Nat} (r : Result)
    (h : s.params.fits a = false ∨ s.params.fits b = false) :
    s.whenFits [a, b] r = .refused .lengthNotExpressible := by
  rcases h with h | h <;> exact whenFits_of_mem r (by simp) h

/-- The three lengths of QSEQ's ports. -/
theorem whenFits_triple {s : State} {a b c : Nat} (r : Result)
    (h : s.params.fits a = false ∨ s.params.fits b = false ∨ s.params.fits c = false) :
    s.whenFits [a, b, c] r = .refused .lengthNotExpressible := by
  rcases h with h | h | h <;> exact whenFits_of_mem r (by simp) h

/-- The four commands and QUERY are whole queries (R88 to R92). -/
theorem exec_of_queryOf {i : Instr} {cmd : Cmd} {total : Nat} {rand sig : List Byte} (s : State)
    (h : queryOf i = some (cmd, total, rand, sig)) : exec i s = s.wholeQuery cmd total rand sig := by
  cases i <;> cases h <;> rfl

/-- enc_start while no query runs is its check of the two lengths, then ENC's start. -/
theorem exec_encStart_of_free {s : State} (bodyLen total : Nat) (h : s.free) :
    exec (.encStart bodyLen total) s = s.whenFits [bodyLen, total] (.next (s.encStart bodyLen total)) :=
  whenFree_of_free h

/-- ENCODE at an idle ENC: with lengths that do not fit, the value alone (log 8). -/
theorem exec_encode_of_not_fits {s : State} {body : List Byte} {total : Nat} (hfree : s.free)
    (hidle : s.enc.state = .idle) (h : s.params.fits body.length = false ∨ s.params.fits total = false) :
    exec (.encode body total) s = .next { s with ret := replyOf ((encodeFrame body total).map Value.bytes) } := by
  have hready : s.encReady = true := by simp [State.encReady, hidle]
  have hfits : (s.params.fits body.length && s.params.fits total) = false := by
    rwa [Bool.and_eq_false_iff]
  have hrun : exec (.encode body total) s = execEncode body total s := rfl
  rw [hrun, execEncode, whenFree_of_free hfree]
  simp [hready, hfits, -Bool.and_eq_true]

/-- Settles O51: every offer on a `LEN_W`-bit port goes through the one check `State.whenFits`; ENCODE has its own branch. -/
theorem lengthsThatDoNotFitAreRefused : Obligations.LengthsThatDoNotFitAreRefused := by
  refine ⟨?encStart, ?qStart, ?query, ?encode⟩
  case encStart =>
    intro bodyLen total s hfree h
    rw [exec_encStart_of_free bodyLen total hfree]
    exact whenFits_pair _ h
  case qStart =>
    intro cmd total randLen sigLen s h
    exact whenFits_triple _ h
  case query =>
    intro i cmd total rand sig s hi h
    rw [exec_of_queryOf s hi]
    exact whenFits_triple _ h
  case encode =>
    intro body total s hfree hidle h
    exact exec_encode_of_not_fits hfree hidle h

end Sys2Proof.Machine
end

section
/-! PROOFS. Facts about the two halves of a 16-bit register, about the fold, and about what the payload buffer stores,
in the terms of the registers' invariants. -/

namespace Sys2Proof.Machine

/-! ### The two bytes of a 16-bit register (spec/30_encoding.md R48, spec/42_frame_parser.md R76) -/

/-- The upper byte of two bytes put together is the first. -/
@[simp] theorem upper_append (a b : Byte) : upper (a ++ b) = a := by
  apply BitVec.eq_of_getLsbD_eq
  intro i hi
  rw [upper, BitVec.getLsbD_setWidth, BitVec.getLsbD_ushiftRight, BitVec.getLsbD_append]
  simp [hi]

/-- The lower byte of two bytes put together is the second. -/
@[simp] theorem setWidth_append_low (a b : Byte) : (a ++ b : Half).setWidth 8 = b := by
  apply BitVec.eq_of_getLsbD_eq
  intro i hi
  rw [BitVec.getLsbD_setWidth, BitVec.getLsbD_append]
  simp [hi]

@[simp] theorem upper_setHigh (v : Half) (b : Byte) : upper (setHigh v b) = b := by
  rw [setHigh_eq_append, upper_append]

@[simp] theorem setWidth_setHigh (v : Half) (b : Byte) : (setHigh v b).setWidth 8 = v.setWidth 8 := by
  rw [setHigh_eq_append, setWidth_append_low]

@[simp] theorem upper_setLow (v : Half) (b : Byte) : upper (setLow v b) = upper v := by
  rw [setLow_eq_append, upper_append]

@[simp] theorem setWidth_setLow (v : Half) (b : Byte) : (setLow v b).setWidth 8 = b := by
  rw [setLow_eq_append, setWidth_append_low]

/-- The value that a low byte completes is the one the step tests (R76). -/
theorem be16_upper (v : Half) (b : Byte) : be16 (upper v) b = setLow v b := by
  rw [be16_eq_append, setLow_eq_append]

/-! ### The fold (spec/40_checksum.md R58, R61) -/

/-- A byte behind the others is absorbed last. -/
theorem xorFold_concat (bs : List Byte) (b : Byte) : xorFold (bs ++ [b]) = csgAbsorb (xorFold bs) b := by
  simp [xorFold, csgAbsorb]

/-- `cs_out` over a fold is the checksum of the bytes folded (R59). -/
@[simp] theorem csOut_xorFold (bs : List Byte) : csOut (xorFold bs) = checksum bs := rfl

/-! ### What the payload buffer stores -/

@[simp] theorem stored_zero (m : Memory) : stored m 0 = [] := rfl

/-- A write at the first offset past what is stored extends it by the byte. -/
theorem stored_write (m : Memory) (n : Nat) (b : Byte) :
    stored (Memory.write m n b) (n + 1) = stored m n ++ [b] := by
  have hbelow : (List.range n).map (pbufByte (Memory.write m n b)) = stored m n := by
    apply List.map_congr_left
    intro a ha
    have hne : a ≠ n := (List.mem_range.mp ha).ne
    simp [pbufByte, Memory.read_write_other m b hne]
  have hat : pbufByte (Memory.write m n b) n = b := by simp [pbufByte]
  simp [stored, List.range_succ] at hbelow ⊢
  exact ⟨hbelow, hat⟩

/-- A byte written stays readable behind another write. -/
theorem Memory.isSome_read_write {m : Memory} {a n : Nat} {b : Byte} (h : (Memory.read m a).isSome ∨ a = n) :
    (Memory.read (Memory.write m n b) a).isSome := by
  by_cases ha : a = n
  · simp [ha]
  · rw [Memory.read_write_other m b ha]
    exact h.resolve_right ha

end Sys2Proof.Machine
end

section
/-! PROOFS. RXP: one equation per state for its byte and its end (spec/42_frame_parser.md R76, R77), what one byte step
does to the payload buffer, and that both keep RXP's invariant. -/

namespace Sys2Proof.Machine

/-! ### Where a byte is stored (R18) -/

@[simp] theorem Rxp.storeAt_eq_none {r : Rxp} : r.storeAt = none ↔ r.state ≠ .payload := by
  simp [Rxp.storeAt]

@[simp] theorem Rxp.storeAt_eq_some {r : Rxp} {a : Nat} :
    r.storeAt = some a ↔ r.state = .payload ∧ r.cnt.toNat = a := by
  simp [Rxp.storeAt]

/-! ### The byte step by state (R76) -/

/-- RXP waits for no byte: before a start, and after a verdict. -/
def Rxp.Resting (r : Rxp) : Prop := r.state = .idle ∨ r.state = .ok ∨ r.state = .fail

theorem Rxp.byte_of_resting {r : Rxp} (h : r.Resting) (b : Byte) : r.byte b = r := by
  rcases h with h | h | h <;> simp [Rxp.byte, h]

theorem Rxp.byte_of_hunt {r : Rxp} (h : r.state = .hunt) (b : Byte) :
    r.byte b = if b = Config.sync then { r with acc := csgClear, state := .stHi } else r := by
  simp [Rxp.byte, h]

theorem Rxp.byte_of_stHi {r : Rxp} (h : r.state = .stHi) (b : Byte) :
    r.byte b = { r with status := setHigh r.status b, acc := csgAbsorb r.acc b, state := .stLo } := by
  simp [Rxp.byte, h]

theorem Rxp.byte_of_stLo {r : Rxp} (h : r.state = .stLo) (b : Byte) :
    r.byte b =
      if setLow r.status b = Config.statusOk then
        { r with status := setLow r.status b, acc := csgAbsorb r.acc b, state := .lenHi }
      else
        ({ r with status := setLow r.status b, acc := csgAbsorb r.acc b } : Rxp).raise
          (.statusError (setLow r.status b)) := by
  simp [Rxp.byte, h, be16_upper]

theorem Rxp.byte_of_lenHi {r : Rxp} (h : r.state = .lenHi) (b : Byte) :
    r.byte b = { r with length := setHigh r.length b, acc := csgAbsorb r.acc b, state := .lenLo } := by
  simp [Rxp.byte, h]

theorem Rxp.byte_of_lenLo {r : Rxp} (h : r.state = .lenLo) (b : Byte) :
    r.byte b =
      { r with
        length := setLow r.length b, acc := csgAbsorb r.acc b, cnt := 0
        state := if setLow r.length b = 0 then .csum else .payload } := by
  simp [Rxp.byte, h, be16_upper]

theorem Rxp.byte_of_payload {r : Rxp} (h : r.state = .payload) (b : Byte) :
    r.byte b =
      { r with acc := csgAbsorb r.acc b, cnt := r.cnt + 1, state := if r.cnt + 1 = r.length then .csum else .payload } := by
  simp [Rxp.byte, h]

theorem Rxp.byte_of_csum {r : Rxp} (h : r.state = .csum) (b : Byte) :
    r.byte b = if b = csOut r.acc then { r with cs := b, state := .ok }
      else ({ r with cs := b } : Rxp).raise .checksumMismatch := by
  simp [Rxp.byte, h]

/-- The count after a byte: one more in `R_PAYLOAD`; elsewhere it is kept, or cleared. -/
theorem Rxp.byte_cnt (r : Rxp) (b : Byte) :
    (r.state = .payload ∧ (r.byte b).cnt = r.cnt + 1) ∨
      (r.state ≠ .payload ∧ ((r.byte b).cnt = r.cnt ∨ (r.byte b).cnt = 0)) := by
  cases h : r.state
  case idle => simp [Rxp.byte_of_resting (.inl h)]
  case hunt => rw [Rxp.byte_of_hunt h]; split <;> simp
  case stHi => simp [Rxp.byte_of_stHi h]
  case stLo => rw [Rxp.byte_of_stLo h]; split <;> simp [Rxp.raise]
  case lenHi => simp [Rxp.byte_of_lenHi h]
  case lenLo => simp [Rxp.byte_of_lenLo h]
  case payload => simp [Rxp.byte_of_payload h]
  case csum => rw [Rxp.byte_of_csum h]; split <;> simp [Rxp.raise]
  case ok => simp [Rxp.byte_of_resting (.inr (.inl h))]
  case fail => simp [Rxp.byte_of_resting (.inr (.inr h))]

/-- A byte never takes RXP back to `R_IDLE`. -/
theorem Rxp.byte_state_ne_idle {r : Rxp} (h : r.state ≠ .idle) (b : Byte) : (r.byte b).state ≠ .idle := by
  cases hs : r.state
  case idle => exact absurd hs h
  case hunt => rw [Rxp.byte_of_hunt hs]; split <;> simp [hs]
  case stHi => simp [Rxp.byte_of_stHi hs]
  case stLo => rw [Rxp.byte_of_stLo hs]; split <;> simp [Rxp.raise]
  case lenHi => simp [Rxp.byte_of_lenHi hs]
  case lenLo => rw [Rxp.byte_of_lenLo hs]; dsimp only; split <;> simp
  case payload => rw [Rxp.byte_of_payload hs]; dsimp only; split <;> simp
  case csum => rw [Rxp.byte_of_csum hs]; split <;> simp [Rxp.raise]
  case ok => rwa [Rxp.byte_of_resting (.inr (.inl hs))]
  case fail => rwa [Rxp.byte_of_resting (.inr (.inr hs))]

/-! ### The end by state (R77) -/

theorem Rxp.finish_of_resting {r : Rxp} (h : r.Resting) : r.finish = r := by
  rcases h with h | h | h <;> simp [Rxp.finish, h]

theorem Rxp.finish_of_hunt {r : Rxp} (h : r.state = .hunt) : r.finish = r.raise .syncNotFound := by
  simp [Rxp.finish, h]

/-- Once the marker is found, an end before the verdict is `Truncated`. -/
theorem Rxp.finish_of_open {r : Rxp} (hrest : ¬ r.Resting) (hhunt : r.state ≠ .hunt) :
    r.finish = r.raise .truncated := by
  unfold Rxp.finish
  split <;> simp_all [Rxp.Resting]

@[simp] theorem Rxp.finish_cnt (r : Rxp) : r.finish.cnt = r.cnt := by
  unfold Rxp.finish
  split <;> rfl

/-- After the end of a parse that was started there is a verdict. -/
theorem Rxp.finish_state {r : Rxp} (h : r.state ≠ .idle) : r.finish.state = .ok ∨ r.finish.state = .fail := by
  by_cases hrest : r.Resting
  · rw [Rxp.finish_of_resting hrest]
    exact hrest.resolve_left h
  · by_cases hhunt : r.state = .hunt
    · exact .inr (by rw [Rxp.finish_of_hunt hhunt]; rfl)
    · exact .inr (by rw [Rxp.finish_of_open hrest hhunt]; rfl)

/-! ### What the checksum covers (R49) -/

/-- With nothing stored yet, the four bytes of status and length alone. -/
theorem Rxp.covered_of_cnt_zero {r : Rxp} (h : r.cnt = 0) (m : Memory) :
    r.covered m = [upper r.status, r.status.setWidth 8, upper r.length, r.length.setWidth 8] := by
  simp [Rxp.covered, h]

/-- The byte stored at the count is covered after the others. -/
theorem Rxp.covered_write {r r' : Rxp} (m : Memory) (b : Byte) (hstatus : r'.status = r.status)
    (hlength : r'.length = r.length) (hcnt : r'.cnt.toNat = r.cnt.toNat + 1) :
    r'.covered (Memory.write m r.cnt.toNat b) = r.covered m ++ [b] := by
  simp [Rxp.covered, hstatus, hlength, hcnt, stored_write]

/-! ### The invariant, built from what a state has to show -/

/-- RXP without an error: the clauses of the failures say nothing. -/
theorem Rxp.Inv.of_noError {r : Rxp} {m : Memory} (herr : r.err = 0) (hfail : r.state ≠ .fail)
    (counted : r.cnt ≤ r.length) (written : ∀ a, a < r.cnt.toNat → (Memory.read m a).isSome)
    (beforeStatus : r.state = .idle ∨ r.state = .hunt ∨ r.state = .stHi →
      r.status = 0 ∧ r.length = 0 ∧ r.cnt = 0 ∧ r.acc = 0 ∧ r.cs = 0 := by simp)
    (atStLo : r.state = .stLo → r.status.setWidth 8 = (0 : Byte) ∧ r.acc = upper r.status ∧ r.length = 0 ∧
      r.cnt = 0 ∧ r.cs = 0 := by simp)
    (atLenHi : r.state = .lenHi → r.status = Config.statusOk ∧ r.acc = 0x90 ∧ r.length = 0 ∧ r.cnt = 0 ∧
      r.cs = 0 := by simp)
    (atLenLo : r.state = .lenLo → r.status = Config.statusOk ∧ r.length.setWidth 8 = (0 : Byte) ∧
      r.acc = 0x90 ^^^ upper r.length ∧ r.cnt = 0 ∧ r.cs = 0 := by simp)
    (atPayload : r.state = .payload → r.status = Config.statusOk ∧ r.cnt < r.length ∧
      r.acc = xorFold (r.covered m) ∧ r.cs = 0 := by simp)
    (atCsum : r.state = .csum → r.status = Config.statusOk ∧ r.cnt = r.length ∧ r.acc = xorFold (r.covered m) ∧
      r.cs = 0 := by simp)
    (atOk : r.state = .ok → r.status = Config.statusOk ∧ r.cnt = r.length ∧ r.acc = xorFold (r.covered m) ∧
      r.cs = checksum (r.covered m) := by simp) :
    r.Inv m where
  codes := .inl ⟨hfail, herr⟩
  counted := counted
  written := written
  beforeStatus := beforeStatus
  atStLo := atStLo
  atLenHi := atLenHi
  atLenLo := atLenLo
  atPayload := atPayload
  atCsum := atCsum
  atOk := atOk
  afterSyncNotFound h := by simp [herr, codeOf] at h
  afterStatusError h := by simp [herr, codeOf] at h
  afterTruncated h := by simp [herr, codeOf] at h
  afterMismatch h := by simp [herr, codeOf] at h

/-- RXP with an error raised: the clauses of the other states say nothing. -/
theorem Rxp.Inv.of_raise {r : Rxp} {m : Memory} {e : Err}
    (hcode : codeOf e = 1 ∨ codeOf e = 2 ∨ codeOf e = 3 ∨ codeOf e = 4)
    (counted : r.cnt ≤ r.length) (written : ∀ a, a < r.cnt.toNat → (Memory.read m a).isSome)
    (afterSyncNotFound : codeOf e = 1 →
      r.status = 0 ∧ r.length = 0 ∧ r.cnt = 0 ∧ r.acc = 0 ∧ r.cs = 0 := by simp [codeOf])
    (afterStatusError : codeOf e = 2 →
      r.status ≠ Config.statusOk ∧ r.length = 0 ∧ r.cnt = 0 ∧ r.cs = 0 := by simp [codeOf])
    (afterTruncated : codeOf e = 3 → r.cs = 0 := by simp [codeOf])
    (afterMismatch : codeOf e = 4 → r.status = Config.statusOk ∧ r.cnt = r.length ∧
      r.acc = xorFold (r.covered m) ∧ r.cs ≠ checksum (r.covered m) := by simp [codeOf]) :
    (r.raise e).Inv m where
  codes := .inr ⟨rfl, hcode⟩
  counted := counted
  written := written
  beforeStatus := nofun
  atStLo := nofun
  atLenHi := nofun
  atLenLo := nofun
  atPayload := nofun
  atCsum := nofun
  atOk := nofun
  afterSyncNotFound := afterSyncNotFound
  afterStatusError := afterStatusError
  afterTruncated := afterTruncated
  afterMismatch := afterMismatch

theorem Rxp.Inv.reset (m : Memory) : Rxp.reset.Inv m :=
  .of_noError rfl nofun (by decide) nofun (beforeStatus := fun _ => ⟨rfl, rfl, rfl, rfl, rfl⟩)
    (atStLo := nofun) (atLenHi := nofun) (atLenLo := nofun) (atPayload := nofun) (atCsum := nofun) (atOk := nofun)

theorem Rxp.Inv.started (m : Memory) : Rxp.started.Inv m :=
  .of_noError rfl nofun (by decide) nofun (beforeStatus := fun _ => ⟨rfl, rfl, rfl, rfl, rfl⟩)
    (atStLo := nofun) (atLenHi := nofun) (atLenLo := nofun) (atPayload := nofun) (atCsum := nofun) (atOk := nofun)

/-- Only `R_FAIL` carries an error. -/
theorem Rxp.Inv.err_eq_zero {r : Rxp} {m : Memory} (h : r.Inv m) (hs : r.state ≠ .fail) : r.err = 0 :=
  h.codes.elim (·.2) fun hfail => absurd hfail.1 hs

/-- RXP's error codes are codes of the taxonomy (R100). -/
theorem Rxp.Inv.err_le {r : Rxp} {m : Memory} (h : r.Inv m) : r.err.toNat ≤ 6 := by
  rcases h.codes with ⟨_, he⟩ | ⟨_, he | he | he | he⟩ <;> simp [he]

/-- RXP holds no received checksum before its verdict. -/
theorem Rxp.Inv.cs_eq_zero {r : Rxp} {m : Memory} (h : r.Inv m) (hok : r.state ≠ .ok) (hfail : r.state ≠ .fail) :
    r.cs = 0 := by
  cases hs : r.state
  case idle => obtain ⟨-, -, -, -, hcs⟩ := h.beforeStatus (.inl hs); exact hcs
  case hunt => obtain ⟨-, -, -, -, hcs⟩ := h.beforeStatus (.inr (.inl hs)); exact hcs
  case stHi => obtain ⟨-, -, -, -, hcs⟩ := h.beforeStatus (.inr (.inr hs)); exact hcs
  case stLo => obtain ⟨-, -, -, -, hcs⟩ := h.atStLo hs; exact hcs
  case lenHi => obtain ⟨-, -, -, -, hcs⟩ := h.atLenHi hs; exact hcs
  case lenLo => obtain ⟨-, -, -, -, hcs⟩ := h.atLenLo hs; exact hcs
  case payload => obtain ⟨-, -, -, hcs⟩ := h.atPayload hs; exact hcs
  case csum => obtain ⟨-, -, -, hcs⟩ := h.atCsum hs; exact hcs
  case ok => exact absurd hs hok
  case fail => exact absurd hs hfail

/-! ### Byte, end and start keep the invariant -/

/-- The low byte of the status decides between a good response and its error. -/
theorem Rxp.Inv.byte_of_stLo {r : Rxp} {m : Memory} (h : r.Inv m) (hst : r.state = .stLo) (b : Byte) :
    (r.byte b).Inv m := by
  obtain ⟨-, hacc, hlength, hcnt, hcs⟩ := h.atStLo hst
  have herr : r.err = 0 := h.err_eq_zero (by simp [hst])
  rw [Rxp.byte_of_stLo hst]
  split
  case isTrue hgood =>
    have hhigh : upper r.status = 0x90 := by rw [← upper_setLow r.status b, hgood]; rfl
    have hb : b = 0x00 := by rw [← setWidth_setLow r.status b, hgood]; rfl
    exact .of_noError herr nofun h.counted h.written
      (atLenHi := fun _ => ⟨hgood, by simp [hacc, hhigh, hb, csgAbsorb], hlength, hcnt, hcs⟩)
  case isFalse hbad =>
    exact .of_raise (.inr (.inl rfl)) h.counted h.written
      (afterStatusError := fun _ => ⟨hbad, hlength, hcnt, hcs⟩)

/-- The low byte of the length completes the four bytes that the checksum covers before the payload. -/
theorem Rxp.Inv.byte_of_lenLo {r : Rxp} {m : Memory} (h : r.Inv m) (hst : r.state = .lenLo) (b : Byte) :
    (r.byte b).Inv m := by
  obtain ⟨hstatus, -, hacc, -, hcs⟩ := h.atLenLo hst
  have herr : r.err = 0 := h.err_eq_zero (by simp [hst])
  have hfold : ∀ r' : Rxp, r'.status = r.status → r'.length = setLow r.length b → r'.cnt = 0 →
      csgAbsorb r.acc b = xorFold (r'.covered m) := by
    intro r' hstatus' hlength' hcnt'
    rw [Rxp.covered_of_cnt_zero hcnt', hstatus', hlength', upper_setLow, setWidth_setLow, hacc, hstatus]
    simp [xorFold, csgAbsorb, upper, Config.statusOk, Config.csSeed]
  rw [Rxp.byte_of_lenLo hst]
  generalize hst' : (if setLow r.length b = 0 then RxState.csum else .payload) = st
  split at hst' <;> subst hst'
  case isTrue hzero =>
    exact .of_noError herr nofun (by bv_omega) nofun
      (atCsum := fun _ => ⟨hstatus, hzero.symm, hfold _ rfl rfl rfl, hcs⟩)
  case isFalse hpos =>
    exact .of_noError herr nofun (by bv_omega) nofun
      (atPayload := fun _ => ⟨hstatus, by bv_omega, hfold _ rfl rfl rfl, hcs⟩)

/-- The checksum byte gives the verdict. -/
theorem Rxp.Inv.byte_of_csum {r : Rxp} {m : Memory} (h : r.Inv m) (hst : r.state = .csum) (b : Byte) :
    (r.byte b).Inv m := by
  obtain ⟨hstatus, hcnt, hacc, -⟩ := h.atCsum hst
  have herr : r.err = 0 := h.err_eq_zero (by simp [hst])
  have hout : csOut r.acc = checksum (r.covered m) := by rw [hacc, csOut_xorFold]
  rw [Rxp.byte_of_csum hst]
  split
  case isTrue hgood =>
    exact .of_noError herr nofun h.counted h.written
      (atOk := fun _ => ⟨hstatus, hcnt, hacc, hgood.trans hout⟩)
  case isFalse hbad =>
    exact .of_raise (.inr (.inr (.inr rfl))) h.counted h.written
      (afterMismatch := fun _ => ⟨hstatus, hcnt, hacc, fun hcs => hbad (hcs.trans hout.symm)⟩)

/-- A byte that is not stored. -/
theorem Rxp.Inv.byte {r : Rxp} {m : Memory} (h : r.Inv m) (hs : r.state ≠ .payload) (b : Byte) :
    (r.byte b).Inv m := by
  cases hst : r.state
  case idle => rwa [Rxp.byte_of_resting (.inl hst)]
  case hunt =>
    obtain ⟨hstatus, hlength, hcnt, -, hcs⟩ := h.beforeStatus (.inr (.inl hst))
    have herr : r.err = 0 := h.err_eq_zero (by simp [hst])
    rw [Rxp.byte_of_hunt hst]
    split
    · exact .of_noError herr nofun h.counted h.written (beforeStatus := fun _ => ⟨hstatus, hlength, hcnt, rfl, hcs⟩)
    · exact h
  case stHi =>
    obtain ⟨hstatus, hlength, hcnt, hacc, hcs⟩ := h.beforeStatus (.inr (.inr hst))
    have herr : r.err = 0 := h.err_eq_zero (by simp [hst])
    rw [Rxp.byte_of_stHi hst]
    exact .of_noError herr nofun h.counted h.written
      (atStLo := fun _ => ⟨by simp [hstatus], by simp [hacc, csgAbsorb], hlength, hcnt, hcs⟩)
  case stLo => exact h.byte_of_stLo hst b
  case lenHi =>
    obtain ⟨hstatus, hacc, hlength, hcnt, hcs⟩ := h.atLenHi hst
    have herr : r.err = 0 := h.err_eq_zero (by simp [hst])
    rw [Rxp.byte_of_lenHi hst]
    exact .of_noError herr nofun (by simp only [hcnt]; bv_omega) h.written
      (atLenLo := fun _ => ⟨hstatus, by simp [hlength], by simp [hacc, csgAbsorb], hcnt, hcs⟩)
  case lenLo => exact h.byte_of_lenLo hst b
  case payload => exact absurd hst hs
  case csum => exact h.byte_of_csum hst b
  case ok => rwa [Rxp.byte_of_resting (.inr (.inl hst))]
  case fail => rwa [Rxp.byte_of_resting (.inr (.inr hst))]

/-- A byte that is stored at the count, below the length (R76, `R_PAYLOAD`). -/
theorem Rxp.Inv.byte_stored {r : Rxp} {m : Memory} (h : r.Inv m) (hst : r.state = .payload) (b : Byte) :
    (r.byte b).Inv (Memory.write m r.cnt.toNat b) := by
  obtain ⟨hstatus, hlt, hacc, hcs⟩ := h.atPayload hst
  have herr : r.err = 0 := h.err_eq_zero (by simp [hst])
  have hcnt : (r.cnt + 1).toNat = r.cnt.toNat + 1 := by bv_omega
  have hle : r.cnt + 1 ≤ r.length := by bv_omega
  have hwritten : ∀ a, a < (r.cnt + 1).toNat → (Memory.read (Memory.write m r.cnt.toNat b) a).isSome := by
    intro a ha
    rcases Nat.lt_or_ge a r.cnt.toNat with hold | hnew
    · exact Memory.isSome_read_write (.inl (h.written a hold))
    · exact Memory.isSome_read_write (.inr (by omega))
  have hfold : ∀ r' : Rxp, r'.status = r.status → r'.length = r.length → r'.cnt = r.cnt + 1 →
      csgAbsorb r.acc b = xorFold (r'.covered (Memory.write m r.cnt.toNat b)) := by
    intro r' hstatus' hlength' hcnt'
    rw [Rxp.covered_write m b hstatus' hlength' (by rw [hcnt', hcnt]), xorFold_concat, hacc]
  rw [Rxp.byte_of_payload hst]
  generalize hst' : (if r.cnt + 1 = r.length then RxState.csum else .payload) = st
  split at hst' <;> subst hst'
  case isTrue hlast =>
    exact .of_noError herr nofun hle hwritten (atCsum := fun _ => ⟨hstatus, hlast, hfold _ rfl rfl rfl, hcs⟩)
  case isFalse hmore =>
    have hlt' : r.cnt + 1 < r.length := by bv_omega
    exact .of_noError herr nofun hle hwritten (atPayload := fun _ => ⟨hstatus, hlt', hfold _ rfl rfl rfl, hcs⟩)

theorem Rxp.Inv.finish {r : Rxp} {m : Memory} (h : r.Inv m) : r.finish.Inv m := by
  by_cases hrest : r.Resting
  · rwa [Rxp.finish_of_resting hrest]
  · by_cases hhunt : r.state = .hunt
    · rw [Rxp.finish_of_hunt hhunt]
      exact .of_raise (.inl rfl) h.counted h.written
        (afterSyncNotFound := fun _ => h.beforeStatus (.inr (.inl hhunt)))
    · have hcs : r.cs = 0 := h.cs_eq_zero (fun hok => hrest (.inr (.inl hok))) (fun hfail => hrest (.inr (.inr hfail)))
      rw [Rxp.finish_of_open hrest hhunt]
      exact .of_raise (.inr (.inr (.inl rfl))) h.counted h.written (afterTruncated := fun _ => hcs)

/-- The offset a byte step stores to exists (R18, R39). -/
theorem Rxp.Inv.storeAt_lt {r : Rxp} {m : Memory} {a : Nat} (h : r.Inv m) (ha : r.storeAt = some a) :
    a < Config.pbufDepth := by
  obtain ⟨hst, rfl⟩ := Rxp.storeAt_eq_some.mp ha
  obtain ⟨-, hlt, -, -⟩ := h.atPayload hst
  have hlength := r.length.isLt
  simp only [Config.pbufDepth]
  bv_omega

/-! ### The steps of the machine that are RXP's -/

/-- A byte step keeps RXP's invariant, whatever the rest of the machine holds. -/
theorem State.rxByte_keeps_rxpInv {s t : State} {b : Byte} (h : s.rxp.Inv s.pbuf) (ht : s.rxByte b = .next t) :
    t.rxp.Inv t.pbuf := by
  rcases State.rxByte_eq_next.mp ht with ⟨hnone, rfl⟩ | ⟨a, hsome, -, rfl⟩
  · exact h.byte (Rxp.storeAt_eq_none.mp hnone) b
  · obtain ⟨hst, rfl⟩ := Rxp.storeAt_eq_some.mp hsome
    exact h.byte_stored hst b

theorem State.feed_keeps_rxpInv {bs : List Byte} {s t : State} (h : s.rxp.Inv s.pbuf)
    (ht : State.feed bs s = .next t) : t.rxp.Inv t.pbuf := by
  induction bs generalizing s with
  | nil => cases ht; exact h
  | cons b bs ih =>
    obtain ⟨u, hu, ht⟩ := andThen_eq_next.mp ht
    exact ih (State.rxByte_keeps_rxpInv h hu) ht

end Sys2Proof.Machine
end

section
/-! PROOFS. ENC: the bytes of an encoded frame by place (spec/30_encoding.md R44), one equation per state for the start and
the emit (spec/41_frame_encoder.md R65, R66), and that both keep ENC's invariant. -/

namespace Sys2Proof.Machine

/-! ### The frame by place -/

/-- The bytes of a frame that fits its transfer (R44); tied to `encodeFrame` by `encodeFrame_eq_ok`. -/
def frameBytes (body : List Byte) (total : Nat) : List Byte :=
  [Config.sync] ++ body ++ [checksum body] ++ zeros (total - body.length - 2)

theorem encodeFrame_eq_ok {body f : List Byte} {total : Nat} :
    encodeFrame body total = .ok f ↔ body.length + 2 ≤ total ∧ frameBytes body total = f := by
  unfold encodeFrame
  split
  · simp; omega
  · simp only [Except.ok.injEq, frameBytes]
    exact ⟨fun h => ⟨by omega, h⟩, fun h => h.2⟩

theorem frameBytes_length {body : List Byte} {total : Nat} (h : body.length + 2 ≤ total) :
    (frameBytes body total).length = total := by
  simp [frameBytes, zeros]
  omega

/-- Up to the end of the body a frame is the marker and the body. -/
theorem frameBytes_take {body : List Byte} {total n : Nat} (h : n ≤ body.length) :
    (frameBytes body total).take (n + 1) = Config.sync :: body.take n := by
  simp [frameBytes, List.take_append_of_le_length h]

theorem frameBytes_checksum (body : List Byte) (total : Nat) :
    (frameBytes body total)[body.length + 1]? = some (checksum body) := by
  simp [frameBytes]

theorem frameBytes_pad {body : List Byte} {total n : Nat} (hn : body.length + 2 ≤ n) (h : n < total) :
    (frameBytes body total)[n]? = some Config.pad := by
  have hoff : n - (body.length + 2) < total - body.length - 2 := by omega
  have hlen : ([Config.sync] ++ body ++ [checksum body]).length = body.length + 2 := by simp
  rw [frameBytes, List.getElem?_append_right (by omega), hlen, zeros, List.getElem?_replicate_of_lt hoff]

/-! ### Start and emit by state -/

theorem Enc.start_of_busy {e : Enc} (h : e.state ≠ .idle) (bodyLen total : Nat) : e.start bodyLen total = e := by
  simp [Enc.start, h]

theorem Enc.start_of_tooLong {e : Enc} {bodyLen total : Nat} (h : e.state = .idle) (hlong : total < bodyLen + 2) :
    e.start bodyLen total = ({ e with bodyLen := bodyLen, total := total, idx := 0 } : Enc).raise .invalidLength := by
  simp [Enc.start, h, tooLong, hlong]

theorem Enc.start_of_fits {e : Enc} {bodyLen total : Nat} (h : e.state = .idle) (hfits : bodyLen + 2 ≤ total) :
    e.start bodyLen total =
      { bodyLen := bodyLen, total := total, idx := 0, err := 0, done := false, acc := csgClear, state := .sync } := by
  simp [Enc.start, h, tooLong, Nat.not_lt.mpr hfits]

theorem Enc.emit_of_idle {e : Enc} (h : e.state = .idle) (body : Option Byte) : e.emit body = e := by
  simp [Enc.emit, h]

theorem Enc.emit_of_sync {e : Enc} (h : e.state = .sync) (body : Option Byte) :
    e.emit body = { e with idx := e.idx + 1, state := if e.bodyLen = 0 then .csum else .body } := by
  simp [Enc.emit, h]

/-- ENC holds while no body byte is offered. -/
theorem Enc.emit_of_hold {e : Enc} (h : e.state = .body) : e.emit none = e := by
  simp [Enc.emit, h]

theorem Enc.emit_of_body {e : Enc} (h : e.state = .body) (b : Byte) :
    e.emit (some b) =
      { e with
        acc := csgAbsorb e.acc b, idx := e.idx + 1
        state := if e.idx + 1 = e.bodyLen + 1 then .csum else .body } := by
  simp [Enc.emit, h]

/-- Behind the body: the checksum and the padding. -/
theorem Enc.emit_of_tail {e : Enc} (h : e.state = .csum ∨ e.state = .pad) (body : Option Byte) :
    e.emit body = e.emitTail := by
  rcases h with h | h <;> simp [Enc.emit, h]

theorem Enc.emitTail_last {e : Enc} (h : e.idx + 1 = e.total) :
    e.emitTail = { e with idx := e.idx + 1, state := .idle, done := true } := by
  simp [Enc.emitTail, h]

theorem Enc.emitTail_more {e : Enc} (h : e.idx + 1 ≠ e.total) :
    e.emitTail = { e with idx := e.idx + 1, state := .pad } := by
  simp [Enc.emitTail, h]

/-! ### The invariant, built from what a state has to show -/

/-- A busy ENC: what is out is the beginning of the frame of some body, and the accumulator its fold so far. -/
theorem Enc.Inv.of_busy {p : Params} {e : Enc} {frame : List Byte} (hbusy : e.state ≠ .idle)
    (herr : e.err = 0) (hdone : e.done = false) (hfits : e.bodyLen + 2 ≤ e.total) (htotal : e.total < 2 ^ p.lenW)
    (hsent : ∃ body : List Byte, body.length = e.bodyLen ∧ frame = (frameBytes body e.total).take e.idx ∧
      e.acc = xorFold (body.take (e.idx - 1)))
    (atSync : e.state = .sync → e.idx = 0 := by simp)
    (atBody : e.state = .body → 1 ≤ e.idx ∧ e.idx ≤ e.bodyLen := by simp)
    (atCsum : e.state = .csum → e.idx = e.bodyLen + 1 := by simp)
    (atPad : e.state = .pad → e.bodyLen + 2 ≤ e.idx ∧ e.idx < e.total := by simp) :
    e.Inv p frame where
  widths := by
    refine ⟨?_, htotal, by omega⟩
    cases hs : e.state
    case idle => exact absurd hs hbusy
    case sync => have := atSync hs; omega
    case body => have := atBody hs; omega
    case csum => have := atCsum hs; omega
    case pad => have := atPad hs; omega
  codes := .inl herr
  busy _ := ⟨hfits, herr, hdone⟩
  atSync := atSync
  atBody := atBody
  atCsum := atCsum
  atPad := atPad
  sent _ := by
    obtain ⟨body, hlen, hframe, hacc⟩ := hsent
    exact ⟨body, _, hlen, encodeFrame_eq_ok.mpr ⟨by omega, rfl⟩, hframe, hacc⟩
  finished h := by simp [hdone] at h

/-- An idle ENC: a finished frame is a whole one. -/
theorem Enc.Inv.of_idle {p : Params} {e : Enc} {frame : List Byte} (hidle : e.state = .idle)
    (hidx : e.idx ≤ e.total) (htotal : e.total < 2 ^ p.lenW) (hbody : e.bodyLen < 2 ^ p.lenW)
    (hcode : e.err = 0 ∨ e.err = codeOf .invalidLength)
    (hfinished : e.done = true → e.err = 0 → e.idx = e.total ∧
      ∃ body : List Byte, body.length = e.bodyLen ∧ encodeFrame body e.total = .ok frame) :
    e.Inv p frame where
  widths := ⟨hidx, htotal, hbody⟩
  codes := hcode
  busy h := absurd hidle h
  atSync h := by simp [hidle] at h
  atBody h := by simp [hidle] at h
  atCsum h := by simp [hidle] at h
  atPad h := by simp [hidle] at h
  sent h := absurd hidle h
  finished hdone := ⟨hidle, hfinished hdone⟩

theorem Enc.Inv.reset (p : Params) (frame : List Byte) : Enc.reset.Inv p frame :=
  .of_idle rfl (Nat.le_refl _) (Nat.two_pow_pos _) (Nat.two_pow_pos _) (.inl rfl) nofun

/-- What a busy ENC has put out, in the terms of the frame's bytes. -/
theorem Enc.Inv.sentBytes {p : Params} {e : Enc} {frame : List Byte} (h : e.Inv p frame) (hbusy : e.state ≠ .idle) :
    ∃ body : List Byte, body.length = e.bodyLen ∧ frame = (frameBytes body e.total).take e.idx ∧
      e.acc = xorFold (body.take (e.idx - 1)) := by
  obtain ⟨body, whole, hlen, hwhole, hframe, hacc⟩ := h.sent hbusy
  obtain ⟨-, rfl⟩ := encodeFrame_eq_ok.mp hwhole
  exact ⟨body, hlen, hframe, hacc⟩

/-! ### Start and emit keep the invariant -/

theorem Enc.Inv.start {p : Params} {e : Enc} {frame : List Byte} {bodyLen total : Nat} (h : e.Inv p frame)
    (hbody : bodyLen < 2 ^ p.lenW) (htotal : total < 2 ^ p.lenW) :
    (e.start bodyLen total).Inv p (if e.state = .idle then [] else frame) := by
  by_cases hidle : e.state = .idle
  · rw [if_pos hidle]
    rcases Nat.lt_or_ge total (bodyLen + 2) with hlong | hfits
    · rw [Enc.start_of_tooLong hidle hlong]
      exact .of_idle rfl (Nat.zero_le _) htotal hbody (.inr rfl) nofun
    · rw [Enc.start_of_fits hidle hfits]
      exact .of_busy nofun rfl rfl hfits htotal ⟨List.replicate bodyLen 0, by simp, by simp, rfl⟩
  · rwa [Enc.start_of_busy hidle, if_neg hidle]

/-- The marker leaves ENC. -/
theorem Enc.Inv.emit_sync {p : Params} {e : Enc} {frame : List Byte} (h : e.Inv p frame) (hst : e.state = .sync)
    (body : Option Byte) : (e.emit body).Inv p (frame ++ [Config.sync]) := by
  have hbusy : e.state ≠ .idle := by simp [hst]
  obtain ⟨hfits, herr, hdone⟩ := h.busy hbusy
  obtain ⟨-, htotal, -⟩ := h.widths
  have hidx : e.idx = 0 := h.atSync hst
  obtain ⟨bytes, hlen, rfl, hacc⟩ := h.sentBytes hbusy
  rw [Enc.emit_of_sync hst]
  have hsent : ∃ body : List Byte, body.length = e.bodyLen ∧
      (frameBytes bytes e.total).take e.idx ++ [Config.sync] = (frameBytes body e.total).take (e.idx + 1) ∧
      e.acc = xorFold (body.take (e.idx + 1 - 1)) :=
    ⟨bytes, hlen, by simp [hidx, frameBytes], by simp [hacc, hidx]⟩
  generalize hst' : (if e.bodyLen = 0 then EncState.csum else .body) = st
  split at hst' <;> subst hst'
  case isTrue hempty => exact .of_busy nofun herr hdone hfits htotal hsent (atCsum := fun _ => by simp [hidx, hempty])
  case isFalse hsome =>
    exact .of_busy nofun herr hdone hfits htotal hsent (atBody := fun _ => by simp only [hidx]; omega)

/-- A body byte leaves ENC: what is out is the beginning of the frame of a body that has this byte at its place. -/
theorem Enc.Inv.emit_body {p : Params} {e : Enc} {frame : List Byte} (h : e.Inv p frame) (hst : e.state = .body)
    (b : Byte) : (e.emit (some b)).Inv p (frame ++ [b]) := by
  have hbusy : e.state ≠ .idle := by simp [hst]
  obtain ⟨hfits, herr, hdone⟩ := h.busy hbusy
  obtain ⟨-, htotal, -⟩ := h.widths
  obtain ⟨hlow, hhigh⟩ := h.atBody hst
  obtain ⟨bytes, hlen, rfl, hacc⟩ := h.sentBytes hbusy
  obtain ⟨n, hn⟩ : ∃ n, e.idx = n + 1 := ⟨e.idx - 1, by omega⟩
  have hnlt : n < bytes.length := by omega
  have htake : (bytes.set n b).take (n + 1) = bytes.take n ++ [b] := by
    rw [List.take_add_one, List.take_set_of_le (Nat.le_refl n)]
    simp [hnlt]
  have hsent : ∃ body : List Byte, body.length = e.bodyLen ∧
      (frameBytes bytes e.total).take e.idx ++ [b] = (frameBytes body e.total).take (e.idx + 1) ∧
      csgAbsorb e.acc b = xorFold (body.take (e.idx + 1 - 1)) := by
    refine ⟨bytes.set n b, by simpa using hlen, ?_, ?_⟩
    · rw [hn, frameBytes_take (by omega), frameBytes_take (by rw [List.length_set]; omega), htake, List.cons_append]
    · rw [hacc, hn, Nat.add_sub_cancel, Nat.add_sub_cancel, htake, xorFold_concat]
  rw [Enc.emit_of_body hst]
  generalize hst' : (if e.idx + 1 = e.bodyLen + 1 then EncState.csum else .body) = st
  split at hst' <;> subst hst'
  case isTrue hlast => exact .of_busy nofun herr hdone hfits htotal hsent (atCsum := fun _ => hlast)
  case isFalse hmore => exact .of_busy nofun herr hdone hfits htotal hsent (atBody := fun _ => by dsimp only; omega)

/-- A byte behind the body leaves ENC: the byte of the frame at ENC's index. -/
theorem Enc.Inv.emit_tail {p : Params} {e : Enc} {frame : List Byte} (h : e.Inv p frame)
    (hst : e.state = .csum ∨ e.state = .pad) (body : Option Byte) :
    (e.emit body).Inv p (frame ++ (e.tx body).toList) := by
  have hbusy : e.state ≠ .idle := by rcases hst with hst | hst <;> simp [hst]
  obtain ⟨hfits, herr, hdone⟩ := h.busy hbusy
  obtain ⟨-, htotal, hbodyLen⟩ := h.widths
  obtain ⟨bytes, hlen, rfl, hacc⟩ := h.sentBytes hbusy
  have hpast : e.bodyLen + 1 ≤ e.idx ∧ e.idx < e.total := by
    rcases hst with hst | hst
    · have := h.atCsum hst; omega
    · have := h.atPad hst; omega
  have hfold : e.acc = xorFold bytes := by rw [hacc, List.take_of_length_le (by omega)]
  have htx : e.tx body = (frameBytes bytes e.total)[e.idx]? := by
    rcases hst with hst | hst
    · rw [h.atCsum hst, ← hlen, frameBytes_checksum, ← csOut_xorFold, ← hfold]
      simp [Enc.tx, hst]
    · rw [frameBytes_pad (by have := h.atPad hst; omega) hpast.2]
      simp [Enc.tx, hst]
  have hout : (frameBytes bytes e.total).take e.idx ++ (e.tx body).toList =
      (frameBytes bytes e.total).take (e.idx + 1) := by
    rw [htx, List.take_add_one]
  rw [Enc.emit_of_tail hst, hout]
  by_cases hlast : e.idx + 1 = e.total
  · have hwhole : encodeFrame bytes e.total = .ok ((frameBytes bytes e.total).take (e.idx + 1)) := by
      refine encodeFrame_eq_ok.mpr ⟨by omega, ?_⟩
      rw [List.take_of_length_le (by rw [frameBytes_length (by omega)]; omega)]
    rw [Enc.emitTail_last hlast]
    exact .of_idle rfl hlast.le htotal hbodyLen (.inl herr) fun _ _ => ⟨hlast, bytes, hlen, hwhole⟩
  · have hsent : ∃ body : List Byte, body.length = e.bodyLen ∧
        (frameBytes bytes e.total).take (e.idx + 1) = (frameBytes body e.total).take (e.idx + 1) ∧
        e.acc = xorFold (body.take (e.idx + 1 - 1)) :=
      ⟨bytes, hlen, rfl, by rw [hfold, List.take_of_length_le (by omega)]⟩
    rw [Enc.emitTail_more hlast]
    exact .of_busy nofun herr hdone hfits htotal hsent (atPad := fun _ => by dsimp only; omega)

theorem Enc.Inv.emit {p : Params} {e : Enc} {frame : List Byte} (h : e.Inv p frame) (body : Option Byte) :
    (e.emit body).Inv p (frame ++ (e.tx body).toList) := by
  cases hst : e.state
  case idle => simpa [Enc.emit_of_idle hst, Enc.tx, hst] using h
  case sync => simpa [Enc.tx, hst] using h.emit_sync hst body
  case body =>
    cases body with
    | none => simpa [Enc.emit_of_hold hst, Enc.tx, hst] using h
    | some b => simpa [Enc.tx, hst] using h.emit_body hst b
  case csum => exact h.emit_tail (.inl hst) body
  case pad => exact h.emit_tail (.inr hst) body

end Sys2Proof.Machine
end

section
/-! PROOFS. RDEC keeps its invariant (spec/43_record_decoder.md R83, R84), and so the invariant of the machine is kept by
every operation of a sub-block: by RDEC's and RXP's events in every state, by the starts while they may be offered. -/

namespace Sys2Proof.Machine

/-! ### RDEC -/

theorem Rdec.Inv.reset : Rdec.reset.Inv where
  atIdle _ := rfl
  atRun := nofun
  atOk := nofun
  atFail := nofun

theorem Rdec.Inv.started (len : Half) : (Rdec.started len).Inv where
  atIdle := nofun
  atRun _ := ⟨by simp [Rdec.started], Nat.zero_le _, rfl⟩
  atOk := nofun
  atFail := nofun

/-- The cursor is past the end of the payload when it has reached its length (R84). -/
theorem Rdec.atEnd_iff {r : Rdec} : r.atEnd = true ↔ r.len.toNat ≤ r.cur.toNat := by
  have hcur := r.cur.isLt
  have hmod : r.cur.toNat % 65536 = r.cur.toNat := Nat.mod_eq_of_lt (by omega)
  simp [Rdec.atEnd, BitVec.le_def, hmod]

/-- A cursor step past the end of the payload. -/
theorem Rdec.Inv.raise_truncated {r : Rdec} (h : r.Inv) (hrun : r.state = .run) (hend : r.atEnd = true) :
    (r.raise .truncated).Inv where
  atIdle := nofun
  atRun := nofun
  atOk := nofun
  atFail _ := by
    obtain ⟨hcur, hle, -⟩ := h.atRun hrun
    exact ⟨hcur, Nat.le_antisymm hle (Rdec.atEnd_iff.mp hend), rfl, rfl⟩

/-- A cursor step inside the payload. -/
theorem Rdec.Inv.take {r : Rdec} (h : r.Inv) (hrun : r.state = .run) (hend : r.atEnd = false) (f : Field) (b : Byte) :
    (r.take f b).Inv := by
  obtain ⟨hcur, -, herr⟩ := h.atRun hrun
  have hlt : r.cur.toNat < r.len.toNat := by
    rw [← Nat.not_le, ← Rdec.atEnd_iff, hend]
    simp
  have hnext : (r.cur + 1).toNat = r.cur.toNat + 1 := by bv_omega
  by_cases hlast : r.cur + 1 = 82
  · have h82 : r.cur.toNat + 1 = 82 := by rw [← hnext, hlast]; rfl
    have hst : (r.take f b).state = .ok := if_pos hlast
    exact {
      atIdle := by simp [hst]
      atRun := by simp [hst]
      atOk := fun _ => ⟨hlast, by simp only [Rdec.take]; omega, herr⟩
      atFail := by simp [hst] }
  · have hst : (r.take f b).state = .run := if_neg hlast
    have h82 : r.cur.toNat + 1 ≠ 82 := fun h82 => hlast (BitVec.eq_of_toNat_eq (hnext.trans h82))
    exact {
      atIdle := by simp [hst]
      atRun := fun _ => by simp only [Rdec.take, hnext]; exact ⟨by omega, by omega, herr⟩
      atOk := by simp [hst]
      atFail := by simp [hst] }

/-! ### Writing one part of the state -/

/-- QSEQ's invariant speaks of the parameters, QSEQ, RXP and RDEC alone. -/
theorem State.QueryInv.congr {s t : State} (h : s.QueryInv) (hparams : t.params = s.params) (hq : t.q = s.q)
    (hrxp : t.rxp = s.rxp) (hrdec : t.rdec = s.rdec) : t.QueryInv where
  codes := by rw [hq]; exact h.codes
  widths := by rw [hq, hparams]; exact h.widths
  argsOfNegotiate := by rw [hq]; exact h.argsOfNegotiate
  atIdle := by rw [hq]; exact h.atIdle
  atXfer := by rw [hq, hrxp, hrdec]; exact h.atXfer
  atPost := by rw [hq, hrxp, hrdec]; exact h.atPost

/-- QSEQ's reset values meet its invariant, whatever the rest of the machine holds. -/
theorem State.QueryInv.of_reset {s : State} (h : s.q = .reset) : s.QueryInv where
  codes := by simp [h, Qseq.reset]
  widths := by simp [h, Qseq.reset]
  argsOfNegotiate := by simp [h, Qseq.reset]
  atIdle _ := h
  atXfer hs := by simp [h, Qseq.reset] at hs
  atPost hs := by simp [h, Qseq.reset] at hs

/-- The model's own fields, and the accumulator of a CSG used alone, are under no invariant. -/
theorem State.Inv.bookkeeping {s : State} (h : s.Inv) (acc : Byte) (inbox : List Offer) (env : List Answer)
    (ret : Reply) : ({ s with acc := acc, inbox := inbox, env := env, ret := ret } : State).Inv where
  params := h.params
  memory := h.memory
  enc := h.enc
  rxp := h.rxp
  rdec := h.rdec
  query := h.query.congr rfl rfl rfl rfl

theorem State.Inv.setEnc {s : State} {e : Enc} {frame : List Byte} (h : s.Inv) (he : e.Inv s.params frame) :
    ({ s with enc := e, txFrame := frame } : State).Inv where
  params := h.params
  memory := h.memory
  enc := he
  rxp := h.rxp
  rdec := h.rdec
  query := h.query.congr rfl rfl rfl rfl

/-- RXP and the payload buffer: a transfer needs a parse in progress, a post phase its verdict. -/
theorem State.Inv.setRxp {s : State} {r : Rxp} {m : Memory} (h : s.Inv) (hm : Memory.wf m = true) (hr : r.Inv m)
    (hxfer : s.q.state = .xfer → r.state ≠ .idle) (hpost : s.q.state = .post → r = s.rxp) :
    ({ s with rxp := r, pbuf := m } : State).Inv where
  params := h.params
  memory := hm
  enc := h.enc
  rxp := hr
  rdec := h.rdec
  query :=
    { codes := h.query.codes, widths := h.query.widths, argsOfNegotiate := h.query.argsOfNegotiate
      atIdle := h.query.atIdle
      atXfer := fun hs => by
        obtain ⟨hslot, herr, -, hrdec⟩ := h.query.atXfer hs
        exact ⟨hslot, herr, hxfer hs, hrdec⟩
      atPost := fun hs => by
        dsimp only
        rw [hpost hs]
        exact h.query.atPost hs }

/-- RDEC: it rests through a transfer, and reads a good GET_INFO reply in a post phase. -/
theorem State.Inv.setRdec {s : State} {r : Rdec} (h : s.Inv) (hr : r.Inv) (hxfer : s.q.state = .xfer → r = .reset)
    (hpost : s.q.state = .post →
      r.state = .idle ∨ (s.q.cmd = .getInfo ∧ s.rxp.state = .ok ∧ r.len = s.rxp.length)) :
    ({ s with rdec := r } : State).Inv where
  params := h.params
  memory := h.memory
  enc := h.enc
  rxp := h.rxp
  rdec := hr
  query :=
    { codes := h.query.codes, widths := h.query.widths, argsOfNegotiate := h.query.argsOfNegotiate
      atIdle := h.query.atIdle
      atXfer := fun hs => by
        obtain ⟨hslot, herr, hrxp, -⟩ := h.query.atXfer hs
        exact ⟨hslot, herr, hrxp, hxfer hs⟩
      atPost := fun hs => by
        obtain ⟨hslot, herr, hverdict, -⟩ := h.query.atPost hs
        exact ⟨hslot, herr, hverdict, hpost hs⟩ }

/-- The end of a query, with or without an error (R97, R98). -/
theorem State.Inv.endQuery {s : State} (h : s.Inv) {code : BitVec 3} (hcode : code.toNat ≤ 6) :
    ({ s with q := { s.q with err := code, state := .done } } : State).Inv where
  params := h.params
  memory := h.memory
  enc := h.enc
  rxp := h.rxp
  rdec := h.rdec
  query :=
    { codes := hcode, widths := h.query.widths, argsOfNegotiate := h.query.argsOfNegotiate
      atIdle := nofun, atXfer := nofun, atPost := nofun }

/-- No query runs: neither a transfer nor a post phase. -/
theorem State.queryRuns_eq_false {s : State} : s.queryRuns = false ↔ s.q.state ≠ .xfer ∧ s.q.state ≠ .post := by
  simp [State.queryRuns]

/-! ### The events of ENC, RXP and RDEC -/

theorem State.Inv.encStart {s : State} {bodyLen total : Nat} (h : s.Inv) (hbody : bodyLen < 2 ^ s.params.lenW)
    (htotal : total < 2 ^ s.params.lenW) : (s.encStart bodyLen total).Inv :=
  h.setEnc (h.enc.start hbody htotal)

theorem State.Inv.encEmit {s : State} (h : s.Inv) (body : Option Byte) : (s.encEmit body).Inv :=
  h.setEnc (h.enc.emit body)

theorem State.Inv.emits {s : State} (h : s.Inv) (body : List Byte) (n : Nat) : (State.emits body n s).Inv := by
  induction n generalizing s with
  | zero => exact h
  | succ n ih => exact ih (h.encEmit _)

theorem State.Inv.rxStart {s : State} (h : s.Inv) (hfree : s.queryRuns = false) : s.rxStart.Inv := by
  obtain ⟨hxfer, hpost⟩ := State.queryRuns_eq_false.mp hfree
  exact h.setRxp h.memory (Rxp.Inv.started _) (fun hs => absurd hs hxfer) (fun hs => absurd hs hpost)

/-- In a post phase RXP has its verdict, which bytes and an end leave. -/
theorem State.Inv.rxp_resting {s : State} (h : s.Inv) (hs : s.q.state = .post) : s.rxp.Resting := by
  obtain ⟨-, -, hverdict, -⟩ := h.query.atPost hs
  exact .inr hverdict

/-- Through a transfer RXP has a parse in progress. -/
theorem State.Inv.rxp_started {s : State} (h : s.Inv) (hs : s.q.state = .xfer) : s.rxp.state ≠ .idle := by
  obtain ⟨-, -, hrxp, -⟩ := h.query.atXfer hs
  exact hrxp

theorem State.Inv.rxByte {s t : State} {b : Byte} (h : s.Inv) (ht : s.rxByte b = .next t) : t.Inv := by
  have hrxp : t.rxp.Inv t.pbuf := State.rxByte_keeps_rxpInv h.rxp ht
  have hxfer (hs : s.q.state = .xfer) : (s.rxp.byte b).state ≠ .idle := Rxp.byte_state_ne_idle (h.rxp_started hs) b
  have hpost (hs : s.q.state = .post) : s.rxp.byte b = s.rxp := Rxp.byte_of_resting (h.rxp_resting hs) b
  rcases State.rxByte_eq_next.mp ht with ⟨-, rfl⟩ | ⟨a, -, ha, rfl⟩
  · exact h.setRxp h.memory hrxp hxfer hpost
  · exact h.setRxp (Memory.wf_write _ b h.memory ha) hrxp hxfer hpost

theorem State.Inv.rxEnd {s : State} (h : s.Inv) : s.rxEnd.Inv := by
  refine h.setRxp h.memory h.rxp.finish (fun hs => ?_) (fun hs => Rxp.finish_of_resting (h.rxp_resting hs))
  rcases Rxp.finish_state (h.rxp_started hs) with hok | hfail
  · simp [hok]
  · simp [hfail]

theorem State.Inv.feed {bs : List Byte} {s t : State} (h : s.Inv) (ht : State.feed bs s = .next t) : t.Inv := by
  induction bs generalizing s with
  | nil => cases ht; exact h
  | cons b bs ih =>
    obtain ⟨u, hu, ht⟩ := andThen_eq_next.mp ht
    exact ih (h.rxByte hu) ht

theorem State.Inv.parse {raw : List Byte} {s t : State} (h : s.Inv) (hfree : s.queryRuns = false)
    (ht : s.parse raw = .next t) : t.Inv := by
  obtain ⟨u, hu, ht⟩ := andThen_eq_next.mp ht
  cases ht
  exact ((h.rxStart hfree).feed hu).rxEnd

theorem State.Inv.rdStart {s : State} (h : s.Inv) (hfree : s.queryRuns = false) (len : Half) : (s.rdStart len).Inv := by
  obtain ⟨hxfer, hpost⟩ := State.queryRuns_eq_false.mp hfree
  exact h.setRdec (Rdec.Inv.started len) (fun hs => absurd hs hxfer) (fun hs => absurd hs hpost)

/-- A running RDEC in its post phase reads the reply of a GET_INFO (R98). -/
theorem State.Inv.post_running {s : State} (h : s.Inv) (hs : s.q.state = .post) (hr : s.rdec.state = .run) :
    s.q.cmd = .getInfo ∧ s.rxp.state = .ok ∧ s.rdec.len = s.rxp.length := by
  obtain ⟨-, -, -, hidle | hread⟩ := h.query.atPost hs
  · simp [hr] at hidle
  · exact hread

theorem State.Inv.rdByte {s t : State} {b : Byte} (h : s.Inv) (ht : s.rdByte b = .next t) : t.Inv := by
  have hxfer (hrun : s.rdec.state = .run) (hs : s.q.state = .xfer) : False := by
    obtain ⟨-, -, -, hreset⟩ := h.query.atXfer hs
    simp [hreset, Rdec.reset] at hrun
  rcases State.rdByte_eq_next.mp ht with ⟨-, rfl⟩ | ⟨hrun, hend, rfl⟩ | ⟨f, hrun, hend, -, rfl⟩
  · exact h
  · exact h.setRdec (h.rdec.raise_truncated hrun hend) (fun hs => (hxfer hrun hs).elim)
      (fun hs => .inr (h.post_running hs hrun))
  · exact h.setRdec (h.rdec.take hrun hend f b) (fun hs => (hxfer hrun hs).elim)
      (fun hs => .inr (h.post_running hs hrun))

theorem State.Inv.cursorSteps {payload : List Byte} {n : Nat} {s t : State} (h : s.Inv)
    (ht : State.cursorSteps payload n s = .next t) : t.Inv := by
  induction n generalizing s with
  | zero => cases ht; exact h
  | succ n ih =>
    obtain ⟨u, hu, ht⟩ := andThen_eq_next.mp ht
    exact ih (h.rdByte hu) ht

end Sys2Proof.Machine
end

section
/-! PROOFS. QSEQ's events, whole queries, every instruction and every step keep the invariant of the machine
(spec/10_state.md R22, R39), which holds right after reset. -/

namespace Sys2Proof.Machine

/-! ### The start of a query by case (spec/44_commands.md R94) -/

/-- A start while a query runs has no effect. -/
theorem State.qStart_of_running {s : State} (h : s.qReady = false) (cmd : Cmd) (total randLen sigLen : Nat) :
    s.qStart cmd total randLen sigLen = s := by
  simp [State.qStart, h]

/-- A rejected start: the results of the last query vanish, and the error stands in `Q_DONE`. -/
theorem State.qStart_of_rejected {s : State} {cmd : Cmd} {total randLen sigLen : Nat} (h : s.qReady = true)
    (hrej : startRejected s.params cmd total randLen sigLen = true) :
    s.qStart cmd total randLen sigLen =
      { s with
        rxp := .reset, rdec := .reset
        q := .taken cmd total randLen sigLen .done (codeOf .invalidLength) } := by
  simp [State.qStart, h, hrej, State.raise, Qseq.raise, Qseq.taken]

/-- An accepted start: ENC and RXP are started, and the transfer begins. -/
theorem State.qStart_of_accepted {s : State} {cmd : Cmd} {total randLen sigLen : Nat} (h : s.qReady = true)
    (hacc : startRejected s.params cmd total randLen sigLen = false) :
    s.qStart cmd total randLen sigLen =
      { s with
        enc := s.enc.start (Config.fixedBodyLen + dataLenOf cmd randLen sigLen) total
        txFrame := if s.enc.state = .idle then [] else s.txFrame
        rxp := .started, rdec := .reset
        q := .taken cmd total randLen sigLen .xfer 0 } := by
  simp [State.qStart, h, hacc, State.encStart, State.rxStart]

/-- The body of an accepted start fits its transfer. -/
theorem body_fits_of_accepted {p : Params} {cmd : Cmd} {total randLen sigLen : Nat}
    (h : startRejected p cmd total randLen sigLen = false) :
    Config.fixedBodyLen + dataLenOf cmd randLen sigLen + 2 ≤ total := by
  simp only [startRejected, Bool.or_eq_false_iff, decide_eq_false_iff_not] at h
  obtain ⟨-, hfits⟩ := h
  omega

/-! ### QSEQ's events keep the invariant -/

/-- A length that QSEQ keeps for NEGOTIATE alone stands on its port when the length offered does. -/
theorem kept_lt {cmd : Cmd} {n w : Nat} (h : n < 2 ^ w) : (if cmd = .negotiate then n else 0) < 2 ^ w := by
  split
  · exact h
  · exact Nat.two_pow_pos w

/-- What a start leaves in QSEQ's registers, once it has left `Q_IDLE`: its lengths on their ports, none but NEGOTIATE's
kept. -/
theorem State.Inv.takeQuery {s : State} {cmd : Cmd} {total randLen sigLen : Nat} {st : QState} {code : BitVec 3}
    (h : s.Inv) (htotal : total < 2 ^ s.params.lenW) (hrand : randLen < 2 ^ s.params.lenW)
    (hsig : sigLen < 2 ^ s.params.lenW) (hcode : code.toNat ≤ 6) (hidle : st ≠ .idle) (hpost : st ≠ .post)
    (hxfer : st = .xfer → 0 < total ∧ code = 0 ∧ s.rxp.state ≠ .idle ∧ s.rdec = .reset) :
    ({ s with q := .taken cmd total randLen sigLen st code } : State).Inv where
  params := h.params
  memory := h.memory
  enc := h.enc
  rxp := h.rxp
  rdec := h.rdec
  query :=
    { codes := hcode
      widths := ⟨Nat.zero_le _, htotal, kept_lt hrand, kept_lt hsig⟩
      argsOfNegotiate := fun hcmd => ⟨if_neg hcmd, if_neg hcmd⟩
      atIdle := fun hs => absurd hs hidle
      atXfer := hxfer
      atPost := fun hs => absurd hs hpost }

/-- QSEQ is ready while no query runs. -/
theorem State.not_running_of_qReady {s : State} (h : s.qReady = true) : s.q.state ≠ .xfer ∧ s.q.state ≠ .post := by
  unfold State.qReady at h
  constructor <;> intro hs <;> simp [hs] at h

theorem State.Inv.qStart {s : State} {cmd : Cmd} {total randLen sigLen : Nat} (h : s.Inv)
    (htotal : total < 2 ^ s.params.lenW) (hrand : randLen < 2 ^ s.params.lenW) (hsig : sigLen < 2 ^ s.params.lenW) :
    (s.qStart cmd total randLen sigLen).Inv := by
  cases hready : s.qReady with
  | false => rwa [State.qStart_of_running hready]
  | true =>
    obtain ⟨hxfer, hpost⟩ := State.not_running_of_qReady hready
    have hcleared (r : Rxp) (hr : r.Inv s.pbuf) : ({ s with rxp := r, rdec := .reset } : State).Inv :=
      (h.setRxp h.memory hr (fun hs => absurd hs hxfer) (fun hs => absurd hs hpost)).setRdec Rdec.Inv.reset
        (fun _ => rfl) (fun hs => absurd hs hpost)
    cases hrej : startRejected s.params cmd total randLen sigLen with
    | true =>
      rw [State.qStart_of_rejected hready hrej]
      exact (hcleared .reset (Rxp.Inv.reset _)).takeQuery htotal hrand hsig (by decide) nofun nofun nofun
    | false =>
      have hfits := body_fits_of_accepted hrej
      rw [State.qStart_of_accepted hready hrej]
      have hstarted := (hcleared .started (Rxp.Inv.started _)).takeQuery (cmd := cmd) (st := .xfer) (code := 0) htotal
        hrand hsig (by decide) nofun nofun (fun _ => ⟨by omega, rfl, nofun, rfl⟩)
      exact hstarted.setEnc (h.enc.start (by omega) htotal)

/-- A slot is counted; after the last one RXP must have its verdict. -/
theorem State.Inv.counted {s : State} (h : s.Inv) (hs : s.q.state = .xfer)
    (hlast : s.q.slot + 1 = s.q.total → s.rxp.state = .ok ∨ s.rxp.state = .fail) :
    ({ s with q := s.q.counted } : State).Inv := by
  obtain ⟨hslot, herr, hrxp, hrdec⟩ := h.query.atXfer hs
  obtain ⟨-, hwidths⟩ := h.query.widths
  have hwidths' : s.q.counted.slot ≤ s.q.total ∧ _ := ⟨hslot, hwidths⟩
  have hst : s.q.counted.state = if s.q.slot + 1 = s.q.total then .post else .xfer := by simp [Qseq.counted, hs]
  refine { params := h.params, memory := h.memory, enc := h.enc, rxp := h.rxp, rdec := h.rdec, query := ?_ }
  by_cases hend : s.q.slot + 1 = s.q.total
  · rw [if_pos hend] at hst
    exact {
      codes := h.query.codes, widths := hwidths', argsOfNegotiate := h.query.argsOfNegotiate
      atIdle := by simp [hst], atXfer := by simp [hst]
      atPost := fun _ => ⟨hend, herr, hlast hend, .inl (by simp [hrdec, Rdec.reset])⟩ }
  · rw [if_neg hend] at hst
    exact {
      codes := h.query.codes, widths := hwidths', argsOfNegotiate := h.query.argsOfNegotiate
      atIdle := by simp [hst], atPost := by simp [hst]
      atXfer := fun _ => ⟨by simp only [Qseq.counted]; omega, herr, hrxp, hrdec⟩ }

/-- A slot takes ENC's byte in a transfer alone. -/
theorem State.xfer_of_slotTx {s : State} {arg : Option Byte} (h : (s.slotTx arg).isSome = true) : s.q.state = .xfer := by
  by_contra hs
  simp [State.slotTx, hs] at h

/-- A byte step leaves QSEQ alone. -/
theorem State.rxByte_q {s t : State} {b : Byte} (h : s.rxByte b = .next t) : t.q = s.q := by
  rcases State.rxByte_eq_next.mp h with ⟨-, rfl⟩ | ⟨_, -, -, rfl⟩ <;> rfl

theorem State.Inv.qSlot {s t : State} {arg : Option Byte} {rx : Byte} (h : s.Inv) (ht : s.qSlot arg rx = .next t) :
    t.Inv := by
  rcases State.qSlot_eq_next.mp ht with ⟨-, rfl⟩ | ⟨htx, u, hu, rfl⟩
  · exact h
  · have hq : u.q = s.q := (State.rxByte_q hu).trans (State.encEmit_q s _)
    have hxfer : u.q.state = .xfer := by rw [hq]; exact State.xfer_of_slotTx htx
    have hu : u.Inv := (h.encEmit _).rxByte hu
    split
    case isTrue hlast => exact hu.rxEnd.counted hxfer (fun _ => Rxp.finish_state (hu.rxp_started hxfer))
    case isFalse hmore => exact hu.counted hxfer (fun hlast => absurd (hq ▸ hlast) hmore)

theorem State.Inv.qXferErr {s : State} (h : s.Inv) : s.qXferErr.Inv := by
  unfold State.qXferErr
  split
  · exact (((h.endQuery (by decide)).setEnc (Enc.Inv.reset _ s.txFrame)).setRxp h.memory (Rxp.Inv.reset _) nofun
      nofun).setRdec Rdec.Inv.reset nofun nofun
  · exact h

/-- The post step of a good reply of GET_INFO starts RDEC (R98). -/
theorem State.Inv.rdStart_post {s : State} (h : s.Inv) (hs : s.q.state = .post) (hcmd : s.q.cmd = .getInfo)
    (hok : s.rxFail = false) : (s.rdStart s.rxp.length).Inv := by
  obtain ⟨-, -, hverdict, -⟩ := h.query.atPost hs
  have hgood : s.rxp.state = .ok := hverdict.resolve_right (by simpa [State.rxFail] using hok)
  exact h.setRdec (Rdec.Inv.started _) (by simp [hs]) (fun _ => .inr ⟨hcmd, hgood, rfl⟩)

theorem State.Inv.qPost {s t : State} (h : s.Inv) (ht : s.qPost = .next t) : t.Inv := by
  have hfinish : s.qFinish.Inv := h.endQuery (by decide)
  have htruncated : (s.raise .qseq .truncated).Inv := h.endQuery (code := codeOf .truncated) (by decide)
  unfold State.qPost at ht
  split at ht
  case isFalse => cases ht; exact h
  case isTrue hs =>
    cases hr : s.rdec.state <;> simp only [hr] at ht
    case run => exact h.rdByte ht
    case ok => cases ht; exact hfinish
    case fail => cases ht; exact htruncated
    case idle =>
      cases hf : s.rxFail <;> simp only [hf] at ht
      case true => cases ht; exact h.endQuery h.rxp.err_le
      case false =>
        cases hcmd : s.q.cmd <;> simp only [hcmd] at ht
        case getMsCert => cases ht; exact hfinish
        case getTermCert => cases ht; exact hfinish
        case getInfo => cases ht; exact h.rdStart_post hs hcmd hf
        case negotiate =>
          by_cases hshort : s.rxp.length < 48
          · rw [if_pos hshort] at ht; cases ht; exact htruncated
          · rw [if_neg hshort] at ht; cases ht; exact hfinish

/-! ### Whole operations -/

theorem State.Inv.slots {tx : List Byte} {answers : List Answer} {s t : State} (h : s.Inv)
    (ht : State.slots tx answers s = .next t) : t.Inv := by
  induction answers generalizing s with
  | nil => cases ht; exact h.bookkeeping s.acc s.inbox [] s.ret
  | cons a answers ih =>
    unfold State.slots at ht
    split at ht
    case isFalse => cases ht; exact h.bookkeeping s.acc s.inbox _ s.ret
    case isTrue =>
      cases a with
      | xferErr => cases ht; exact h.qXferErr.bookkeeping _ _ answers _
      | rx b =>
        dsimp only at ht
        split at ht
        · obtain ⟨u, hu, ht⟩ := andThen_eq_next.mp ht
          exact ih (h.qSlot hu) ht
        · cases ht; exact h.bookkeeping s.acc s.inbox _ s.ret

theorem State.Inv.posts {n : Nat} {s t : State} (h : s.Inv) (ht : State.posts n s = .next t) : t.Inv := by
  induction n generalizing s with
  | zero => cases ht; exact h
  | succ n ih =>
    unfold State.posts at ht
    split at ht
    · obtain ⟨u, hu, ht⟩ := andThen_eq_next.mp ht
      exact ih (h.qPost hu) ht
    · cases ht; exact h

/-- A length that its port can express. -/
theorem Params.fits_iff {p : Params} {n : Nat} : p.fits n = true ↔ n < 2 ^ p.lenW := by
  simp [Params.fits]

theorem State.Inv.wholeQuery {s t : State} {cmd : Cmd} {total : Nat} {rand sig : List Byte} (h : s.Inv)
    (ht : s.wholeQuery cmd total rand sig = .next t) : t.Inv := by
  obtain ⟨hfits, ht⟩ := whenFits_eq_next.mp ht
  simp only [List.all_cons, List.all_nil, Bool.and_eq_true, Params.fits_iff] at hfits
  obtain ⟨htotal, hrand, hsig, -⟩ := hfits
  split at ht
  · obtain ⟨u, hu, ht⟩ := andThen_eq_next.mp ht
    obtain ⟨v, hv, ht⟩ := andThen_eq_next.mp ht
    cases ht
    exact (((h.qStart htotal hrand hsig).slots hu).posts hv).bookkeeping v.acc v.inbox v.env _
  · cases ht; exact h

theorem State.Inv.transferOp {s t : State} {tx : List Byte} {length : Nat} (h : s.Inv)
    (ht : s.transferOp tx length = .next t) : t.Inv := by
  unfold State.transferOp at ht
  split at ht
  · obtain ⟨u, hu, ht⟩ := andThen_eq_next.mp ht
    cases ht
    exact (h.slots hu).bookkeeping u.acc u.inbox _ _
  · split at ht <;> cases ht <;> exact h.bookkeeping s.acc s.inbox _ _

theorem State.Inv.decodeOp {s t : State} {raw : List Byte} (h : s.Inv) (ht : s.decodeOp raw = .next t) : t.Inv := by
  obtain ⟨hfree, ht⟩ := whenFree_eq_next.mp ht
  obtain ⟨u, hu, ht⟩ := andThen_eq_next.mp ht
  cases ht
  exact (h.parse hfree hu).bookkeeping u.acc u.inbox u.env _

theorem State.Inv.execEncode {s t : State} {body : List Byte} {total : Nat} (h : s.Inv)
    (ht : execEncode body total s = .next t) : t.Inv := by
  obtain ⟨-, ht⟩ := whenFree_eq_next.mp ht
  split at ht
  · dsimp only at ht
    split at ht
    case isTrue hfits =>
      simp only [Bool.and_eq_true, Params.fits_iff] at hfits
      obtain ⟨hbody, htotal⟩ := hfits
      cases ht
      exact ((h.encStart hbody htotal).emits body total).bookkeeping _ _ _ _
    case isFalse => cases ht; exact h.bookkeeping s.acc s.inbox s.env _
  · cases ht; exact h

theorem State.Inv.execDecodeInfo {s t : State} {payload : List Byte} (h : s.Inv)
    (ht : execDecodeInfo payload s = .next t) : t.Inv := by
  obtain ⟨hfree, ht⟩ := whenFree_eq_next.mp ht
  dsimp only at ht
  split at ht
  · obtain ⟨u, hu, ht⟩ := andThen_eq_next.mp ht
    cases ht
    exact ((h.rdStart hfree _).cursorSteps hu).bookkeeping u.acc u.inbox u.env _
  · cases ht; exact h.bookkeeping s.acc s.inbox s.env _

theorem State.Inv.rstAll {s : State} (h : s.Inv) : s.rstAll.Inv where
  params := h.params
  memory := h.memory
  enc := Enc.Inv.reset _ _
  rxp := Rxp.Inv.reset _
  rdec := Rdec.Inv.reset
  query := .of_reset rfl

theorem State.Inv.execRxByte {s t : State} {b : Byte} {atEnd : Bool} (h : s.Inv)
    (ht : execRxByte b atEnd s = .next t) : t.Inv := by
  obtain ⟨-, ht⟩ := whenFree_eq_next.mp ht
  obtain ⟨u, hu, ht⟩ := andThen_eq_next.mp ht
  cases ht
  split
  · exact (h.rxByte hu).rxEnd
  · exact h.rxByte hu

theorem State.Inv.execEncStart {s t : State} {bodyLen total : Nat} (h : s.Inv)
    (ht : execEncStart bodyLen total s = .next t) : t.Inv := by
  obtain ⟨-, ht⟩ := whenFree_eq_next.mp ht
  obtain ⟨hfits, ht⟩ := whenFits_eq_next.mp ht
  simp only [List.all_cons, List.all_nil, Bool.and_eq_true, Params.fits_iff] at hfits
  obtain ⟨hbody, htotal, -⟩ := hfits
  cases ht
  exact h.encStart hbody htotal

theorem State.Inv.execQStart {s t : State} {cmd : Cmd} {total randLen sigLen : Nat} (h : s.Inv)
    (ht : execQStart cmd total randLen sigLen s = .next t) : t.Inv := by
  obtain ⟨hfits, ht⟩ := whenFits_eq_next.mp ht
  simp only [List.all_cons, List.all_nil, Bool.and_eq_true, Params.fits_iff] at hfits
  obtain ⟨htotal, hrand, hsig, -⟩ := hfits
  cases ht
  exact h.qStart htotal hrand hsig

/-! ### Every instruction, every step -/

/-- An instruction that answers a next state answers one that meets the invariant. -/
theorem State.Inv.exec {i : Instr} {s t : State} (h : s.Inv) (ht : exec i s = .next t) : t.Inv := by
  cases i with
  | getMsCert total => exact h.wholeQuery ht
  | getTermCert total => exact h.wholeQuery ht
  | getInfo total => exact h.wholeQuery ht
  | negotiate total rand sig => exact h.wholeQuery ht
  | query cmd total rand sig => exact h.wholeQuery ht
  | transfer tx length => exact h.transferOp ht
  | responseFrame rest => exact h.decodeOp ht
  | decode raw => exact h.decodeOp ht
  | xorfold bytes => cases ht; exact h.bookkeeping s.acc s.inbox s.env _
  | checksum bytes => cases ht; exact h.bookkeeping _ s.inbox s.env _
  | hex bytes => cases ht; exact h.bookkeeping s.acc s.inbox s.env _
  | csClear => cases ht; exact h.bookkeeping _ s.inbox s.env s.ret
  | csAbsorb b => cases ht; exact h.bookkeeping _ s.inbox s.env s.ret
  | encode body total => exact h.execEncode ht
  | encStart bodyLen total => exact h.execEncStart ht
  | encEmit body => obtain ⟨-, ht⟩ := whenFree_eq_next.mp ht; cases ht; exact h.encEmit body
  | rxStart => obtain ⟨hfree, ht⟩ := whenFree_eq_next.mp ht; cases ht; exact h.rxStart hfree
  | rxByte b atEnd => exact h.execRxByte ht
  | rxEnd => obtain ⟨-, ht⟩ := whenFree_eq_next.mp ht; cases ht; exact h.rxEnd
  | decodeInfo payload => exact h.execDecodeInfo ht
  | rdStart len => obtain ⟨hfree, ht⟩ := whenFree_eq_next.mp ht; cases ht; exact h.rdStart hfree len
  | rdByte b => obtain ⟨-, ht⟩ := whenFree_eq_next.mp ht; exact h.rdByte ht
  | rst => cases ht; exact h.rstAll
  | qStart cmd total randLen sigLen => exact h.execQStart ht
  | qSlot arg rx => exact h.qSlot ht
  | qXferErr => cases ht; exact h.qXferErr
  | qPost => exact h.qPost ht

/-- The block's own event keeps the invariant. -/
theorem State.Inv.ownEvent {before s t : State} {driven : Bool} (h : s.Inv)
    (ht : before.ownEvent driven s = .next t) : t.Inv := by
  rcases State.ownEvent_eq_next ht with ⟨-, ht⟩ | ⟨-, -, -, ht⟩ | ⟨-, -, rfl⟩
  · exact h.qPost ht
  · exact h.rdByte ht
  · exact h

/-- Settles O59: taking the offer, the instruction it decodes to, and the block's own event each keep the invariant. -/
theorem everyStepKeepsTheInvariant : Obligations.EveryStepKeepsTheInvariant := by
  intro s t h ht
  rcases step_eq_next ht with ⟨-, ht⟩ | ⟨o, rest, -, hcase⟩
  · exact h.ownEvent ht
  · have htaken : ({ s with inbox := rest } : State).Inv := h.bookkeeping s.acc rest s.env s.ret
    rcases hcase with ⟨-, ht⟩ | ⟨-, ht⟩ | ⟨i, u, -, -, hu, ht⟩
    · exact htaken.ownEvent ht
    · exact htaken.ownEvent ht
    · exact (htaken.exec hu).ownEvent ht

/-- The invariant right after reset, at parameters R8 admits. -/
theorem State.Inv.resetAt {p : Params} (hp : p.admissible = true) : (State.resetAt p).Inv where
  params := hp
  memory := Memory.wf_reset p
  enc := Enc.Inv.reset p []
  rxp := Rxp.Inv.reset []
  rdec := Rdec.Inv.reset
  query := .of_reset rfl

/-- Settles O58: each sub-block's reset values meet its invariant. -/
theorem invariantHoldsAtReset : Obligations.InvariantHoldsAtReset :=
  ⟨fun _ hp => State.Inv.resetAt hp, State.Inv.resetAt rfl⟩

end Sys2Proof.Machine
end

section
/-! PROOFS. What the payload buffer shows: the byte a step stores (spec/10_state.md R18), the gating of the read port
(R24, R78), and that a parse hides what the buffer held before it (R28). -/

namespace Sys2Proof.Machine

/-! ### The one byte a step stores -/

/-- A byte step while no query runs, with or without the end in the same step: the end leaves the payload buffer. -/
theorem exec_rxByte_eq_next {b : Byte} {atEnd : Bool} {s t : State} (h : exec (.rxByte b atEnd) s = .next t) :
    ∃ u, s.rxByte b = .next u ∧ t.pbuf = u.pbuf := by
  obtain ⟨-, ht⟩ := whenFree_eq_next.mp h
  obtain ⟨u, hu, ht⟩ := andThen_eq_next.mp ht
  refine ⟨u, hu, ?_⟩
  cases ht
  cases atEnd <;> rfl

/-- Settles O16: either nothing is stored, or `Memory.write` at the one offset RXP stores to. -/
theorem rxByteStoresAtTheCount : Obligations.RxByteStoresAtTheCount := by
  intro b atEnd s t ht a
  obtain ⟨u, hu, hpbuf⟩ := exec_rxByte_eq_next ht
  rw [hpbuf]
  rcases State.rxByte_eq_next.mp hu with ⟨hnone, rfl⟩ | ⟨k, hsome, -, rfl⟩
  · exact ⟨fun hat => by simp [hnone] at hat, fun _ => rfl⟩
  · rw [hsome]
    constructor
    · rintro ⟨rfl⟩
      exact Memory.read_write_same ..
    · intro hne
      exact Memory.read_write_other _ b fun heq => hne (congrArg some heq.symm)

/-! ### The read port -/

theorem State.plLen_of_ok {s : State} (h : s.rxp.state = .ok) : s.plLen = s.rxp.length := by
  simp [State.plLen, State.rxOk, h]

theorem State.plLen_of_not_ok {s : State} (h : s.rxp.state ≠ .ok) : s.plLen = 0 := by
  simp [State.plLen, State.rxOk, h]

theorem State.plData_of_not_ok {s : State} (h : s.rxp.state ≠ .ok) (a : Half) : s.plData a = 0x00 := by
  simp [State.plData, State.rxOk, h]

theorem State.plData_of_ge {s : State} {a : Half} (h : s.rxp.length ≤ a) : s.plData a = 0x00 := by
  have hnot : ¬ a < s.rxp.length := by bv_omega
  simp [State.plData, hnot]

theorem State.plData_of_lt {s : State} {a : Half} (h : s.rxp.state = .ok) (hlt : a < s.rxp.length) :
    s.plData a = pbufByte s.pbuf a.toNat := by
  simp [State.plData, State.rxOk, h, hlt]

/-- A byte written is what the buffer holds, whatever the free value is. -/
theorem read_eq_some_pbufByte {m : Memory} {a : Nat} (h : (Memory.read m a).isSome) :
    Memory.read m a = some (pbufByte m a) := by
  obtain ⟨b, hb⟩ := Option.isSome_iff_exists.mp h
  simp [pbufByte, hb]

/-- In `R_OK` the whole payload has been stored (R76). -/
theorem Rxp.Inv.cnt_of_ok {r : Rxp} {m : Memory} (h : r.Inv m) (hs : r.state = .ok) : r.cnt = r.length := by
  obtain ⟨-, hcnt, -, -⟩ := h.atOk hs
  exact hcnt

/-- Settles O24: the gates are the port's own conditions; below the length RXP's invariant says that each byte was
written. -/
theorem payloadIsGated : Obligations.PayloadIsGated := by
  refine ⟨fun s a hs => ⟨State.plLen_of_not_ok hs, State.plData_of_not_ok hs a⟩,
    fun s a hs => ⟨State.plLen_of_ok hs, State.plData_of_ge⟩, ?_⟩
  intro s a h hs ha
  have hbelow : a.toNat < s.rxp.cnt.toNat := by rwa [h.rxp.cnt_of_ok hs]
  rw [State.plData_of_lt hs ha]
  exact read_eq_some_pbufByte (h.rxp.written a.toNat hbelow)

/-! ### What a parse hides -/

/-- Two buffers that hold the same bytes below an offset. -/
def Memory.AgreeBelow (n : Nat) (m m' : Memory) : Prop := ∀ a, a < n → Memory.read m a = Memory.read m' a

theorem Memory.AgreeBelow.mono {n k : Nat} {m m' : Memory} (h : Memory.AgreeBelow n m m') (hk : k ≤ n) :
    Memory.AgreeBelow k m m' :=
  fun a ha => h a (Nat.lt_of_lt_of_le ha hk)

/-- The same byte written at the offset extends the agreement. -/
theorem Memory.AgreeBelow.write {n : Nat} {m m' : Memory} (h : Memory.AgreeBelow n m m') (b : Byte) :
    Memory.AgreeBelow (n + 1) (Memory.write m n b) (Memory.write m' n b) := by
  intro a ha
  by_cases hat : a = n
  · simp [hat]
  · rw [Memory.read_write_other m b hat, Memory.read_write_other m' b hat]
    exact h a (by omega)

/-- A byte step from two states that differ in the buffer alone, and there in nothing the parse has stored, ends in two
such states. -/
theorem State.rxByte_agree {s t u : State} {m : Memory} {b : Byte}
    (h : Memory.AgreeBelow s.rxp.cnt.toNat s.pbuf m) (ht : s.rxByte b = .next t)
    (hu : ({ s with pbuf := m } : State).rxByte b = .next u) :
    ∃ m', u = { t with pbuf := m' } ∧ Memory.AgreeBelow t.rxp.cnt.toNat t.pbuf m' := by
  rcases State.rxByte_eq_next.mp ht with ⟨hnone, rfl⟩ | ⟨a, hsome, -, rfl⟩ <;>
    rcases State.rxByte_eq_next.mp hu with ⟨hnone', rfl⟩ | ⟨a', hsome', -, rfl⟩
  · refine ⟨m, rfl, h.mono ?_⟩
    rcases Rxp.byte_cnt s.rxp b with ⟨hst, -⟩ | ⟨-, hcnt | hcnt⟩
    · exact absurd hst (Rxp.storeAt_eq_none.mp hnone)
    · simp [hcnt]
    · simp [hcnt]
  · simp [hnone] at hsome'
  · simp [hsome] at hnone'
  · obtain ⟨hst, rfl⟩ := Rxp.storeAt_eq_some.mp hsome
    obtain ⟨-, rfl⟩ := Rxp.storeAt_eq_some.mp hsome'
    refine ⟨_, rfl, (h.write b).mono ?_⟩
    rcases Rxp.byte_cnt s.rxp b with ⟨-, hcnt⟩ | ⟨hne, -⟩
    · simp only [hcnt]
      bv_omega
    · exact absurd hst hne

theorem State.feed_agree {bs : List Byte} {s t u : State} {m : Memory}
    (h : Memory.AgreeBelow s.rxp.cnt.toNat s.pbuf m) (ht : State.feed bs s = .next t)
    (hu : State.feed bs { s with pbuf := m } = .next u) :
    ∃ m', u = { t with pbuf := m' } ∧ Memory.AgreeBelow t.rxp.cnt.toNat t.pbuf m' := by
  induction bs generalizing s m with
  | nil => cases ht; cases hu; exact ⟨m, rfl, h⟩
  | cons b bs ih =>
    obtain ⟨t₁, ht₁, ht⟩ := andThen_eq_next.mp ht
    obtain ⟨u₁, hu₁, hu⟩ := andThen_eq_next.mp hu
    obtain ⟨m₁, rfl, h₁⟩ := State.rxByte_agree h ht₁ hu₁
    exact ih h₁ ht hu

/-- A whole parse forgets the old buffer: it ends in states that differ in the buffer alone, above what was stored, and
RXP meets its invariant whatever the state before. -/
theorem State.parse_agree {raw : List Byte} {s t u : State} {m : Memory} (ht : s.parse raw = .next t)
    (hu : ({ s with pbuf := m } : State).parse raw = .next u) :
    t.rxp.Inv t.pbuf ∧ ∃ m', u = { t with pbuf := m' } ∧ Memory.AgreeBelow t.rxp.cnt.toNat t.pbuf m' := by
  obtain ⟨t₁, ht₁, ht⟩ := andThen_eq_next.mp ht
  obtain ⟨u₁, hu₁, hu⟩ := andThen_eq_next.mp hu
  have hfresh : Memory.AgreeBelow s.rxStart.rxp.cnt.toNat s.rxStart.pbuf m := nofun
  obtain ⟨m', rfl, h₁⟩ := State.feed_agree (s := s.rxStart) hfresh ht₁ hu₁
  have hinv : t₁.rxp.Inv t₁.pbuf := State.feed_keeps_rxpInv (Rxp.Inv.started _) ht₁
  cases ht
  cases hu
  refine ⟨hinv.finish, m', rfl, ?_⟩
  rw [State.rxEnd_rxp, Rxp.finish_cnt]
  exact h₁

/-- The read port does not show the buffer above what the parse has stored. -/
theorem State.plData_agree {t : State} {m : Memory} (hinv : t.rxp.Inv t.pbuf)
    (h : Memory.AgreeBelow t.rxp.cnt.toNat t.pbuf m) (a : Half) :
    ({ t with pbuf := m } : State).plData a = t.plData a := by
  by_cases hs : t.rxp.state = .ok
  · by_cases ha : a < t.rxp.length
    · have hbelow : a.toNat < t.rxp.cnt.toNat := by rwa [hinv.cnt_of_ok hs]
      have hbyte : pbufByte m a.toNat = pbufByte t.pbuf a.toNat := by rw [pbufByte, pbufByte, h a.toNat hbelow]
      exact (State.plData_of_lt (s := { t with pbuf := m }) hs ha).trans (hbyte.trans (State.plData_of_lt hs ha).symm)
    · have hge : t.rxp.length ≤ a := by bv_omega
      exact (State.plData_of_ge (s := { t with pbuf := m }) hge).trans (State.plData_of_ge hge).symm
  · exact (State.plData_of_not_ok (s := { t with pbuf := m }) hs a).trans (State.plData_of_not_ok hs a).symm

/-- `pl_data` is the one output port that reads the payload buffer (R24). -/
theorem State.outputs_setPbuf (t : State) (m : Memory) (inp : PortInputs) :
    ({ t with pbuf := m } : State).outputs inp =
      { t.outputs inp with plData := ({ t with pbuf := m } : State).plData inp.plAddr } := rfl

/-- So no output port shows the buffer above what the parse has stored. -/
theorem State.outputs_agree {t : State} {m : Memory} (hinv : t.rxp.Inv t.pbuf)
    (h : Memory.AgreeBelow t.rxp.cnt.toNat t.pbuf m) (inp : PortInputs) :
    ({ t with pbuf := m } : State).outputs inp = t.outputs inp := by
  rw [State.outputs_setPbuf, State.plData_agree hinv h]
  rfl

/-- Settles O25: the two parses run alike, so their ends differ in buffer bytes that no port shows. -/
theorem oldBufferContentIsUnobservable : Obligations.OldBufferContentIsUnobservable := by
  intro raw m s t u _ ht hu
  obtain ⟨-, ht⟩ := whenFree_eq_next.mp ht
  obtain ⟨-, hu⟩ := whenFree_eq_next.mp hu
  obtain ⟨t₁, ht₁, ht⟩ := andThen_eq_next.mp ht
  obtain ⟨u₁, hu₁, hu⟩ := andThen_eq_next.mp hu
  obtain ⟨hinv, m', rfl, hagree⟩ := State.parse_agree ht₁ hu₁
  cases ht
  cases hu
  exact ⟨rfl, fun inp => (State.outputs_agree (t := { t₁ with ret := _ }) hinv hagree inp).symm⟩

end Sys2Proof.Machine
end

section
/-! PROOFS. The output ports (spec/10_state.md R23, R24) as functions of the registers, port by port, and their values
right after reset (R28). -/

namespace Sys2Proof.Machine

/-! ### Flags -/

theorem State.encReady_iff {s : State} : s.encReady = true ↔ s.enc.state = .idle := by simp [State.encReady]

theorem State.rxOk_iff {s : State} : s.rxOk = true ↔ s.rxp.state = .ok := by simp [State.rxOk]

theorem State.rxFail_iff {s : State} : s.rxFail = true ↔ s.rxp.state = .fail := by simp [State.rxFail]

theorem State.recValid_iff {s : State} : s.recValid = true ↔ s.rdec.state = .ok := by simp [State.recValid]

theorem State.rdFail_iff {s : State} : s.rdFail = true ↔ s.rdec.state = .fail := by simp [State.rdFail]

theorem State.qReady_iff {s : State} : s.qReady = true ↔ s.q.state = .idle ∨ s.q.state = .done := by
  simp [State.qReady]

theorem State.qDone_iff {s : State} : s.qDone = true ↔ s.q.state = .done := by simp [State.qDone]

/-! ### What ENC and the slots offer -/

/-- ENC offers a byte in every busy state, but while it waits for one of the body. -/
theorem Enc.tx_isSome_iff {e : Enc} {body : Option Byte} :
    (e.tx body).isSome = true ↔
      e.state = .sync ∨ e.state = .csum ∨ e.state = .pad ∨ (e.state = .body ∧ body.isSome = true) := by
  cases h : e.state <;> simp [Enc.tx, h]

theorem Enc.txLast_iff {e : Enc} {body : Option Byte} :
    e.txLast body = true ↔ (e.tx body).isSome = true ∧ e.idx + 1 = e.total := by
  simp [Enc.txLast]

/-- ENC's byte is taken by a slot that does not fail, during a transfer, and else when `tx_ready` is 1. -/
theorem State.txTaken_iff {s : State} {inp : PortInputs} :
    s.txTaken inp = true ↔
      if s.q.state = .xfer then inp.slotReady = true ∧ inp.xferErr = false else inp.txReady = true := by
  unfold State.txTaken
  split <;> simp

/-- Slots take ENC's bytes, during a transfer alone. -/
theorem State.slotTx_eq (s : State) (inp : PortInputs) :
    s.slotTx inp.arg = if s.q.state = .xfer then s.enc.tx (s.bodyOffered inp) else none := by
  unfold State.slotTx State.bodyOffered
  split <;> rfl

theorem State.wantsArg_iff {s : State} :
    s.wantsArg = true ↔
      s.q.state = .xfer ∧ s.enc.state = .body ∧ s.q.cmd = .negotiate ∧ Config.fixedBodyLen ≤ s.enc.idx - 1 := by
  simp [State.wantsArg, and_assoc]

/-! ### The length of the signature part -/

/-- A query that ended well with a NEGOTIATE reply: the one case in which `q_sig_out_len` shows a length (R93). -/
def State.ShowsSigLen (s : State) : Prop := s.q.state = .done ∧ s.q.err = 0 ∧ s.q.cmd = .negotiate

theorem State.qSigOutLen_of_shows {s : State} (h : s.ShowsSigLen) :
    s.qSigOutLen = if s.rxp.length < 48 then Config.sigOutLenBelowSplit s.rxp.length else s.rxp.length - 48 := by
  obtain ⟨hdone, herr, hcmd⟩ := h
  simp [State.qSigOutLen, State.qDone, hdone, herr, hcmd]

theorem State.qSigOutLen_of_hides {s : State} (h : ¬ s.ShowsSigLen) : s.qSigOutLen = 0 := by
  have hflag : ¬ (s.qDone && decide (s.q.err = 0) && decide (s.q.cmd = .negotiate)) = true := by
    simpa [State.ShowsSigLen, State.qDone, and_assoc] using h
  exact if_neg hflag

/-! ### Every output port -/

/-- Settles O2: each port is its flag's lemma, or a register itself. -/
theorem outputPortsInEveryState : Obligations.OutputPortsInEveryState := by
  intro s inp o xfer body slotTaken
  have hslot : s.slotTx inp.arg = if s.q.state = .xfer then s.enc.tx (s.bodyOffered inp) else none :=
    State.slotTx_eq s inp
  refine ⟨rfl, State.encReady_iff, ?bodyReady, Enc.tx_isSome_iff, ?txData, Enc.txLast_iff, rfl, rfl,
    State.rxOk_iff, State.rxFail_iff, rfl, rfl, rfl, rfl, rfl, rfl, ?plLen, ?plData, rfl,
    State.recValid_iff, State.rdFail_iff, rfl, ?record, ?argReady, ?slotValid, ?slotTx, ?slotLast,
    State.qReady_iff, State.qDone_iff, rfl, ?sigLen, ?sigLenBelow, State.qSigOutLen_of_hides⟩
  case bodyReady =>
    show (decide (s.enc.state = .body) && s.txTaken inp) = true ↔ _
    rw [Bool.and_eq_true, decide_eq_true_eq, State.txTaken_iff]
  case txData =>
    show (s.enc.tx (s.bodyOffered inp)).getD 0x00 = _
    unfold Enc.tx
    cases s.enc.state <;> rfl
  case plLen =>
    by_cases hs : s.rxp.state = .ok
    · rw [if_pos hs]; exact State.plLen_of_ok hs
    · rw [if_neg hs]; exact State.plLen_of_not_ok hs
  case plData =>
    show s.plData inp.plAddr = _
    split
    case isTrue h =>
      obtain ⟨hs, hlt⟩ := h
      exact State.plData_of_lt hs hlt
    case isFalse h =>
      by_cases hs : s.rxp.state = .ok
      · have hge : ¬ inp.plAddr < s.rxp.length := fun hlt => h ⟨hs, hlt⟩
        exact State.plData_of_ge (by bv_omega)
      · exact State.plData_of_not_ok hs _
  case record =>
    by_cases hs : s.rdec.state = .ok
    · rw [if_pos hs]; exact if_pos (State.recValid_iff.mpr hs)
    · rw [if_neg hs]; exact if_neg fun h => hs (State.recValid_iff.mp h)
  case argReady =>
    show (s.wantsArg && inp.arg.isSome && inp.slotReady && !inp.xferErr) = true ↔ _
    simp only [Bool.and_eq_true, Bool.not_eq_true', State.wantsArg_iff, and_assoc]
    rfl
  case slotValid =>
    show (s.slotTx inp.arg).isSome = true ↔ s.q.state = .xfer ∧ (s.enc.tx (s.bodyOffered inp)).isSome = true
    rw [hslot]
    split
    case isTrue hx => simp [hx]
    case isFalse hx => simp [hx]
  case slotTx =>
    show (s.slotTx inp.arg).getD 0x00 = if s.q.state = .xfer then (s.enc.tx (s.bodyOffered inp)).getD 0x00 else 0x00
    rw [hslot]
    split <;> rfl
  case slotLast =>
    show (decide (s.q.state = .xfer) && s.enc.txLast (s.composed inp.arg)) = true ↔
      s.q.state = .xfer ∧ s.enc.txLast (s.bodyOffered inp) = true
    rw [Bool.and_eq_true, decide_eq_true_eq]
    exact and_congr_right fun hx => by rw [State.bodyOffered, if_pos hx]
  case sigLen =>
    intro h hlong
    have hnot : ¬ s.rxp.length < 48 := by bv_omega
    exact (State.qSigOutLen_of_shows h).trans (if_neg hnot)
  case sigLenBelow =>
    intro h hshort
    exact (State.qSigOutLen_of_shows h).trans (if_pos hshort)

/-! ### Right after reset -/

/-- The checksum port over a cleared accumulator. -/
theorem csOut_csSeed : csOut 0x00 = 0xFF := by decide

/-- Settles O1: the registers are those of R28, and every port is computed from them; no port shows an input, since ENC
is idle and no transfer runs. -/
theorem resetValuesAndOutputs : Obligations.ResetValuesAndOutputs := by
  refine ⟨fun p inp => ⟨rfl, rfl, rfl, rfl, ?outputs⟩, fun _ _ _ => rfl, fun _ => rfl⟩
  case outputs =>
    rw [← csOut_csSeed]
    rfl

end Sys2Proof.Machine
end

section
/-! PROOFS. The step by what is offered (spec/10_state.md R14): one equation each for nothing, no strobe, `q_post` by name,
an instruction, and no frame; the block's own event stands beside them (R24, R98). -/

namespace Sys2Proof.Machine

/-! ### The step by offer -/

theorem step_of_empty {s : State} (h : s.inbox = []) : step s = s.ownEvent false s := by
  simp [step, h]

section Offered

variable {s : State} {o : Offer} {rest : List Offer}

theorem step_of_idle (hin : s.inbox = o :: rest) (hd : decode s.params s.view o = .idle) :
    step s = s.ownEvent o.drivesRdec { s with inbox := rest } := by
  simp [step, hin, hd]

theorem step_of_rejected {e : DecodeError} (hin : s.inbox = o :: rest) (hd : decode s.params s.view o = .rejected e) :
    step s = .refused (.undecodable e) := by
  simp [step, hin, hd]

theorem step_of_qPost (hin : s.inbox = o :: rest) (hd : decode s.params s.view o = .event .qPost) :
    step s = s.ownEvent false { s with inbox := rest } := by
  simp [step, hin, hd]

theorem step_of_event {i : Instr} (hin : s.inbox = o :: rest) (hd : decode s.params s.view o = .event i)
    (hi : i ≠ .qPost) : step s = andThen (exec i { s with inbox := rest }) (s.ownEvent o.drivesRdec) := by
  simp only [step, hin, hd]

end Offered

/-- An offer that drives RDEC's ports is not `q_post`, which has no port (R98). -/
theorem drivesRdec_of_decode_qPost {p : Params} {v : View} {o : Offer} (h : decode p v o = .event .qPost) :
    o.drivesRdec = false := by
  cases o with
  | wire bytes => rfl
  | call op => cases h; rfl
  | ports sample =>
    obtain ⟨rst, unit⟩ := sample
    cases unit with
    | rdec start len step data => cases rst <;> cases start <;> cases step <;> cases h
    | csg | enc | rxp | qseq => rfl

/-- Outside `Q_POST`, with RDEC not running or its ports driven, the step is the instruction. -/
theorem step_of_event_alone {s : State} {o : Offer} {rest : List Offer} {i : Instr} (hin : s.inbox = o :: rest)
    (hd : decode s.params s.view o = .event i) (hq : s.q.state ≠ .post)
    (hr : s.rdec.state ≠ .run ∨ o.drivesRdec = true) : step s = exec i { s with inbox := rest } := by
  by_cases hi : i = .qPost
  · subst hi
    have hr : s.rdec.state ≠ .run := hr.resolve_right (by simp [drivesRdec_of_decode_qPost hd])
    have hnone : exec .qPost { s with inbox := rest } = .next { s with inbox := rest } := State.qPost_outside hq
    rw [step_of_qPost hin hd, State.ownEvent_none hq (.inl hr), hnone]
  · have hnone : s.ownEvent o.drivesRdec = .next := funext fun _ => State.ownEvent_none hq hr
    rw [step_of_event hin hd hi, hnone, andThen_next_right]

/-- Outside `Q_POST`, with RDEC running on its wiring, the cursor step follows with the byte shown before the step. -/
theorem step_of_event_wired {s : State} {o : Offer} {rest : List Offer} {i : Instr} (hin : s.inbox = o :: rest)
    (hd : decode s.params s.view o = .event i) (hq : s.q.state ≠ .post) (hr : s.rdec.state = .run)
    (hdrive : o.drivesRdec = false) :
    step s = andThen (exec i { s with inbox := rest }) (fun t => t.rdByte s.wiredByte) := by
  by_cases hi : i = .qPost
  · subst hi
    have hnone : exec .qPost { s with inbox := rest } = .next { s with inbox := rest } := State.qPost_outside hq
    rw [step_of_qPost hin hd, State.ownEvent_wired hq hr, hnone, andThen_next]
  · have hwired : s.ownEvent o.drivesRdec = fun t => t.rdByte s.wiredByte := by
      rw [hdrive]
      exact funext fun _ => State.ownEvent_wired hq hr
    rw [step_of_event hin hd hi, hwired]

/-! ### A word offered in front of the others -/

theorem State.withFetchWord_inbox (s : State) (nbits w : Nat) :
    (s.withFetchWord nbits w).inbox = .wire (tableBytes nbits w) :: s.inbox := rfl

theorem State.withFetchWord_not_post (s : State) (nbits w : Nat) : (s.withFetchWord nbits w).q.state ≠ .post := by
  simp only [State.withFetchWord]
  split
  · simp
  · assumption

theorem State.decode_withFetchWord {s : State} {nbits w : Nat} {i : Instr}
    (h : decodeFrame s.params (tableBytes nbits w) = .ok i) :
    decode (s.withFetchWord nbits w).params (s.withFetchWord nbits w).view (.wire (tableBytes nbits w)) = .event i := by
  have hparams : (s.withFetchWord nbits w).params = s.params := rfl
  simp [decode, hparams, h]

/-- Settles O56: the step by offer, with the block's own event by the state before; a word offered by `withFetchWord` is
the case of a frame outside `Q_POST`. -/
theorem stepRunsTheDecodedInstruction : Obligations.StepRunsTheDecodedInstruction := by
  refine ⟨?offered, ?word⟩
  case offered =>
    intro s o rest i hin hd
    refine ⟨step_of_event_alone hin hd, step_of_event_wired hin hd, ?post, ?postByName⟩
    case post =>
      intro hq hi
      have hpost : s.ownEvent o.drivesRdec = exec .qPost := funext fun _ => State.ownEvent_post hq
      rw [step_of_event hin hd hi, hpost]
    case postByName =>
      rintro hq rfl
      rw [step_of_qPost hin hd, State.ownEvent_post hq]
      rfl
  case word =>
    intro s nbits w i hframe s'
    have hin := s.withFetchWord_inbox nbits w
    have hq := s.withFetchWord_not_post nbits w
    have hd := State.decode_withFetchWord hframe
    exact ⟨fun hr => step_of_event_alone hin hd hq (.inl hr), fun hr => step_of_event_wired hin hd hq hr rfl⟩

/-- Settles O57: without an instruction the step is the block's own event, or a refusal. -/
theorem stepWithoutAnInstruction : Obligations.StepWithoutAnInstruction := by
  refine ⟨?nothing, ?idle, fun s o rest e => step_of_rejected⟩
  case nothing =>
    intro s hin
    rw [step_of_empty hin]
    exact ⟨fun hq => State.ownEvent_post hq, fun hq hr => State.ownEvent_none hq (.inl hr),
      fun hq hr => State.ownEvent_wired hq hr⟩
  case idle =>
    intro s o rest hin hd
    rw [step_of_idle hin hd]
    exact ⟨fun hq => State.ownEvent_post hq, fun hq hr => State.ownEvent_none hq hr,
      fun hq hr hdrive => hdrive ▸ State.ownEvent_wired hq hr⟩

end Sys2Proof.Machine
end

section
/-! PROOFS. No step from a state of the invariant faults (spec/10_state.md R22, R39): the two accesses that can fault, a
payload byte stored and a record byte taken, are inside their bounds, and everything else is made of these two. -/

namespace Sys2Proof.Machine

/-! ### Outcomes without a fault -/

/-- An outcome that is no fault: a next state, or a refusal. -/
def NoFault (r : Result) : Prop := ∀ f, r ≠ .fault f

theorem safeStep_iff {s : State} : safeStep s ↔ NoFault (step s) := Iff.rfl

@[simp] theorem noFault_next (s : State) : NoFault (.next s) := nofun

@[simp] theorem noFault_refused (e : Refusal) : NoFault (.refused e) := nofun

/-- A sequence does not fault when its first part does not, nor the second from where the first ends. -/
theorem noFault_andThen {r : Result} {k : State → Result} (hr : NoFault r) (hk : ∀ t, r = .next t → NoFault (k t)) :
    NoFault (andThen r k) := by
  cases r with
  | next t => exact hk t rfl
  | fault f => exact absurd rfl (hr f)
  | refused e => exact noFault_refused e

theorem noFault_whenFree {s : State} {r : Result} (h : s.queryRuns = false → NoFault r) : NoFault (s.whenFree r) := by
  cases hruns : s.queryRuns with
  | true => simp [State.whenFree, hruns]
  | false => rw [whenFree_of_free hruns]; exact h hruns

theorem noFault_whenFits {s : State} {l : List Nat} {r : Result} (h : l.all s.params.fits = true → NoFault r) :
    NoFault (s.whenFits l r) := by
  unfold State.whenFits
  split
  case isTrue hfits => exact h hfits
  case isFalse => exact noFault_refused _

/-! ### The two accesses (R18, R136) -/

/-- The byte stored goes to an offset of `pbuf`. -/
theorem State.rxByte_noFault {s : State} (h : s.rxp.Inv s.pbuf) (b : Byte) : NoFault (s.rxByte b) := by
  unfold State.rxByte
  cases hstore : s.rxp.storeAt with
  | none => exact noFault_next _
  | some a =>
    simp only [if_pos (h.storeAt_lt hstore)]
    exact noFault_next _

/-- The cursor of a running RDEC names a field. -/
theorem State.rdByte_noFault {s : State} (h : s.rdec.Inv) (b : Byte) : NoFault (s.rdByte b) := by
  unfold State.rdByte
  split
  case isFalse => exact noFault_next _
  case isTrue hrun =>
    obtain ⟨hcur, -, -⟩ := h.atRun hrun
    obtain ⟨f, hf⟩ := Option.isSome_iff_exists.mp (fieldAt_isSome hcur)
    split
    · exact noFault_next _
    · simp only [hf]
      exact noFault_next _

/-! ### The runs of whole operations -/

theorem State.feed_noFault (bs : List Byte) {s : State} (h : s.rxp.Inv s.pbuf) : NoFault (State.feed bs s) := by
  induction bs generalizing s with
  | nil => exact noFault_next _
  | cons b bs ih => exact noFault_andThen (State.rxByte_noFault h b) fun _ ht => ih (State.rxByte_keeps_rxpInv h ht)

/-- A whole parse starts RXP afresh, so it does not fault from any state. -/
theorem State.parse_noFault (s : State) (raw : List Byte) : NoFault (s.parse raw) :=
  noFault_andThen (State.feed_noFault raw (Rxp.Inv.started _)) fun _ _ => noFault_next _

theorem State.cursorSteps_noFault (payload : List Byte) (n : Nat) {s : State} (h : s.Inv) :
    NoFault (State.cursorSteps payload n s) := by
  induction n generalizing s with
  | zero => exact noFault_next _
  | succ n ih => exact noFault_andThen (State.rdByte_noFault h.rdec _) fun _ ht => ih (h.rdByte ht)

theorem State.qSlot_noFault {s : State} (h : s.Inv) (arg : Option Byte) (rx : Byte) : NoFault (s.qSlot arg rx) := by
  unfold State.qSlot
  split
  · exact noFault_andThen (State.rxByte_noFault (h.encEmit _).rxp rx) fun _ _ => noFault_next _
  · exact noFault_next _

theorem State.slots_noFault (tx : List Byte) (answers : List Answer) {s : State} (h : s.Inv) :
    NoFault (State.slots tx answers s) := by
  induction answers generalizing s with
  | nil => exact noFault_next _
  | cons a answers ih =>
    unfold State.slots
    split
    case isFalse => exact noFault_next _
    case isTrue =>
      cases a with
      | xferErr => exact noFault_next _
      | rx b =>
        dsimp only
        split
        · exact noFault_andThen (State.qSlot_noFault h _ b) fun _ ht => ih (h.qSlot ht)
        · exact noFault_next _

/-- Of the post steps RDEC's cursor steps alone access anything. -/
theorem State.qPost_noFault {s : State} (h : s.Inv) : NoFault s.qPost := by
  unfold State.qPost
  split
  case isFalse => exact noFault_next _
  case isTrue =>
    cases s.rdec.state with
    | run => exact State.rdByte_noFault h.rdec _
    | ok => exact noFault_next _
    | fail => exact noFault_next _
    | idle =>
      dsimp only
      split
      case isTrue => exact noFault_next _
      case isFalse =>
        cases s.q.cmd with
        | getMsCert => exact noFault_next _
        | getTermCert => exact noFault_next _
        | getInfo => exact noFault_next _
        | negotiate => dsimp only; split <;> exact noFault_next _

theorem State.posts_noFault (n : Nat) {s : State} (h : s.Inv) : NoFault (State.posts n s) := by
  induction n generalizing s with
  | zero => exact noFault_next _
  | succ n ih =>
    unfold State.posts
    split
    · exact noFault_andThen (State.qPost_noFault h) fun _ ht => ih (h.qPost ht)
    · exact noFault_next _

/-! ### Whole operations -/

theorem State.wholeQuery_noFault {s : State} (h : s.Inv) (cmd : Cmd) (total : Nat) (rand sig : List Byte) :
    NoFault (s.wholeQuery cmd total rand sig) := by
  refine noFault_whenFits fun hfits => ?_
  simp only [List.all_cons, List.all_nil, Bool.and_eq_true, Params.fits_iff] at hfits
  obtain ⟨htotal, hrand, hsig, -⟩ := hfits
  have hstarted : (s.qStart cmd total rand.length sig.length).Inv := h.qStart htotal hrand hsig
  split
  · refine noFault_andThen (State.slots_noFault _ _ hstarted) fun t ht => ?_
    exact noFault_andThen (State.posts_noFault _ (hstarted.slots ht)) fun _ _ => noFault_next _
  · exact noFault_next _

theorem State.transferOp_noFault {s : State} (h : s.Inv) (tx : List Byte) (length : Nat) :
    NoFault (s.transferOp tx length) := by
  unfold State.transferOp
  split
  · exact noFault_andThen (State.slots_noFault _ _ h) fun _ _ => noFault_next _
  · split <;> exact noFault_next _

theorem State.decodeOp_noFault (s : State) (raw : List Byte) : NoFault (s.decodeOp raw) :=
  noFault_whenFree fun _ => noFault_andThen (s.parse_noFault raw) fun _ _ => noFault_next _

theorem execDecodeInfo_noFault {s : State} (h : s.Inv) (payload : List Byte) : NoFault (execDecodeInfo payload s) := by
  refine noFault_whenFree fun hfree => ?_
  dsimp only
  split
  · exact noFault_andThen (State.cursorSteps_noFault _ _ (h.rdStart hfree _)) fun _ _ => noFault_next _
  · exact noFault_next _

/-- ENC accesses neither the payload buffer nor the record. -/
theorem execEncode_noFault (s : State) (body : List Byte) (total : Nat) : NoFault (execEncode body total s) := by
  refine noFault_whenFree fun _ => ?_
  split
  · dsimp only
    split <;> exact noFault_next _
  · exact noFault_next _

/-! ### Every instruction, every step -/

theorem exec_noFault {s : State} (h : s.Inv) (i : Instr) : NoFault (exec i s) := by
  cases i with
  | getMsCert total => exact State.wholeQuery_noFault h _ _ _ _
  | getTermCert total => exact State.wholeQuery_noFault h _ _ _ _
  | getInfo total => exact State.wholeQuery_noFault h _ _ _ _
  | negotiate total rand sig => exact State.wholeQuery_noFault h _ _ _ _
  | query cmd total rand sig => exact State.wholeQuery_noFault h _ _ _ _
  | transfer tx length => exact State.transferOp_noFault h _ _
  | responseFrame rest => exact State.decodeOp_noFault _ _
  | decode raw => exact State.decodeOp_noFault _ _
  | encode body total => exact execEncode_noFault _ _ _
  | decodeInfo payload => exact execDecodeInfo_noFault h _
  | rxByte b atEnd =>
    exact noFault_whenFree fun _ => noFault_andThen (State.rxByte_noFault h.rxp b) fun _ _ => noFault_next _
  | rdByte b => exact noFault_whenFree fun _ => State.rdByte_noFault h.rdec b
  | qSlot arg rx => exact State.qSlot_noFault h _ _
  | qPost => exact State.qPost_noFault h
  | encStart bodyLen total => exact noFault_whenFree fun _ => noFault_whenFits fun _ => noFault_next _
  | qStart cmd total randLen sigLen => exact noFault_whenFits fun _ => noFault_next _
  | encEmit | rxStart | rxEnd | rdStart => exact noFault_whenFree fun _ => noFault_next _
  | xorfold | checksum | hex | csClear | csAbsorb | rst | qXferErr => exact noFault_next _

/-- The block's own event is a post step, a cursor step, or nothing. -/
theorem State.ownEvent_noFault {s : State} (h : s.Inv) (before : State) (driven : Bool) :
    NoFault (before.ownEvent driven s) := by
  unfold State.ownEvent
  split
  · exact State.qPost_noFault h
  · split
    · exact State.rdByte_noFault h.rdec _
    · exact noFault_next _

/-- Settles O60: by what is offered; the instruction leaves the invariant for the block's own event after it. -/
theorem noAccessGoesOutOfBounds : Obligations.NoAccessGoesOutOfBounds := by
  intro s h
  rw [safeStep_iff]
  cases hin : s.inbox with
  | nil => rw [step_of_empty hin]; exact State.ownEvent_noFault h _ _
  | cons o rest =>
    have htaken : ({ s with inbox := rest } : State).Inv := h.bookkeeping s.acc rest s.env s.ret
    cases hd : decode s.params s.view o with
    | idle => rw [step_of_idle hin hd]; exact State.ownEvent_noFault htaken _ _
    | rejected e => rw [step_of_rejected hin hd]; exact noFault_refused _
    | event i =>
      by_cases hi : i = .qPost
      · subst hi
        rw [step_of_qPost hin hd]
        exact State.ownEvent_noFault htaken _ _
      · rw [step_of_event hin hd hi]
        exact noFault_andThen (exec_noFault htaken i) fun _ ht => State.ownEvent_noFault (htaken.exec ht) _ _

end Sys2Proof.Machine
end

section
/-! PROOFS. The two directions of a slot (spec/20_memory.md R41): what leaves ENC is settled before the rx byte comes, and
what RXP and QSEQ do with the rx byte is the same whatever ENC holds. -/

namespace Sys2Proof.Machine

/-- A byte step of RXP leaves ENC and the bytes put out. -/
theorem State.rxByte_enc {s t : State} {b : Byte} (h : s.rxByte b = .next t) :
    t.enc = s.enc ∧ t.txFrame = s.txFrame := by
  rcases State.rxByte_eq_next.mp h with ⟨-, rfl⟩ | ⟨_, -, -, rfl⟩ <;> exact ⟨rfl, rfl⟩

/-- A byte step of RXP runs alike over any ENC and any bytes put out, and leaves those. -/
theorem State.rxByte_setEnc {s t : State} {e : Enc} {f : List Byte} {b : Byte}
    (h : ({ s with enc := e, txFrame := f } : State).rxByte b = .next t) :
    ∃ u, s.rxByte b = .next u ∧ t = { u with enc := e, txFrame := f } := by
  rcases State.rxByte_eq_next.mp h with ⟨hnone, rfl⟩ | ⟨a, hsome, ha, rfl⟩
  · exact ⟨_, State.rxByte_eq_next.mpr (.inl ⟨hnone, rfl⟩), rfl⟩
  · exact ⟨_, State.rxByte_eq_next.mpr (.inr ⟨a, hsome, ha, rfl⟩), rfl⟩

/-- ENC's part of a slot, R96: the emit, if a byte is offered. The rx byte has no part in it. -/
def State.slotSent (s : State) (arg : Option Byte) : State :=
  if (s.slotTx arg).isSome then s.encEmit (s.composed arg) else s

theorem State.qSlot_sends {s t : State} {arg : Option Byte} {rx : Byte} (h : s.qSlot arg rx = .next t) :
    t.enc = (s.slotSent arg).enc ∧ t.txFrame = (s.slotSent arg).txFrame := by
  rcases State.qSlot_eq_next.mp h with ⟨hnone, rfl⟩ | ⟨hsome, u, hu, rfl⟩
  · simp [State.slotSent, hnone]
  · have hsent : s.slotSent arg = s.encEmit (s.composed arg) := if_pos hsome
    rw [hsent]
    obtain ⟨henc, hframe⟩ := State.rxByte_enc hu
    split <;> exact ⟨henc, hframe⟩

/-- RXP's and QSEQ's part of a slot that has a byte to put out, R96: the byte step, the count, and the end after the last
slot. ENC has no part in it. -/
theorem State.qSlot_receives {s t : State} {arg : Option Byte} {rx : Byte} (hsome : (s.slotTx arg).isSome = true)
    (h : s.qSlot arg rx = .next t) :
    ∃ u, s.rxByte rx = .next u ∧ t.rxp = (if s.q.slot + 1 = s.q.total then u.rxp.finish else u.rxp) ∧
      t.pbuf = u.pbuf ∧ t.q = s.q.counted := by
  rcases State.qSlot_eq_next.mp h with ⟨hnone, -⟩ | ⟨-, v, hv, rfl⟩
  · simp [hsome] at hnone
  · obtain ⟨u, hu, rfl⟩ := State.rxByte_setEnc hv
    refine ⟨u, hu, ?_⟩
    rw [← State.rxByte_q hu]
    split <;> exact ⟨rfl, rfl, rfl⟩

/-- Settles O45: ENC's part of a slot does not speak of the rx byte, nor RXP's and QSEQ's part of ENC. -/
theorem txAndRxAreIndependent : Obligations.TxAndRxAreIndependent := by
  refine ⟨?sent, ?received⟩
  case sent =>
    intro arg rx rx' s t t' ht ht'
    obtain ⟨henc, hframe⟩ := State.qSlot_sends ht
    obtain ⟨henc', hframe'⟩ := State.qSlot_sends ht'
    exact ⟨henc.trans henc'.symm, hframe.trans hframe'.symm⟩
  case received =>
    intro arg arg' rx e f s t t' hsome hsome' ht ht'
    obtain ⟨u, hu, hrxp, hpbuf, hq⟩ := State.qSlot_receives hsome ht
    obtain ⟨v, hv, hrxp', hpbuf', hq'⟩ := State.qSlot_receives hsome' ht'
    obtain ⟨w, hw, rfl⟩ := State.rxByte_setEnc hv
    obtain rfl : u = w := Host.Outcome.next.inj (hu.symm.trans hw)
    exact ⟨hrxp.trans hrxp'.symm, hpbuf.trans hpbuf'.symm, hq.trans hq'.symm⟩

end Sys2Proof.Machine
end

section
/-! PROOFS. The command bodies and the frames made of them (spec/30_encoding.md R44, R46, R48, R50), and what `compose`
answers for each command (spec/44_commands.md R89 to R92). -/

namespace Sys2Proof.Machine

/-! ### Two-byte lengths, the most significant byte first (R48) -/

theorem toNat_append_bytes (a b : Byte) : (a ++ b : Half).toNat = 256 * a.toNat + b.toNat := by
  rw [BitVec.toNat_append, ← Nat.shiftLeft_add_eq_or_of_lt b.isLt, Nat.shiftLeft_eq]
  omega

theorem toNat_highByte_append_lowByte {n : Nat} (h : n ≤ 65535) : (highByte n ++ lowByte n : Half).toNat = n := by
  rw [toNat_append_bytes, highByte, lowByte, BitVec.toNat_ofNat, BitVec.toNat_ofNat]
  omega

theorem highByte_toNat_append (a b : Byte) : highByte (a ++ b : Half).toNat = a := by
  have hb := b.isLt
  rw [toNat_append_bytes, highByte, show (256 * a.toNat + b.toNat) / 256 = a.toNat by omega, BitVec.ofNat_toNat,
    BitVec.setWidth_eq]

theorem lowByte_toNat_append (a b : Byte) : lowByte (a ++ b : Half).toNat = b := by
  apply BitVec.eq_of_toNat_eq
  have hb := b.isLt
  rw [toNat_append_bytes, lowByte, BitVec.toNat_ofNat]
  omega

/-! ### The fixed commands -/

/-- The row of the table that holds a command's frames; tied to the command's frames by `frameBytes_fixed` and
`frameBytes_negotiate`. -/
def rowOf : Cmd → FrameRow
  | .getMsCert => .getMsCert
  | .getTermCert => .getTermCert
  | .getInfo => .getInfo
  | .negotiate => .negotiate

/-- A fixed command's frame is its row's 8 bytes and padding (R50). -/
theorem frameBytes_fixed {cmd : Cmd} (hcmd : cmd ≠ .negotiate) (total : Nat) :
    frameBytes (bodyBytes cmd [] []) total = rowPattern (rowOf cmd) ++ zeros (total - 8) := by
  cases cmd with
  | getMsCert | getTermCert | getInfo => rfl
  | negotiate => contradiction

theorem bodyBytes_fixed_length {cmd : Cmd} (hcmd : cmd ≠ .negotiate) : (bodyBytes cmd [] []).length = 6 := by
  cases cmd with
  | getMsCert | getTermCert | getInfo => rfl
  | negotiate => contradiction

theorem rowPattern_fixed_length {cmd : Cmd} (hcmd : cmd ≠ .negotiate) : (rowPattern (rowOf cmd)).length = 8 := by
  cases cmd with
  | getMsCert | getTermCert | getInfo => rfl
  | negotiate => contradiction

theorem encodeFrame_fixed {cmd : Cmd} (hcmd : cmd ≠ .negotiate) {bytes : List Byte} {total : Nat} :
    encodeFrame (bodyBytes cmd [] []) total = .ok bytes ↔
      8 ≤ total ∧ rowPattern (rowOf cmd) ++ zeros (total - 8) = bytes := by
  rw [encodeFrame_eq_ok, frameBytes_fixed hcmd, bodyBytes_fixed_length hcmd]

/-! ### NEGOTIATE -/

/-- NEGOTIATE's body by its data; tied to `bodyBytes` by `bodyBytes_negotiate`. -/
def negotiateBody (data : List Byte) : List Byte :=
  header .negotiate ++ [highByte data.length, lowByte data.length] ++ data

theorem bodyBytes_negotiate (rand sig : List Byte) : bodyBytes .negotiate rand sig = negotiateBody (rand ++ sig) := rfl

theorem negotiateBody_length (data : List Byte) : (negotiateBody data).length = data.length + 6 := by
  simp [negotiateBody, header]

/-- A NEGOTIATE frame by its parts (R44, R46), whatever stands in the place of the checksum and of the padding; tied to
`frameBytes` by `frameBytes_negotiate`. -/
def negotiateFrame (data : List Byte) (cs : Byte) (padding : List Byte) : List Byte :=
  Config.sync :: (negotiateBody data ++ cs :: padding)

theorem negotiateFrame_length (data : List Byte) (cs : Byte) (padding : List Byte) :
    (negotiateFrame data cs padding).length = data.length + padding.length + 8 := by
  simp only [negotiateFrame, List.length_cons, List.length_append, negotiateBody_length]
  omega

theorem negotiateFrame_prefix (data : List Byte) (cs : Byte) (padding : List Byte) :
    rowPattern .negotiate <+: negotiateFrame data cs padding :=
  ⟨highByte data.length :: lowByte data.length :: (data ++ cs :: padding), rfl⟩

theorem frameBytes_negotiate (data : List Byte) (total : Nat) :
    frameBytes (negotiateBody data) total =
      negotiateFrame data (checksum (negotiateBody data)) (zeros (total - (data.length + 8))) := by
  have hpad : total - (negotiateBody data).length - 2 = total - (data.length + 8) := by
    rw [negotiateBody_length]
    omega
  simp [frameBytes, negotiateFrame, hpad]

theorem encodeFrame_negotiate {rand sig bytes : List Byte} {total : Nat} :
    encodeFrame (bodyBytes .negotiate rand sig) total = .ok bytes ↔ (rand ++ sig).length + 8 ≤ total ∧
      negotiateFrame (rand ++ sig) (checksum (negotiateBody (rand ++ sig)))
        (zeros (total - ((rand ++ sig).length + 8))) = bytes := by
  rw [bodyBytes_negotiate, encodeFrame_eq_ok, frameBytes_negotiate, negotiateBody_length]

/-! ### `compose` by command (R89 to R92) -/

theorem compose_fixed {cmd : Cmd} (hcmd : cmd ≠ .negotiate) (p : Params) (rand sig : List Byte) :
    compose p cmd rand sig = .ok (bodyBytes cmd [] []) := by
  cases cmd with
  | getMsCert | getTermCert | getInfo => rfl
  | negotiate => contradiction

theorem compose_negotiate_of_randLen {p : Params} {rand : List Byte} (h : rand.length ≠ p.randLen) (sig : List Byte) :
    compose p .negotiate rand sig = .error .invalidLength := if_pos h

theorem compose_negotiate_of_tooLong (p : Params) {rand sig : List Byte} (h : 65535 < rand.length + sig.length) :
    compose p .negotiate rand sig = .error .invalidLength := by
  rw [compose, Config.maxLength, if_pos h, ite_self]

theorem compose_negotiate_of_fits {p : Params} {rand sig : List Byte} (hrand : rand.length = p.randLen)
    (h : rand.length + sig.length ≤ 65535) :
    compose p .negotiate rand sig = .ok (bodyBytes .negotiate rand sig) := by
  rw [compose, Config.maxLength, if_neg (not_not.mpr hrand), if_neg (Nat.not_lt.mpr h)]

/-- Settles O33: the fixed frames are their rows and padding; NEGOTIATE's length bytes are the two bytes of its data's
length. -/
theorem composedCommands : Obligations.ComposedCommands := by
  refine ⟨?frames, ?fixed, ?negotiate⟩
  case frames =>
    intro total h
    exact ⟨(encodeFrame_fixed (cmd := .getMsCert) nofun).mpr ⟨h, rfl⟩,
      (encodeFrame_fixed (cmd := .getTermCert) nofun).mpr ⟨h, rfl⟩,
      (encodeFrame_fixed (cmd := .getInfo) nofun).mpr ⟨h, rfl⟩⟩
  case fixed =>
    intro p rand sig
    exact ⟨compose_fixed (cmd := .getMsCert) nofun p rand sig, compose_fixed (cmd := .getTermCert) nofun p rand sig,
      compose_fixed (cmd := .getInfo) nofun p rand sig⟩
  case negotiate =>
    intro p rand sig
    refine ⟨(compose_negotiate_of_randLen · sig), compose_negotiate_of_tooLong p, fun hrand h => ?_⟩
    refine ⟨highByte (rand ++ sig).length, lowByte (rand ++ sig).length, ?_, ?_⟩
    · rw [List.length_append, toNat_highByte_append_lowByte h]
    · rw [compose_negotiate_of_fits hrand h, bodyBytes_negotiate, negotiateBody, header, List.append_assoc _ rand sig]
      rfl

end Sys2Proof.Machine
end

section
/-! PROOFS. The decoder: the row that bytes belong to, and for each row which bytes are accepted and as what
(spec/30_encoding.md R44 to R46, R50). -/

namespace Sys2Proof.Machine

/-! ### The row of the table -/

/-- No row's pattern begins with that of another. -/
theorem rowPattern_prefix_iff {a b : FrameRow} : rowPattern a <+: rowPattern b ↔ a = b := by
  cases a <;> cases b <;> decide

/-- Settles O52: of two patterns that begin the same bytes, one begins the other. -/
theorem tableRowsDoNotOverlap : Obligations.TableRowsDoNotOverlap := by
  intro a b bytes ha hb
  rcases List.prefix_or_prefix_of_prefix ha hb with h | h
  · exact rowPattern_prefix_iff.mp h
  · exact (rowPattern_prefix_iff.mp h).symm

theorem mem_frameRows (row : FrameRow) : row ∈ frameRows := by
  cases row <;> decide

theorem frameRowOf_eq_some {bytes : List Byte} {row : FrameRow} :
    frameRowOf bytes = some row ↔ rowPattern row <+: bytes := by
  have hfound {r : FrameRow} (h : frameRowOf bytes = some r) : rowPattern r <+: bytes :=
    List.isPrefixOf_iff_prefix.mp (List.find?_some (p := fun row => (rowPattern row).isPrefixOf bytes) h)
  refine ⟨hfound, fun h => ?_⟩
  cases hrow : frameRowOf bytes with
  | none => exact absurd (List.isPrefixOf_iff_prefix.mpr h) (List.find?_eq_none.mp hrow row (mem_frameRows row))
  | some r => rw [tableRowsDoNotOverlap r row bytes (hfound hrow) h]

/-- What a row reads from its bytes; tied to `decodeFrame` by `decodeFrame_eq_ok`. -/
def decodeRow (p : Params) (bytes : List Byte) : FrameRow → Except DecodeError Instr
  | .getMsCert => decodeFixed p bytes (.getMsCert bytes.length)
  | .getTermCert => decodeFixed p bytes (.getTermCert bytes.length)
  | .getInfo => decodeFixed p bytes (.getInfo bytes.length)
  | .negotiate => decodeNegotiate p bytes
  | .responseFrame => .ok (.responseFrame (bytes.drop 3))

theorem decodeFrame_of_row {p : Params} {bytes : List Byte} {row : FrameRow} (h : frameRowOf bytes = some row) :
    decodeFrame p bytes = decodeRow p bytes row := by
  rw [decodeFrame, h]
  cases row <;> rfl

theorem decodeFrame_of_noRow {p : Params} {bytes : List Byte} (h : frameRowOf bytes = none) :
    decodeFrame p bytes = .error .noRow := by
  rw [decodeFrame, h]

theorem decodeFrame_eq_ok {p : Params} {bytes : List Byte} {i : Instr} :
    decodeFrame p bytes = .ok i ↔ ∃ row, rowPattern row <+: bytes ∧ decodeRow p bytes row = .ok i := by
  constructor
  · intro h
    cases hrow : frameRowOf bytes with
    | none => simp [decodeFrame_of_noRow hrow] at h
    | some row => exact ⟨row, frameRowOf_eq_some.mp hrow, decodeFrame_of_row hrow ▸ h⟩
  · rintro ⟨row, hpre, h⟩
    rw [decodeFrame_of_row (frameRowOf_eq_some.mpr hpre), h]

/-! ### Checks and padding -/

/-- A check that refuses is passed by what decodes behind it. -/
theorem refused_if_eq_ok {c : Prop} [Decidable c] {e : DecodeError} {r : Except DecodeError Instr} {i : Instr} :
    (if c then .error e else r) = .ok i ↔ ¬ c ∧ r = .ok i := by
  by_cases hc : c <;> simp [hc]

theorem allPad_iff {bytes : List Byte} : allPad bytes = true ↔ bytes = zeros bytes.length := by
  simp [allPad, zeros, List.eq_replicate_iff]

theorem allPad_zeros (n : Nat) : allPad (zeros n) = true := by
  simp [allPad_iff, zeros]

/-! ### The fixed commands -/

theorem frameFits_iff {p : Params} {dataLen total : Nat} :
    frameFits p dataLen total = true ↔ dataLen + 8 ≤ total ∧ p.fits total = true := by
  rw [frameFits, Config.fixedBodyLen, Bool.and_eq_true, decide_eq_true_eq, show 6 + dataLen + 2 = dataLen + 8 by omega]

theorem decodeFixed_eq_ok {p : Params} {bytes : List Byte} {i j : Instr} :
    decodeFixed p bytes i = .ok j ↔ allPad (bytes.drop 8) = true ∧ p.fits bytes.length = true ∧ i = j := by
  simp [decodeFixed, refused_if_eq_ok]

/-- What a fixed row accepts is the command's frame of the length offered. -/
theorem encodes_of_decodeFixed {cmd : Cmd} (hcmd : cmd ≠ .negotiate) {p : Params} {bytes : List Byte} {i j : Instr}
    (hpre : rowPattern (rowOf cmd) <+: bytes) (h : decodeFixed p bytes i = .ok j) :
    i = j ∧ encodeFrame (bodyBytes cmd [] []) bytes.length = .ok bytes ∧ frameFits p 0 bytes.length = true := by
  obtain ⟨hpad, hfits, hij⟩ := decodeFixed_eq_ok.mp h
  have hlen : 8 ≤ bytes.length := rowPattern_fixed_length hcmd ▸ hpre.length_le
  refine ⟨hij, (encodeFrame_fixed hcmd).mpr ⟨hlen, ?_⟩, frameFits_iff.mpr ⟨by omega, hfits⟩⟩
  have hsplit := List.prefix_append_drop hpre
  rw [rowPattern_fixed_length hcmd, allPad_iff.mp hpad, List.length_drop] at hsplit
  exact hsplit.symm

/-- A fixed row accepts the command's frames of every length that its port can carry. -/
theorem decodeFixed_of_encodes {cmd : Cmd} (hcmd : cmd ≠ .negotiate) {p : Params} {bytes : List Byte} {total : Nat}
    (h : encodeFrame (bodyBytes cmd [] []) total = .ok bytes) (hfits : frameFits p 0 total = true) :
    bytes.length = total ∧ rowPattern (rowOf cmd) <+: bytes ∧ ∀ i, decodeFixed p bytes i = .ok i := by
  obtain ⟨hle, rfl⟩ := (encodeFrame_fixed hcmd).mp h
  have hrow := rowPattern_fixed_length hcmd
  have hlen : (rowPattern (rowOf cmd) ++ zeros (total - 8)).length = total := by
    simp only [List.length_append, hrow, zeros, List.length_replicate]
    omega
  refine ⟨hlen, List.prefix_append _ _, fun i => decodeFixed_eq_ok.mpr ⟨?_, ?_, rfl⟩⟩
  · rw [← hrow, List.drop_left, hrow]
    exact allPad_zeros _
  · rw [hlen]
    exact (frameFits_iff.mp hfits).2

/-! ### NEGOTIATE -/

/-- The checks on a NEGOTIATE frame by its parts. -/
theorem decodeNegotiate_eq_ok {p : Params} {data padding : List Byte} {cs : Byte} {i : Instr}
    (hdata : data.length ≤ 65535) :
    decodeNegotiate p (negotiateFrame data cs padding) = .ok i ↔
      p.randLen ≤ data.length ∧ cs = checksum (negotiateBody data) ∧ allPad padding = true ∧
      p.fits (negotiateFrame data cs padding).length = true ∧
      .negotiate (negotiateFrame data cs padding).length (data.take p.randLen) (data.drop p.randLen) = i := by
  have hdrop : (negotiateFrame data cs padding).drop 5 =
      highByte data.length :: lowByte data.length :: (data ++ cs :: padding) := rfl
  have hbody : ((negotiateFrame data cs padding).drop 1).take (Config.fixedBodyLen + data.length) =
      negotiateBody data := by
    have hlen : Config.fixedBodyLen + data.length = (negotiateBody data).length := by
      rw [negotiateBody_length, Config.fixedBodyLen, Nat.add_comm]
    rw [hlen, negotiateFrame, List.drop_one, List.tail_cons, List.take_left]
  have hlen : (be16 (highByte data.length) (lowByte data.length)).toNat = data.length := by
    rw [be16_eq_append, toNat_highByte_append_lowByte hdata]
  simp only [decodeNegotiate, hdrop, hlen, hbody, List.drop_left, List.take_left, refused_if_eq_ok]
  simp only [Nat.not_lt, ne_eq, not_not, Bool.not_eq_true', Bool.not_eq_false, Except.ok.injEq]
  refine and_congr_right fun hrand => ?_
  rw [List.take_append_of_le_length hrand]

/-- Bytes that the NEGOTIATE row accepts have the parts of a frame, with as many data bytes as they declare. -/
theorem negotiateFrame_of_decode {p : Params} {bytes : List Byte} {i : Instr}
    (hpre : rowPattern .negotiate <+: bytes) (h : decodeNegotiate p bytes = .ok i) :
    ∃ data cs padding, data.length ≤ 65535 ∧ bytes = negotiateFrame data cs padding := by
  obtain ⟨tail, rfl⟩ := hpre
  have hdrop : (rowPattern .negotiate ++ tail).drop 5 = tail := rfl
  rw [decodeNegotiate, hdrop] at h
  match tail, h with
  | [], h | [_], h => cases h
  | d1 :: d0 :: rest, h =>
    simp only [be16_eq_append] at h
    have hlt := (d1 ++ d0 : Half).isLt
    cases hrest : rest.drop (d1 ++ d0 : Half).toNat with
    | nil => simp [hrest] at h
    | cons cs padding =>
      have hlen : (rest.take (d1 ++ d0 : Half).toNat).length = (d1 ++ d0 : Half).toNat := by
        have hcut := congrArg List.length hrest
        simp only [List.length_drop, List.length_cons] at hcut
        exact List.length_take_of_le (by omega)
      refine ⟨rest.take (d1 ++ d0 : Half).toNat, cs, padding, by omega, ?_⟩
      rw [negotiateFrame, negotiateBody, hlen, highByte_toNat_append, lowByte_toNat_append, ← hrest,
        List.append_assoc, List.take_append_drop]
      rfl

/-- A NEGOTIATE is well formed when its random value has the required length and its data and its frame fit (R92). -/
theorem wellFormed_negotiate_iff {p : Params} {total : Nat} {rand sig : List Byte} :
    WellFormed p (.negotiate total rand sig) = true ↔ rand.length = p.randLen ∧ (rand ++ sig).length ≤ 65535 ∧
      (rand ++ sig).length + 8 ≤ total ∧ p.fits total = true := by
  simp only [WellFormed, Bool.and_eq_true, beq_iff_eq, decide_eq_true_eq, frameFits_iff, List.length_append, and_assoc]
  rfl

theorem toOption_eq_some {ε α : Type} {r : Except ε α} {a : α} : r.toOption = some a ↔ r = .ok a := by
  cases r <;> simp [Except.toOption]

/-- What the NEGOTIATE row accepts is the command's frame of the length offered, its data split at `RAND_LEN`. -/
theorem encodes_of_decodeNegotiate {p : Params} {bytes : List Byte} {i : Instr}
    (hpre : rowPattern .negotiate <+: bytes) (h : decodeNegotiate p bytes = .ok i) :
    encodeBytes i = some bytes ∧ WellFormed p i = true := by
  obtain ⟨data, cs, padding, hdata, rfl⟩ := negotiateFrame_of_decode hpre h
  obtain ⟨hrand, rfl, hpad, hfits, rfl⟩ := (decodeNegotiate_eq_ok hdata).mp h
  have hlen := negotiateFrame_length data (checksum (negotiateBody data)) padding
  refine ⟨toOption_eq_some.mpr (encodeFrame_negotiate.mpr ?_), wellFormed_negotiate_iff.mpr ?_⟩
  · have hzeros : zeros (data.length + padding.length + 8 - (data.length + 8)) = padding := by
      rw [show data.length + padding.length + 8 - (data.length + 8) = padding.length by omega, ← allPad_iff.mp hpad]
    rw [List.take_append_drop, hlen, hzeros]
    exact ⟨by omega, rfl⟩
  · rw [List.take_append_drop]
    exact ⟨List.length_take_of_le hrand, hdata, by omega, hfits⟩

/-- The NEGOTIATE row accepts the frame of every well-formed NEGOTIATE, and finds its two arguments again. -/
theorem decodeNegotiate_of_encodes {p : Params} {bytes rand sig : List Byte} {total : Nat}
    (h : encodeFrame (bodyBytes .negotiate rand sig) total = .ok bytes)
    (hwf : WellFormed p (.negotiate total rand sig) = true) :
    rowPattern .negotiate <+: bytes ∧ decodeNegotiate p bytes = .ok (.negotiate total rand sig) := by
  obtain ⟨hle, rfl⟩ := encodeFrame_negotiate.mp h
  obtain ⟨hrand, hdata, -, hfits⟩ := wellFormed_negotiate_iff.mp hwf
  refine ⟨negotiateFrame_prefix _ _ _, (decodeNegotiate_eq_ok hdata).mpr ⟨?_, rfl, allPad_zeros _, ?_⟩⟩
  · rw [List.length_append]
    omega
  · have hlen : (negotiateFrame (rand ++ sig) (checksum (negotiateBody (rand ++ sig)))
        (zeros (total - ((rand ++ sig).length + 8)))).length = total := by
      rw [negotiateFrame_length, zeros, List.length_replicate]
      omega
    rw [hlen, ← hrand, List.take_left, List.drop_left]
    exact ⟨hfits, rfl⟩

/-! ### Frames and their encodings -/

/-- Bytes that a row accepts are the encoding of the instruction it reads, which is well formed. -/
theorem encodes_of_decodeRow {p : Params} {bytes : List Byte} {row : FrameRow} {i : Instr}
    (hpre : rowPattern row <+: bytes) (h : decodeRow p bytes row = .ok i) :
    encodeBytes i = some bytes ∧ WellFormed p i = true := by
  cases row with
  | getMsCert =>
    obtain ⟨rfl, henc, hwf⟩ := encodes_of_decodeFixed (cmd := .getMsCert) nofun hpre h
    exact ⟨toOption_eq_some.mpr henc, hwf⟩
  | getTermCert =>
    obtain ⟨rfl, henc, hwf⟩ := encodes_of_decodeFixed (cmd := .getTermCert) nofun hpre h
    exact ⟨toOption_eq_some.mpr henc, hwf⟩
  | getInfo =>
    obtain ⟨rfl, henc, hwf⟩ := encodes_of_decodeFixed (cmd := .getInfo) nofun hpre h
    exact ⟨toOption_eq_some.mpr henc, hwf⟩
  | negotiate => exact encodes_of_decodeNegotiate hpre h
  | responseFrame =>
    cases h
    exact ⟨congrArg some (List.prefix_append_drop hpre).symm, rfl⟩

/-- The bytes of a well-formed instruction are accepted by its row, as that instruction. -/
theorem decodeRow_of_encodes {p : Params} {bytes : List Byte} {i : Instr} (h : encodeBytes i = some bytes)
    (hwf : WellFormed p i = true) : ∃ row, rowPattern row <+: bytes ∧ decodeRow p bytes row = .ok i := by
  cases i with
  | getMsCert total =>
    obtain ⟨rfl, hpre, hdec⟩ := decodeFixed_of_encodes (cmd := .getMsCert) nofun (toOption_eq_some.mp h) hwf
    exact ⟨.getMsCert, hpre, hdec _⟩
  | getTermCert total =>
    obtain ⟨rfl, hpre, hdec⟩ := decodeFixed_of_encodes (cmd := .getTermCert) nofun (toOption_eq_some.mp h) hwf
    exact ⟨.getTermCert, hpre, hdec _⟩
  | getInfo total =>
    obtain ⟨rfl, hpre, hdec⟩ := decodeFixed_of_encodes (cmd := .getInfo) nofun (toOption_eq_some.mp h) hwf
    exact ⟨.getInfo, hpre, hdec _⟩
  | negotiate total rand sig => exact ⟨.negotiate, decodeNegotiate_of_encodes (toOption_eq_some.mp h) hwf⟩
  | responseFrame rest =>
    cases h
    exact ⟨.responseFrame, List.prefix_append _ _, rfl⟩
  | xorfold | checksum | encode | decode | decodeInfo | hex | transfer | query | rst | csClear | csAbsorb | encStart
  | encEmit | rxStart | rxByte | rxEnd | rdStart | rdByte | qStart | qSlot | qXferErr | qPost => cases h

/-- The decoder accepts the encodings of the well-formed instructions and nothing else. -/
theorem decodeFrame_iff_encodeBytes {p : Params} {bytes : List Byte} {i : Instr} :
    decodeFrame p bytes = .ok i ↔ encodeBytes i = some bytes ∧ WellFormed p i = true := by
  rw [decodeFrame_eq_ok]
  exact ⟨fun ⟨_, hpre, h⟩ => encodes_of_decodeRow hpre h, fun ⟨h, hwf⟩ => decodeRow_of_encodes h hwf⟩

/-- Settles O55: one direction of what the decoder accepts. -/
theorem decodedFramesAreEncodings : Obligations.DecodedFramesAreEncodings :=
  fun _ _ _ => decodeFrame_iff_encodeBytes.mp

/-! ### Port levels -/

/-- A stream port driven with a byte or with none offers just that. -/
theorem offered_of_option (b : Option Byte) (d : Byte) : offered b.isSome (b.getD d) = b := by
  cases b <;> rfl

theorem cmdOf_selectorOf (cmd : Cmd) : cmdOf (selectorOf cmd) = cmd := by
  cases cmd <;> rfl

/-- The port levels that the encoder writes select their event, whatever the two units show as ready (R51, R109). -/
theorem decode_of_encodePorts {p : Params} {v : View} {i : Instr} {sample : PortSample}
    (h : encodePorts i = some sample) : decode p v (.ports sample) = .event i := by
  cases i with
  | rst | csClear | csAbsorb | rxStart | rxByte | rxEnd | rdStart | rdByte | qXferErr =>
    cases h
    rfl
  | encStart | encEmit | qStart | qSlot =>
    cases h
    simp [decode, decodeUnit, offered_of_option, cmdOf_selectorOf]
  | getMsCert | getTermCert | getInfo | negotiate | responseFrame | xorfold | checksum | encode | decode | decodeInfo
  | hex | transfer | query | qPost => cases h

/-- Settles O54, by the form in which the encoder offers the instruction: for a frame, the other direction. -/
theorem decodeOfEncodeIsIdentity : Obligations.DecodeOfEncodeIsIdentity := by
  intro p v i hwf
  rw [encode]
  split
  next bytes hbytes => rw [decode, decodeFrame_iff_encodeBytes.mpr ⟨hbytes, hwf⟩]
  next =>
    split
    next sample hports => exact decode_of_encodePorts hports
    next => rfl

/-! ### The table's words -/

/-- A word of the table decodes when its bytes are the encoding of a well-formed instruction. -/
theorem decodeTableWord_of_encodes {nbits w : Nat} {i : Instr} (h : encodeBytes i = some (tableBytes nbits w))
    (hwf : WellFormed .reference i = true) : decodeTableWord nbits w = some i := by
  rw [decodeTableWord, decodeFrame_iff_encodeBytes.mpr ⟨h, hwf⟩]

/-- Settles O53: each word is the encoding of its instruction. -/
theorem tableWordsDecode : Obligations.TableWordsDecode :=
  ⟨decodeTableWord_of_encodes rfl rfl, decodeTableWord_of_encodes rfl rfl, decodeTableWord_of_encodes rfl rfl,
    decodeTableWord_of_encodes rfl rfl⟩

end Sys2Proof.Machine
end

section
/-! PROOFS. The algebra of the fold and of the checksum (spec/40_checksum.md R58 to R60): both turn a concatenation into an
exclusive-or, and the laws L1 to L9 follow from that. -/

namespace Sys2Proof.Machine

/-! ### The fold of bytes put together -/

@[simp] theorem xorFold_nil : xorFold [] = 0x00 := rfl

@[simp] theorem xorFold_singleton (b : Byte) : xorFold [b] = b := BitVec.zero_xor

/-- The fold of a concatenation (L3), from the one byte absorbed last. -/
@[simp] theorem xorFold_append (xs ys : List Byte) : xorFold (xs ++ ys) = xorFold xs ^^^ xorFold ys := by
  induction ys using List.reverseRecOn with
  | nil => simp
  | append_singleton ys y ih =>
    rw [← List.append_assoc, xorFold_concat, ih, xorFold_concat, csgAbsorb, csgAbsorb, BitVec.xor_assoc]

@[simp] theorem xorFold_cons (b : Byte) (bs : List Byte) : xorFold (b :: bs) = b ^^^ xorFold bs := by
  rw [← List.singleton_append, xorFold_append, xorFold_singleton]

/-- Padding leaves a fold as it is. -/
@[simp] theorem xorFold_zeros (n : Nat) : xorFold (zeros n) = 0x00 := by
  induction n with
  | zero => rfl
  | succ n ih => rw [zeros, List.replicate_succ, xorFold_cons, ← zeros, ih]; rfl

/-- The order of the bytes does not matter (L5). -/
theorem xorFold_perm {xs ys : List Byte} (h : xs.Perm ys) : xorFold xs = xorFold ys := by
  induction h with
  | nil => rfl
  | cons b _ ih => rw [xorFold_cons, xorFold_cons, ih]
  | swap a b bs =>
    simp only [xorFold_cons]
    ac_rfl
  | trans _ _ ih₁ ih₂ => exact ih₁.trans ih₂

/-- A changed byte changes the fold by the exclusive-or of the old byte and the new one. -/
theorem xorFold_set {bs : List Byte} {k : Nat} (h : k < bs.length) (x : Byte) :
    xorFold (bs.set k x) = xorFold bs ^^^ (bs[k] ^^^ x) := by
  induction bs generalizing k with
  | nil => contradiction
  | cons b bs ih =>
    cases k with
    | zero =>
      calc xorFold (x :: bs)
        _ = x ^^^ xorFold bs := xorFold_cons x bs
        _ = b ^^^ b ^^^ (x ^^^ xorFold bs) := by rw [BitVec.xor_self, BitVec.zero_xor]
        _ = b ^^^ xorFold bs ^^^ (b ^^^ x) := by ac_rfl
        _ = xorFold (b :: bs) ^^^ (b ^^^ x) := by rw [xorFold_cons]
    | succ k =>
      rw [List.set_cons_succ, xorFold_cons, ih (Nat.lt_of_succ_lt_succ h), xorFold_cons, List.getElem_cons_succ,
        BitVec.xor_assoc]

/-! ### The checksum (R59) -/

/-- The checksum changes with the fold: the complement passes through the exclusive-or. -/
theorem checksum_eq_xor {xs ys : List Byte} {d : Byte} (h : xorFold xs = xorFold ys ^^^ d) :
    checksum xs = checksum ys ^^^ d := by
  rw [checksum, h, BitVec.not_xor_left, ← checksum]

/-- The checksum of a concatenation (L4). -/
theorem checksum_append (xs ys : List Byte) : checksum (xs ++ ys) = checksum xs ^^^ xorFold ys :=
  checksum_eq_xor (xorFold_append xs ys)

theorem checksum_eq_of_xorFold {xs ys : List Byte} (h : xorFold xs = xorFold ys) : checksum xs = checksum ys :=
  congrArg (~~~ ·) h

/-- A fold of all ones is a checksum of 0. -/
theorem xorFold_eq_ones_iff (bs : List Byte) : xorFold bs = 0xFF ↔ checksum bs = 0x00 :=
  BitVec.not_inj.symm

/-- A received byte is the checksum exactly when it completes the fold to all ones (L9). -/
theorem checksum_eq_iff (bs : List Byte) (received : Byte) :
    checksum bs = received ↔ xorFold (bs ++ [received]) = 0xFF := by
  rw [xorFold_eq_ones_iff, checksum_append, xorFold_singleton, xor_eq_zero_iff]

/-- Zero bytes inserted anywhere leave the checksum (L6). -/
theorem checksum_zeros_inserted (xs ys : List Byte) (n : Nat) : checksum (xs ++ zeros n ++ ys) = checksum (xs ++ ys) :=
  checksum_eq_of_xorFold (by simp)

/-- Two equal bytes cancel (L7). -/
theorem checksum_append_pair (bs : List Byte) (x : Byte) : checksum (bs ++ [x, x]) = checksum bs :=
  checksum_eq_of_xorFold (by simp)

/-- The first half of L8. -/
theorem checksum_set {bs : List Byte} {k : Nat} (h : k < bs.length) (x : Byte) :
    checksum (bs.set k x) = checksum bs ^^^ (bs[k] ^^^ x) :=
  checksum_eq_xor (xorFold_set h x)

/-- The second half of L8: a checksum that stands means a difference of 0. -/
theorem checksum_set_ne {bs : List Byte} {k : Nat} (h : k < bs.length) {x : Byte} (hx : x ≠ bs[k]) :
    checksum (bs.set k x) ≠ checksum bs := by
  intro hsame
  rw [checksum_set h, xor_left_eq_self_iff, xor_eq_zero_iff] at hsame
  exact hx hsame.symm

/-- Settles O6, law by law; L2 is L9 of the checksum itself. -/
theorem checksumLaws : Obligations.ChecksumLaws :=
  ⟨fun _ => rfl,
    fun b => (checksum_eq_iff b (checksum b)).mp rfl,
    xorFold_append,
    checksum_append,
    fun _ _ hperm => checksum_eq_of_xorFold (xorFold_perm hperm),
    checksum_zeros_inserted,
    checksum_append_pair,
    fun _ _ h x => ⟨checksum_set h x, checksum_set_ne h⟩,
    checksum_eq_iff⟩

end Sys2Proof.Machine
end

section
/-! PROOFS. CSG's events and its run (spec/40_checksum.md R61, R62), and the functions without a port: the fold, and the text
of spec/43_record_decoder.md R82. -/

namespace Sys2Proof.Machine

/-! ### One equation per instruction -/

theorem exec_csClear (s : State) : exec .csClear s = .next { s with acc := csgClear } := rfl

theorem exec_csAbsorb (b : Byte) (s : State) : exec (.csAbsorb b) s = .next { s with acc := csgAbsorb s.acc b } := rfl

/-- CHECKSUM absorbs the bytes one by one, which is the fold (R58). -/
theorem exec_checksum (bytes : List Byte) (s : State) :
    exec (.checksum bytes) s = .next { s with acc := xorFold bytes, ret := .value (.byte (checksum bytes)) } := rfl

theorem exec_xorfold (bytes : List Byte) (s : State) :
    exec (.xorfold bytes) s = .next { s with ret := .value (.byte (xorFold bytes)) } := rfl

theorem exec_hex (bytes : List Byte) (s : State) :
    exec (.hex bytes) s = .next { s with ret := .value (.text (hexText bytes)) } := rfl

/-! ### The events of CSG -/

/-- The event that CSG's port levels select: the clear has priority (R61). -/
theorem decode_csg (p : Params) (v : View) (clear en : Bool) (din : Byte) :
    decode p v (.ports { rst := false, unit := .csg clear en din }) =
      if clear then .event .csClear else if en then .event (.csAbsorb din) else .idle := rfl

/-- Settles O4: the two equations of CSG's events, and the three rows of its port levels. -/
theorem csgEventsClearAndAbsorb : Obligations.CsgEventsClearAndAbsorb :=
  ⟨exec_csClear, exec_csAbsorb, fun p v en din => decode_csg p v true en din,
    fun p v din => decode_csg p v false true din, fun p v din => decode_csg p v false false din⟩

/-! ### The run of CSG over a sequence (R62) -/

/-- Absorbing a sequence byte by byte changes `acc` alone, by the absorbs in order. -/
theorem runAll_csAbsorb (bytes : List Byte) (s : State) :
    runAll (bytes.map Instr.csAbsorb) s = .next { s with acc := bytes.foldl csgAbsorb s.acc } := by
  induction bytes generalizing s with
  | nil => rfl
  | cons b bytes ih =>
    rw [List.map_cons, runAll, exec_csAbsorb, andThen_next, ih]
    rfl

/-- The absorbs after a clear give the fold (R58). -/
theorem foldl_csgAbsorb_csgClear (bytes : List Byte) : bytes.foldl csgAbsorb csgClear = xorFold bytes := rfl

/-- A clear and then every byte leave the fold in `acc`. -/
theorem runAll_csClear_csAbsorb (bytes : List Byte) (s : State) :
    runAll (.csClear :: bytes.map Instr.csAbsorb) s = .next { s with acc := xorFold bytes } := by
  rw [runAll, exec_csClear, andThen_next, runAll_csAbsorb, foldl_csgAbsorb_csgClear]

/-- Settles O7: the run, `cs_out` over its fold, and CHECKSUM's own run; then the empty sequence. -/
theorem checksumLevelsAgree : Obligations.ChecksumLevelsAgree :=
  ⟨fun b s => ⟨runAll_csClear_csAbsorb b s, csOut_xorFold b, exec_checksum b s⟩,
    fun s => ⟨_, exec_csClear s, csOut_csSeed⟩,
    csOut_csSeed⟩

/-! ### The text of bytes (R82) -/

/-- A digit is the one of its value among the sixteen. -/
theorem hexDigit_eq : ∀ v : BitVec 4, hexDigit v =
    ['0','1','2','3','4','5','6','7','8','9','a','b','c','d','e','f'].getD v.toNat '?' := by decide

theorem toNat_upperDigit (b : Byte) : ((b >>> 4).setWidth 4 : BitVec 4).toNat = b.toNat / 16 := by
  rw [BitVec.toNat_setWidth, BitVec.toNat_ushiftRight, Nat.shiftRight_eq_div_pow]
  omega

theorem toNat_lowerDigit (b : Byte) : (b.setWidth 4 : BitVec 4).toNat = b.toNat % 16 :=
  BitVec.toNat_setWidth 4 b

theorem hexText_singleton (b : Byte) : hexText [b] = [hexDigit ((b >>> 4).setWidth 4), hexDigit (b.setWidth 4)] := rfl

theorem hexText_append (xs ys : List Byte) : hexText (xs ++ ys) = hexText xs ++ hexText ys := List.flatMap_append

/-- Two characters a byte. -/
theorem hexText_length (bytes : List Byte) : (hexText bytes).length = 2 * bytes.length := by
  induction bytes with
  | nil => rfl
  | cons b bytes ih =>
    rw [← List.singleton_append, hexText_append, hexText_singleton, List.length_append, ih, List.length_append,
      Nat.mul_add]
    rfl

/-- Settles O5: the two equations of the functions, then the fold's own and the text's. -/
theorem portlessFunctionsReturnTheirValue : Obligations.PortlessFunctionsReturnTheirValue := by
  refine ⟨exec_xorfold, exec_hex, xorFold_nil, xorFold_concat, rfl, hexText_append, hexText_length, ?digits⟩
  case digits =>
    intro b
    rw [hexText_singleton, hexDigit_eq, hexDigit_eq, toNat_upperDigit, toNat_lowerDigit]

end Sys2Proof.Machine
end

section
/-! PROOFS. The properties P1 to P7 of an encoded frame (spec/41_frame_encoder.md R64), and the adapter, which leaves a frame
of the transfer's length as it is (R68; spec/44_commands.md R87). -/

namespace Sys2Proof.Machine

/-! ### What does not fit, and what does -/

theorem encodeFrame_eq_error {body : List Byte} {total : Nat} :
    encodeFrame body total = .error .invalidLength ↔ total < body.length + 2 := by
  unfold encodeFrame
  split <;> simp <;> omega

theorem encodeFrame_of_fits {body : List Byte} {total : Nat} (h : body.length + 2 ≤ total) :
    encodeFrame body total = .ok (frameBytes body total) :=
  encodeFrame_eq_ok.mpr ⟨h, rfl⟩

/-! ### The parts of a frame (R64) -/

/-- Behind the marker a frame is the body, the checksum and the padding. -/
theorem frameBytes_drop_one (body : List Byte) (total : Nat) :
    (frameBytes body total).drop 1 = body ++ [checksum body] ++ zeros (total - body.length - 2) := by
  simp [frameBytes]

theorem frameBytes_slice_body (body : List Byte) (total : Nat) : slice 1 body.length (frameBytes body total) = body := by
  rw [slice, frameBytes_drop_one, List.append_assoc, List.take_left]

theorem frameBytes_slice_covered (body : List Byte) (total : Nat) :
    slice 1 (body.length + 1) (frameBytes body total) = body ++ [checksum body] := by
  rw [slice, frameBytes_drop_one]
  exact List.take_left' (by simp)

/-- A body folded with its own checksum is all ones (P6), from L9. -/
theorem xorFold_append_checksum (body : List Byte) : xorFold (body ++ [checksum body]) = 0xFF :=
  (checksum_eq_iff body _).mp rfl

theorem zeros_prefix {m n : Nat} (h : m ≤ n) : zeros m <+: zeros n :=
  List.prefix_replicate_iff.mpr ⟨by simpa [zeros] using h, by simp [zeros]⟩

/-- A larger transfer only adds padding (P7). -/
theorem frameBytes_prefix (body : List Byte) {total total' : Nat} (h : total ≤ total') :
    frameBytes body total <+: frameBytes body total' :=
  (List.prefix_append_right_inj _).mpr (zeros_prefix (by omega))

/-- Settles O8, property by property, from the parts of the frame's bytes. -/
theorem encodedFrameProperties : Obligations.EncodedFrameProperties := by
  intro body total f h
  obtain ⟨hfits, rfl⟩ := encodeFrame_eq_ok.mp h
  refine ⟨frameBytes_length hfits, rfl, frameBytes_slice_body body total, frameBytes_checksum body total,
    fun k => frameBytes_pad, ?foldCovered, ?foldPadded, ?larger⟩
  case foldCovered => rw [frameBytes_slice_covered, xorFold_append_checksum]
  case foldPadded =>
    rw [frameBytes_drop_one, xorFold_append, xorFold_append_checksum, xorFold_zeros]
    rfl
  case larger =>
    intro total' hle
    exact ⟨_, encodeFrame_of_fits (by omega), frameBytes_prefix body hle⟩

/-! ### The adapter (R87) -/

/-- The bytes with which the adapter fills a transfer up; tied to `adapterSends` by `adapterSends_of_le`. -/
def adapterAdds (tx : List Byte) (length : Nat) : List Byte :=
  (List.range (length - tx.length)).map (Config.adapterFill tx length)

theorem adapterAdds_length (tx : List Byte) (length : Nat) : (adapterAdds tx length).length = length - tx.length := by
  simp [adapterAdds]

/-- A `tx` that is not longer than the transfer stands whole between the bytes added. -/
theorem adapterSends_of_le {tx : List Byte} {length : Nat} (h : tx.length ≤ length) :
    adapterSends tx length =
      (adapterAdds tx length).take (Config.adapterFront tx length) ++ tx
        ++ (adapterAdds tx length).drop (Config.adapterFront tx length) := by
  rw [adapterSends, Nat.sub_eq_zero_of_le h, Nat.min_zero, List.drop_zero, List.take_of_length_le h, adapterAdds]

/-- Of a `tx` that is not shorter than the transfer a piece of the transfer's length is sent. -/
theorem adapterSends_of_ge {tx : List Byte} {length : Nat} (h : length ≤ tx.length) :
    ∃ cut, cut ≤ tx.length - length ∧ adapterSends tx length = (tx.drop cut).take length :=
  ⟨min (Config.adapterFront tx length) (tx.length - length), Nat.min_le_right _ _, by
    simp [adapterSends, Nat.sub_eq_zero_of_le h]⟩

theorem adapterSends_length (tx : List Byte) (length : Nat) : (adapterSends tx length).length = length := by
  rcases Nat.le_total tx.length length with h | h
  · rw [adapterSends_of_le h]
    simp only [List.length_append, List.length_take, List.length_drop, adapterAdds_length]
    omega
  · obtain ⟨cut, hcut, hsends⟩ := adapterSends_of_ge h
    rw [hsends, List.length_take_of_le (by rw [List.length_drop]; omega)]

/-- A `tx` of the transfer's length is sent as it is: nothing is added and nothing is cut. -/
theorem adapterSends_self (tx : List Byte) : adapterSends tx tx.length = tx := by
  obtain ⟨cut, hcut, hsends⟩ := adapterSends_of_ge (Nat.le_refl tx.length)
  obtain rfl : cut = 0 := by omega
  rw [hsends, List.drop_zero, List.take_length]

/-- Settles O13, by the length of `tx` against the transfer's. -/
theorem adapterSendsTheFrameUnchanged : Obligations.AdapterSendsTheFrameUnchanged := by
  refine ⟨?frame, fun tx length => ⟨adapterSends_length tx length, ?whole, ?piece⟩⟩
  case frame =>
    intro body total f h
    obtain ⟨hfits, rfl⟩ := encodeFrame_eq_ok.mp h
    have hself := adapterSends_self (frameBytes body total)
    rwa [frameBytes_length hfits] at hself
  case whole =>
    intro h
    exact ⟨_, _, (adapterSends_of_le h).symm⟩
  case piece =>
    intro h
    obtain ⟨cut, -, hsends⟩ := adapterSends_of_ge h
    rw [hsends]
    exact (List.take_prefix _ _).isInfix.trans (List.drop_suffix _ _).isInfix

end Sys2Proof.Machine
end

section
/-! PROOFS. ENC's events on the whole machine, one equation per state (spec/41_frame_encoder.md R65, R66), and the whole run
of a frame: the start and exactly as many emits as the frame has bytes (R67). -/

namespace Sys2Proof.Machine

/-! ### The start (R65) -/

theorem State.encStart_of_busy {s : State} (h : s.enc.state ≠ .idle) (bodyLen total : Nat) :
    s.encStart bodyLen total = s := by
  rw [State.encStart, Enc.start_of_busy h, if_neg h]

theorem State.encStart_of_tooLong {s : State} {bodyLen total : Nat} (h : s.enc.state = .idle)
    (hlong : total < bodyLen + 2) :
    s.encStart bodyLen total = { s with
      enc := { state := .idle, idx := 0, bodyLen := bodyLen, total := total, acc := s.enc.acc,
               err := codeOf .invalidLength, done := true },
      txFrame := [] } := by
  rw [State.encStart, Enc.start_of_tooLong h hlong, if_pos h]
  rfl

theorem State.encStart_of_fits {s : State} {bodyLen total : Nat} (h : s.enc.state = .idle)
    (hfits : bodyLen + 2 ≤ total) :
    s.encStart bodyLen total = { s with
      enc := { state := .sync, idx := 0, bodyLen := bodyLen, total := total, acc := csgClear, err := 0, done := false },
      txFrame := [] } := by
  rw [State.encStart, Enc.start_of_fits h hfits, if_pos h]

theorem exec_encStart_of_fits {s : State} {bodyLen total : Nat} (hfree : s.free)
    (hbody : s.params.fits bodyLen = true) (htotal : s.params.fits total = true) :
    exec (.encStart bodyLen total) s = .next (s.encStart bodyLen total) := by
  rw [exec_encStart_of_free bodyLen total hfree, whenFits_of_all (by simp [hbody, htotal])]

/-- Settles O10, by ENC's state and the length test. -/
theorem encStartAcceptsOrRejects : Obligations.EncStartAcceptsOrRejects := by
  intro bodyLen total s hfree hbody htotal
  rw [exec_encStart_of_fits hfree hbody htotal]
  refine ⟨?rejected, ?accepted, ?busy⟩
  case rejected =>
    intro hidle hlong
    rw [State.encStart_of_tooLong hidle hlong]
    rfl
  case accepted =>
    intro hidle hfits
    rw [State.encStart_of_fits hidle hfits]
    rfl
  case busy =>
    intro hbusy
    rw [State.encStart_of_busy hbusy]

/-! ### The emit (R66) -/

theorem exec_encEmit_of_free {s : State} (h : s.free) (body : Option Byte) :
    exec (.encEmit body) s = .next (s.encEmit body) :=
  whenFree_of_free h

theorem Enc.tx_of_idle {e : Enc} (h : e.state = .idle) (body : Option Byte) : e.tx body = none := by simp [Enc.tx, h]

theorem Enc.tx_of_sync {e : Enc} (h : e.state = .sync) (body : Option Byte) : e.tx body = some Config.sync := by
  simp [Enc.tx, h]

theorem Enc.tx_of_body {e : Enc} (h : e.state = .body) (body : Option Byte) : e.tx body = body := by simp [Enc.tx, h]

theorem Enc.tx_of_csum {e : Enc} (h : e.state = .csum) (body : Option Byte) : e.tx body = some (csOut e.acc) := by
  simp [Enc.tx, h]

theorem Enc.tx_of_pad {e : Enc} (h : e.state = .pad) (body : Option Byte) : e.tx body = some Config.pad := by
  simp [Enc.tx, h]

/-- The emits behind the body in one equation: the last byte ends the frame. -/
theorem Enc.emitTail_eq (e : Enc) :
    e.emitTail = { e with
      idx := e.idx + 1
      state := if e.idx + 1 = e.total then .idle else .pad
      done := if e.idx + 1 = e.total then true else e.done } := by
  by_cases h : e.idx + 1 = e.total
  · rw [Enc.emitTail_last h, if_pos h, if_pos h]
  · rw [Enc.emitTail_more h, if_neg h, if_neg h]

/-- With no byte to put out, the emit of an idle or a waiting ENC changes nothing. -/
theorem State.encEmit_of_none {s : State} {body : Option Byte} (hemit : s.enc.emit body = s.enc)
    (htx : s.enc.tx body = none) : s.encEmit body = s := by
  rw [State.encEmit, hemit, htx, Option.toList_none, List.append_nil]

theorem State.encEmit_of_idle {s : State} (h : s.enc.state = .idle) (body : Option Byte) : s.encEmit body = s :=
  State.encEmit_of_none (Enc.emit_of_idle h body) (Enc.tx_of_idle h body)

/-- Settles O11, state by state. -/
theorem encEmitByState : Obligations.EncEmitByState := by
  intro body s hfree
  rw [exec_encEmit_of_free hfree]
  refine ⟨?sync, ?body, ?csum, ?pad, ?hold, ?idle⟩
  case sync =>
    intro h
    rw [State.encEmit, Enc.emit_of_sync h, Enc.tx_of_sync h]
    rfl
  case body =>
    rintro b h rfl
    rw [State.encEmit, Enc.emit_of_body h, Enc.tx_of_body h, Option.toList_some]
    simp only [Nat.add_right_cancel_iff, csgAbsorb]
  case csum =>
    intro h
    rw [State.encEmit, Enc.emit_of_tail (.inl h), Enc.emitTail_eq, Enc.tx_of_csum h]
    rfl
  case pad =>
    intro h
    rw [State.encEmit, Enc.emit_of_tail (.inr h), Enc.emitTail_eq, Enc.tx_of_pad h]
    rfl
  case hold =>
    rintro h rfl
    rw [State.encEmit_of_none (Enc.emit_of_hold h) (Enc.tx_of_body h none)]
  case idle =>
    intro h
    rw [State.encEmit_of_idle h]

/-! ### ENC in the middle of a frame

The registers of ENC are a function of the frame and of the number of bytes put out; one emit takes that number to the
next. Both runs of a whole frame, ENCODE's own and the one made of events, follow from this one step. -/

/-- The state of ENC after `n` bytes of a frame. -/
def encStateAt (bodyLen total n : Nat) : EncState :=
  if n = 0 then .sync
  else if n ≤ bodyLen then .body
  else if n = bodyLen + 1 then .csum
  else if n < total then .pad
  else .idle

/-- ENC after `n` bytes of a frame; tied to the start by `State.encStart_eq_sending`, to the emit by
`Enc.emit_sending`. -/
def Enc.sending (body : List Byte) (total n : Nat) : Enc :=
  { state := encStateAt body.length total n, idx := n, bodyLen := body.length, total := total
    acc := xorFold (body.take (n - 1)), err := 0, done := decide (n = total) }

theorem encStateAt_body {bodyLen total n : Nat} (hlow : n ≠ 0) (hhigh : n ≤ bodyLen) :
    encStateAt bodyLen total n = .body := by
  simp [encStateAt, hlow, hhigh]

/-- With the marker out, the body's bytes follow until all are out. -/
theorem encStateAt_succ {bodyLen total n : Nat} (h : n ≤ bodyLen) :
    encStateAt bodyLen total (n + 1) = if n = bodyLen then .csum else .body := by
  rcases Nat.eq_or_lt_of_le h with rfl | hlt
  · simp [encStateAt]
  · rw [if_neg hlt.ne]
    exact encStateAt_body (Nat.succ_ne_zero n) hlt

/-- Behind the checksum: padding until the frame is complete. -/
theorem encStateAt_tail {bodyLen total n : Nat} (hlow : bodyLen + 2 ≤ n) (hhigh : n ≤ total) :
    encStateAt bodyLen total n = if n = total then .idle else .pad := by
  have hpast : n ≠ 0 ∧ ¬ n ≤ bodyLen ∧ n ≠ bodyLen + 1 := by omega
  rcases Nat.eq_or_lt_of_le hhigh with rfl | hlt
  · simp [encStateAt, hpast]
  · simp [encStateAt, hpast, hlt, hlt.ne]

theorem encStateAt_total {bodyLen total : Nat} (h : bodyLen + 2 ≤ total) : encStateAt bodyLen total total = .idle := by
  rw [encStateAt_tail h (Nat.le_refl _), if_pos rfl]

/-- What the requester offers with the emit of byte `n`: in the body its byte, elsewhere anything. -/
def OfferedAt (body : List Byte) (n : Nat) (offer : Option Byte) : Prop :=
  n ≠ 0 → n ≤ body.length → offer = body[n - 1]?

/-- The marker leaves ENC. -/
theorem Enc.emit_sending_sync {body : List Byte} {total : Nat} (h : body.length + 2 ≤ total) (offer : Option Byte) :
    (Enc.sending body total 0).emit offer = .sending body total 1 ∧
      (Enc.sending body total 0).tx offer = (frameBytes body total)[0]? := by
  have hdone : 0 ≠ total ∧ 1 ≠ total := by omega
  refine ⟨?_, rfl⟩
  rw [Enc.emit_of_sync rfl]
  simp [Enc.sending, encStateAt_succ (Nat.zero_le body.length), hdone, eq_comm]

/-- A body byte leaves ENC. -/
theorem Enc.emit_sending_body {body : List Byte} {total n : Nat} (h : body.length + 2 ≤ total)
    (hn : n < body.length) :
    (Enc.sending body total (n + 1)).emit body[n]? = .sending body total (n + 2) ∧
      (Enc.sending body total (n + 1)).tx body[n]? = (frameBytes body total)[n + 1]? := by
  have hstate : (Enc.sending body total (n + 1)).state = .body := encStateAt_body (Nat.succ_ne_zero n) hn
  have hoffer : body[n]? = some body[n] := List.getElem?_eq_getElem hn
  have hacc : xorFold (body.take (n + 1)) = csgAbsorb (xorFold (body.take n)) body[n] := by
    rw [List.take_add_one, hoffer, Option.toList_some, xorFold_concat]
  have hdone : n + 1 ≠ total ∧ n + 2 ≠ total := by omega
  constructor
  · rw [hoffer, Enc.emit_of_body hstate]
    simp [Enc.sending, encStateAt_succ (Nat.succ_le_of_lt hn), hacc, hdone]
  · rw [Enc.tx_of_body hstate]
    simp [frameBytes, List.getElem?_append_left, hn]

/-- A byte behind the body leaves ENC. -/
theorem Enc.emit_sending_tail {body : List Byte} {total n : Nat} (hlow : body.length + 1 ≤ n) (hhigh : n < total)
    (offer : Option Byte) :
    (Enc.sending body total n).emit offer = .sending body total (n + 1) ∧
      (Enc.sending body total n).tx offer = (frameBytes body total)[n]? := by
  have hacc : body.take (n - 1) = body ∧ body.take n = body :=
    ⟨List.take_of_length_le (by omega), List.take_of_length_le (by omega)⟩
  have hemit (htail : (Enc.sending body total n).state = .csum ∨ (Enc.sending body total n).state = .pad) :
      (Enc.sending body total n).emit offer = .sending body total (n + 1) := by
    rw [Enc.emit_of_tail htail, Enc.emitTail_eq]
    simp [Enc.sending, encStateAt_tail (Nat.succ_le_succ hlow) hhigh, hacc, hhigh.ne]
  rcases Nat.eq_or_lt_of_le hlow with rfl | hpad
  · have hstate : (Enc.sending body total (body.length + 1)).state = .csum :=
      (encStateAt_succ (Nat.le_refl _)).trans (if_pos rfl)
    refine ⟨hemit (.inl hstate), ?_⟩
    rw [Enc.tx_of_csum hstate, frameBytes_checksum, ← csOut_xorFold]
    simp [Enc.sending]
  · have hstate : (Enc.sending body total n).state = .pad :=
      (encStateAt_tail hpad hhigh.le).trans (if_neg hhigh.ne)
    exact ⟨hemit (.inr hstate), by rw [Enc.tx_of_pad hstate, frameBytes_pad hpad hhigh]⟩

/-- One emit puts out the byte of the frame at ENC's index and goes on to the next. -/
theorem Enc.emit_sending {body : List Byte} {total n : Nat} {offer : Option Byte} (h : body.length + 2 ≤ total)
    (hn : n < total) (hoffer : OfferedAt body n offer) :
    (Enc.sending body total n).emit offer = .sending body total (n + 1) ∧
      (Enc.sending body total n).tx offer = (frameBytes body total)[n]? := by
  rcases Nat.lt_or_ge body.length n with hpast | hbody
  · exact Enc.emit_sending_tail hpast hn offer
  · cases n with
    | zero => exact Enc.emit_sending_sync h offer
    | succ n =>
      rw [hoffer (Nat.succ_ne_zero n) hbody]
      exact Enc.emit_sending_body h hbody

/-- The machine with `n` bytes of a frame put out. -/
def State.sending (s : State) (body : List Byte) (total n : Nat) : State :=
  { s with enc := .sending body total n, txFrame := (frameBytes body total).take n }

theorem State.encStart_eq_sending {s : State} {body : List Byte} {total : Nat} (hidle : s.enc.state = .idle)
    (h : body.length + 2 ≤ total) : s.encStart body.length total = s.sending body total 0 := by
  have hdone : 0 ≠ total := by omega
  rw [State.encStart_of_fits hidle h]
  simp [State.sending, Enc.sending, encStateAt, csgClear, Config.csSeed, hdone]

/-- The whole frame put out. -/
theorem State.sending_total {s : State} {body : List Byte} {total : Nat} (h : body.length + 2 ≤ total) :
    s.sending body total total = { s with
      enc := { state := .idle, idx := total, bodyLen := body.length, total := total, acc := xorFold body,
               err := 0, done := true },
      txFrame := frameBytes body total } := by
  have hbody : body.take (total - 1) = body := List.take_of_length_le (by omega)
  have hframe : (frameBytes body total).take total = frameBytes body total :=
    List.take_of_length_le (frameBytes_length h).le
  simp [State.sending, Enc.sending, encStateAt_total h, hbody, hframe]

theorem State.encEmit_sending {s : State} {body : List Byte} {total n : Nat} {offer : Option Byte}
    (h : body.length + 2 ≤ total) (hn : n < total) (hoffer : OfferedAt body n offer) :
    (s.sending body total n).encEmit offer = s.sending body total (n + 1) := by
  obtain ⟨hemit, htx⟩ := Enc.emit_sending h hn hoffer
  simp only [State.encEmit, State.sending, hemit, htx, List.take_add_one]

/-! ### The run of ENCODE (R63, R67) -/

theorem State.emits_sending {s : State} {body : List Byte} {total : Nat} (h : body.length + 2 ≤ total) (k : Nat) :
    ∀ n, n + k ≤ total → State.emits body k (s.sending body total n) = s.sending body total (n + k) := by
  induction k with
  | zero => exact fun _ _ => rfl
  | succ k ih =>
    intro n hn
    have hstep : (s.sending body total n).encEmit body[n - 1]? = s.sending body total (n + 1) :=
      State.encEmit_sending h (by omega) fun _ _ => rfl
    calc State.emits body (k + 1) (s.sending body total n)
      _ = State.emits body k ((s.sending body total n).encEmit body[n - 1]?) := rfl
      _ = s.sending body total (n + 1 + k) := by rw [hstep, ih (n + 1) (by omega)]
      _ = s.sending body total (n + (k + 1)) := by rw [Nat.add_right_comm, Nat.add_assoc]

theorem State.emits_of_idle {s : State} (h : s.enc.state = .idle) (body : List Byte) (n : Nat) :
    State.emits body n s = s := by
  induction n with
  | zero => rfl
  | succ n ih => rw [State.emits, State.encEmit_of_idle h, ih]

/-- ENCODE at an idle ENC with lengths that fit: its run, and the value. -/
theorem exec_encode_of_fits {s : State} {body : List Byte} {total : Nat} (hfree : s.free)
    (hidle : s.enc.state = .idle) (hbody : s.params.fits body.length = true) (htotal : s.params.fits total = true) :
    exec (.encode body total) s = .next { State.emits body total (s.encStart body.length total) with
      ret := replyOf ((encodeFrame body total).map Value.bytes) } := by
  have hready : s.encReady = true := State.encReady_iff.mpr hidle
  have hrun : exec (.encode body total) s = execEncode body total s := rfl
  rw [hrun, execEncode, whenFree_of_free hfree]
  simp [hready, hbody, htotal]

/-- Settles O9: the value by the length test, and ENCODE's run for a frame that fits and for one that does not. -/
theorem encodeOperationRuns : Obligations.EncodeOperationRuns := by
  refine ⟨fun _ _ => encodeFrame_eq_error.mpr, fun _ _ => encodeFrame_of_fits, ?run⟩
  intro body total s hfree hidle hbody htotal
  rw [exec_encode_of_fits hfree hidle hbody htotal]
  refine ⟨?sent, ?rejected⟩
  case sent =>
    intro f hf
    obtain ⟨hfits, rfl⟩ := encodeFrame_eq_ok.mp hf
    rw [hf, State.encStart_eq_sending hidle hfits, State.emits_sending hfits total 0 (by omega), Nat.zero_add,
      State.sending_total hfits]
    rfl
  case rejected =>
    intro herror
    rw [herror, State.encStart_of_tooLong hidle (encodeFrame_eq_error.mp herror), State.emits_of_idle rfl]
    rfl

/-! ### The run of a frame as events (R67) -/

/-- Emits change no query, so each of a list of them is taken. -/
theorem runAll_encEmit (offers : List (Option Byte)) {s : State} (hfree : s.free) :
    runAll (offers.map Instr.encEmit) s = .next (offers.foldl State.encEmit s) := by
  induction offers generalizing s with
  | nil => rfl
  | cons offer offers ih =>
    have hnext : (s.encEmit offer).free := hfree
    rw [List.map_cons, runAll, exec_encEmit_of_free hfree, andThen_next, ih hnext, List.foldl_cons]

/-- The emits of a list of offers that meets the body at its places. -/
theorem State.foldl_encEmit_sending {s : State} {body : List Byte} {total : Nat} (h : body.length + 2 ≤ total)
    (offers : List (Option Byte)) : ∀ n, n + offers.length ≤ total →
      (∀ k (hk : k < offers.length), OfferedAt body (n + k) offers[k]) →
      offers.foldl State.encEmit (s.sending body total n) = s.sending body total (n + offers.length) := by
  induction offers with
  | nil => exact fun _ _ _ => rfl
  | cons offer offers ih =>
    intro n hn hoffers
    rw [List.length_cons] at hn
    have hfirst : OfferedAt body n offer := hoffers 0 (by simp)
    have hrest (k : Nat) (hk : k < offers.length) : OfferedAt body (n + 1 + k) offers[k] := by
      have := hoffers (k + 1) (by simpa using hk)
      rwa [← Nat.add_assoc, Nat.add_right_comm, List.getElem_cons_succ] at this
    rw [List.foldl_cons, State.encEmit_sending h (by omega) hfirst, ih (n + 1) (by omega) hrest, List.length_cons,
      Nat.add_right_comm, Nat.add_assoc]

/-- The offers of a whole frame: none for the marker, the body's bytes in order, and none for the rest. -/
def frameOffers (body : List Byte) (total : Nat) : List (Option Byte) :=
  none :: body.map some ++ List.replicate (total - 1 - body.length) none

theorem frameOffers_length {body : List Byte} {total : Nat} (h : body.length + 2 ≤ total) :
    (frameOffers body total).length = total := by
  simp [frameOffers]
  omega

theorem map_encEmit_frameOffers (body : List Byte) (total : Nat) :
    (frameOffers body total).map Instr.encEmit =
      .encEmit none :: body.map (fun b => .encEmit (some b))
        ++ List.replicate (total - 1 - body.length) (.encEmit none) := by
  simp [frameOffers, Function.comp_def]

theorem frameOffers_offeredAt (body : List Byte) (total k : Nat) (hk : k < (frameOffers body total).length) :
    OfferedAt body k (frameOffers body total)[k] := by
  intro hlow hhigh
  obtain ⟨n, rfl⟩ := Nat.exists_eq_succ_of_ne_zero hlow
  have hn : n < body.length := hhigh
  simp [frameOffers, List.getElem_append_left, hn]

/-- The start and the emits of a whole frame, as events. -/
theorem runAll_encodeEvents {s : State} {body : List Byte} {total : Nat} (hfree : s.free) (hidle : s.enc.state = .idle)
    (hbody : s.params.fits body.length = true) (htotal : s.params.fits total = true) (h : body.length + 2 ≤ total) :
    runAll (.encStart body.length total :: (frameOffers body total).map .encEmit) s =
      .next (s.sending body total total) := by
  have hstarted : (s.sending body total 0).free := hfree
  rw [runAll, exec_encStart_of_fits hfree hbody htotal, andThen_next, State.encStart_eq_sending hidle h,
    runAll_encEmit _ hstarted, State.foldl_encEmit_sending h, frameOffers_length h, Nat.zero_add]
  · rw [frameOffers_length h, Nat.zero_add]
  · intro k hk
    rw [Nat.zero_add]
    exact frameOffers_offeredAt body total k hk

/-- Settles O12, by the length test: the rejection, or the run of the whole frame. -/
theorem encoderLevelsAgree : Obligations.EncoderLevelsAgree := by
  intro body total s hfree hidle hbody htotal
  rcases Nat.lt_or_ge total (body.length + 2) with hlong | hfits
  · refine .inl ⟨encodeFrame_eq_error.mpr hlong, s.encStart body.length total, ?_⟩
    rw [runAll, exec_encStart_of_fits hfree hbody htotal, State.encStart_of_tooLong hidle hlong]
    exact ⟨rfl, rfl, rfl, rfl, rfl⟩
  · refine .inr ⟨frameBytes body total, s.sending body total total, encodeFrame_of_fits hfits, ?_⟩
    have hrun := runAll_encodeEvents hfree hidle hbody htotal hfits
    rw [map_encEmit_frameOffers] at hrun
    refine ⟨hrun, ?_⟩
    rw [State.sending_total hfits]
    exact ⟨rfl, frameBytes_length hfits, rfl, rfl, rfl, rfl⟩

end Sys2Proof.Machine
end

section
/-! PROOFS. `decode` by the parts of what is received (spec/42_frame_parser.md R69 to R74): filler and the first marker,
then status, length, payload and checksum. -/

namespace Sys2Proof.Machine

/-! ### Filler and the first marker (R70, R72) -/

theorem dropWhile_filler_append {f : List Byte} (hf : Config.sync ∉ f) (r : List Byte) :
    (f ++ r).dropWhile (fun b => b != Config.sync) = r.dropWhile (fun b => b != Config.sync) := by
  apply List.dropWhile_append_of_pos
  intro b hb
  exact bne_iff_ne.mpr (ne_of_mem_of_not_mem hb hf)

/-- Filler in front changes nothing (Q2). -/
theorem decodeResponse_filler_append {f : List Byte} (hf : Config.sync ∉ f) (r : List Byte) :
    decodeResponse (f ++ r) = decodeResponse r := by
  rw [decodeResponse, dropWhile_filler_append hf, ← decodeResponse]

theorem decodeResponse_of_filler {f : List Byte} (hf : Config.sync ∉ f) : decodeResponse f = .error .syncNotFound := by
  have happend := decodeResponse_filler_append hf []
  rw [List.append_nil] at happend
  rw [happend]
  rfl

/-- The parse commits to the first marker. -/
theorem decodeResponse_marker {f : List Byte} (hf : Config.sync ∉ f) (frame : List Byte) :
    decodeResponse (f ++ Config.sync :: frame) = decodeAfterSync frame := by
  rw [decodeResponse_filler_append hf]
  rfl

theorem fillerLength_marker {f : List Byte} (hf : Config.sync ∉ f) (frame : List Byte) :
    fillerLength (f ++ Config.sync :: frame) = f.length := by
  have hall : ∀ b ∈ f, (b != Config.sync) = true := fun b hb => bne_iff_ne.mpr (ne_of_mem_of_not_mem hb hf)
  rw [fillerLength, List.takeWhile_append_of_pos hall, List.takeWhile_cons_of_neg (by simp), List.append_nil]

/-- What is received is filler, or filler and the first marker with what follows it. -/
theorem filler_or_marker (raw : List Byte) :
    Config.sync ∉ raw ∨ ∃ f frame, Config.sync ∉ f ∧ raw = f ++ Config.sync :: frame := by
  by_cases h : Config.sync ∈ raw
  · obtain ⟨f, frame, rfl, hf⟩ := List.eq_append_cons_of_mem h
    exact .inr ⟨f, frame, hf, rfl⟩
  · exact .inl h

/-! ### From the status on (R69, R71) -/

theorem decodeAfterSync_of_noStatus {r : List Byte} (h : r.length < 2) : decodeAfterSync r = .error .truncated := by
  match r, h with
  | [], _ => rfl
  | [_], _ => rfl

/-- A status that is not `90 00` is the error, whatever follows. -/
theorem decodeAfterSync_of_badStatus {s0 s1 : Byte} (h : (s0 ++ s1 : Half) ≠ Config.statusOk) (r : List Byte) :
    decodeAfterSync (s0 :: s1 :: r) = .error (.statusError (s0 ++ s1)) := by
  simp [decodeAfterSync, be16_eq_append, h]

theorem decodeAfterSync_of_noLength {r : List Byte} (h : r.length < 2) :
    decodeAfterSync (0x90 :: 0x00 :: r) = .error .truncated := by
  match r, h with
  | [], _ => rfl
  | [_], _ => rfl

/-- A payload byte or the checksum is missing. -/
theorem decodeAfterSync_of_cut {l0 l1 : Byte} {r : List Byte} (h : r.length ≤ (l0 ++ l1 : Half).toNat) :
    decodeAfterSync (0x90 :: 0x00 :: l0 :: l1 :: r) = .error .truncated := by
  have hgood : ¬ be16 0x90 0x00 ≠ Config.statusOk := by decide
  rw [decodeAfterSync, if_neg hgood]
  simp [be16_eq_append, List.drop_eq_nil_of_le h]

/-- A payload of the length received and a byte behind it: the checksum decides. -/
theorem decodeAfterSync_of_whole {l0 l1 : Byte} {p : List Byte} (h : p.length = (l0 ++ l1 : Half).toNat) (cs : Byte)
    (t : List Byte) :
    decodeAfterSync (0x90 :: 0x00 :: l0 :: l1 :: (p ++ cs :: t)) =
      if checksum (0x90 :: 0x00 :: l0 :: l1 :: p) = cs then .ok p else .error .checksumMismatch := by
  have hgood : ¬ be16 0x90 0x00 ≠ Config.statusOk := by decide
  rw [decodeAfterSync, if_neg hgood]
  simp [be16_eq_append, ← h]

/-- What follows a marker, by the read that ends the parse. -/
inductive FrameShape : List Byte → Prop where
  | noStatus {r : List Byte} (h : r.length < 2) : FrameShape r
  | badStatus {s0 s1 : Byte} (h : (s0 ++ s1 : Half) ≠ Config.statusOk) (r : List Byte) : FrameShape (s0 :: s1 :: r)
  | noLength {r : List Byte} (h : r.length < 2) : FrameShape (0x90 :: 0x00 :: r)
  | cut {l0 l1 : Byte} {r : List Byte} (h : r.length ≤ (l0 ++ l1 : Half).toNat) :
      FrameShape (0x90 :: 0x00 :: l0 :: l1 :: r)
  | whole {l0 l1 : Byte} {p : List Byte} (h : p.length = (l0 ++ l1 : Half).toNat) (cs : Byte) (t : List Byte) :
      FrameShape (0x90 :: 0x00 :: l0 :: l1 :: (p ++ cs :: t))

/-- Two bytes that make the good status are `90 00`. -/
theorem bytes_of_statusOk {s0 s1 : Byte} (h : (s0 ++ s1 : Half) = Config.statusOk) : s0 = 0x90 ∧ s1 = 0x00 := by
  constructor
  · rw [← upper_append s0 s1, h]
    rfl
  · rw [← setWidth_append_low s0 s1, h]
    rfl

/-- Bytes with one at place `n` are `n` bytes, that one, and the rest. -/
theorem exists_split_at {r : List Byte} {n : Nat} (h : n < r.length) : ∃ p b t, r = p ++ b :: t ∧ p.length = n := by
  refine ⟨r.take n, r[n], r.drop (n + 1), ?_, by rw [List.length_take, Nat.min_eq_left h.le]⟩
  rw [List.getElem_cons_drop, List.take_append_drop]

/-- Behind a length: cut, or a whole payload and the byte behind it. -/
theorem frameShape_of_length (l0 l1 : Byte) (r : List Byte) : FrameShape (0x90 :: 0x00 :: l0 :: l1 :: r) := by
  rcases Nat.lt_or_ge (l0 ++ l1 : Half).toNat r.length with hlt | hle
  · obtain ⟨p, cs, t, rfl, hp⟩ := exists_split_at hlt
    exact .whole hp cs t
  · exact .cut hle

theorem frameShape (frame : List Byte) : FrameShape frame := by
  match frame with
  | [] | [_] => exact .noStatus (by simp)
  | s0 :: s1 :: r =>
    by_cases hstatus : (s0 ++ s1 : Half) = Config.statusOk
    · obtain ⟨rfl, rfl⟩ := bytes_of_statusOk hstatus
      match r with
      | [] | [_] => exact .noLength (by simp)
      | l0 :: l1 :: r => exact frameShape_of_length l0 l1 r
    · exact .badStatus hstatus r

/-! ### The response frame of R73 -/

theorem respFrame_eq (st : Half) (p : List Byte) :
    respFrame st p = Config.sync :: upper st :: st.setWidth 8 :: highByte p.length :: lowByte p.length ::
      (p ++ [checksum (upper st :: st.setWidth 8 :: highByte p.length :: lowByte p.length :: p)]) := by
  simp [respFrame]

theorem upper_append_setWidth (v : Half) : (upper v ++ v.setWidth 8 : Half) = v := by
  apply BitVec.eq_of_toNat_eq
  rw [toNat_append_bytes, upper, BitVec.toNat_setWidth, BitVec.toNat_setWidth, BitVec.toNat_ushiftRight,
    Nat.shiftRight_eq_div_pow]
  omega

end Sys2Proof.Machine
end

section
/-! PROOFS. What `decode` says of response frames: the properties Q1 to Q8 (spec/42_frame_parser.md R73) and the outcomes
of one changed byte (R74). -/

namespace Sys2Proof.Machine

/-! ### Reads past the end, and the first marker (R70 to R72) -/

/-- Settles O18: each read that is missing, behind the first marker. -/
theorem readsPastTheEndAreTruncated : Obligations.ReadsPastTheEndAreTruncated := by
  intro f hf
  refine ⟨fun r hr => ?status, fun r hr => ?length, fun l0 l1 r hr => ?payload⟩
  case status =>
    rw [List.append_assoc]
    exact (decodeResponse_marker hf r).trans (decodeAfterSync_of_noStatus hr)
  case length =>
    rw [List.append_assoc]
    exact (decodeResponse_marker hf _).trans (decodeAfterSync_of_noLength hr)
  case payload =>
    rw [List.append_assoc]
    exact (decodeResponse_marker hf _).trans (decodeAfterSync_of_cut hr)

/-- Settles O19: filler is dropped, and what follows the first marker alone decides. -/
theorem parseCommitsToTheFirstMarker : Obligations.ParseCommitsToTheFirstMarker := by
  intro f hf
  refine ⟨decodeResponse_of_filler hf, fun r => ?marker, fun s0 s1 r hstatus => ?status⟩
  case marker => rw [List.append_assoc, decodeResponse_filler_append hf]
  case status =>
    rw [List.append_assoc]
    exact (decodeResponse_marker hf _).trans (decodeAfterSync_of_badStatus hstatus r)

/-! ### A response frame behind filler (R73) -/

/-- The checksum byte of the good response of a payload (R49). -/
def responseChecksum (p : List Byte) : Byte :=
  checksum (0x90 :: 0x00 :: highByte p.length :: lowByte p.length :: p)

/-- A good response behind filler and before trailing bytes, by its parts. -/
theorem goodResponse_eq (f p t : List Byte) :
    f ++ respFrame 0x9000 p ++ t = f ++ Config.sync :: 0x90 :: 0x00 :: highByte p.length :: lowByte p.length ::
      (p ++ responseChecksum p :: t) := by
  have hupper : upper 0x9000 = 0x90 := by decide
  have hlower : (0x9000 : Half).setWidth 8 = (0x00 : Byte) := by decide
  rw [respFrame_eq, hupper, hlower, ← responseChecksum]
  simp

/-- Behind the status and length of a good response, with a payload of that length: its checksum decides. -/
theorem decodeResponse_whole {f p q : List Byte} (hf : Config.sync ∉ f) (hp : p.length ≤ 65535)
    (hq : q.length = p.length) (cs : Byte) (t : List Byte) :
    decodeResponse (f ++ Config.sync :: 0x90 :: 0x00 :: highByte p.length :: lowByte p.length :: (q ++ cs :: t)) =
      if responseChecksum q = cs then .ok q else .error .checksumMismatch := by
  have hlength : q.length = (highByte p.length ++ lowByte p.length : Half).toNat := by
    rw [hq, toNat_highByte_append_lowByte hp]
  rw [decodeResponse_marker hf, decodeAfterSync_of_whole hlength, responseChecksum, hq]

/-- Q3: the round trip behind filler and before trailing bytes. -/
theorem decodeResponse_good {f p : List Byte} (hf : Config.sync ∉ f) (hp : p.length ≤ 65535) (t : List Byte) :
    decodeResponse (f ++ respFrame 0x9000 p ++ t) = .ok p := by
  rw [goodResponse_eq, decodeResponse_whole hf hp rfl, if_pos rfl]

/-- Q6: a response of another status. -/
theorem decodeResponse_badStatus {st : Half} {f : List Byte} (hst : st ≠ Config.statusOk) (hf : Config.sync ∉ f)
    (p t : List Byte) : decodeResponse (f ++ respFrame st p ++ t) = .error (.statusError st) := by
  have hbad : (upper st ++ st.setWidth 8 : Half) ≠ Config.statusOk := by rwa [upper_append_setWidth]
  rw [List.append_assoc, respFrame_eq, List.cons_append, decodeResponse_marker hf]
  refine (decodeAfterSync_of_badStatus hbad _).trans ?_
  rw [upper_append_setWidth]

/-- Q4, from the status on: a verdict other than `Truncated` stands whatever follows. -/
theorem decodeAfterSync_append {frame : List Byte} (h : decodeAfterSync frame ≠ .error .truncated) (t : List Byte) :
    decodeAfterSync (frame ++ t) = decodeAfterSync frame := by
  cases frameShape frame with
  | noStatus hshort => exact absurd (decodeAfterSync_of_noStatus hshort) h
  | badStatus hbad r => exact (decodeAfterSync_of_badStatus hbad _).trans (decodeAfterSync_of_badStatus hbad _).symm
  | noLength hshort => exact absurd (decodeAfterSync_of_noLength hshort) h
  | cut hcut => exact absurd (decodeAfterSync_of_cut hcut) h
  | @whole l0 l1 p hlen cs r =>
    have htail : p ++ cs :: r ++ t = p ++ cs :: (r ++ t) := List.append_assoc p (cs :: r) t
    simp only [List.cons_append, htail]
    rw [decodeAfterSync_of_whole hlen, decodeAfterSync_of_whole hlen]

/-- Q4: nothing behind a verdict that is not for want of bytes changes it. -/
theorem decodeResponse_append {raw : List Byte} (htruncated : decodeResponse raw ≠ .error .truncated)
    (hnotFound : decodeResponse raw ≠ .error .syncNotFound) (t : List Byte) :
    decodeResponse (raw ++ t) = decodeResponse raw := by
  rcases filler_or_marker raw with hfiller | ⟨f, frame, hf, rfl⟩
  · exact absurd (decodeResponse_of_filler hfiller) hnotFound
  · rw [decodeResponse_marker hf] at htruncated
    rw [List.append_assoc, List.cons_append, decodeResponse_marker hf, decodeResponse_marker hf,
      decodeAfterSync_append htruncated]

/-- Behind the marker of a success stand status, length, the payload returned and its checksum. -/
theorem length_of_decodeAfterSync {frame p : List Byte} (h : decodeAfterSync frame = .ok p) :
    p.length + 5 ≤ frame.length := by
  cases frameShape frame with
  | noStatus hshort => simp [decodeAfterSync_of_noStatus hshort] at h
  | badStatus hbad r => simp [decodeAfterSync_of_badStatus hbad] at h
  | noLength hshort => rw [decodeAfterSync_of_noLength hshort] at h; contradiction
  | cut hcut => rw [decodeAfterSync_of_cut hcut] at h; contradiction
  | whole hlen cs r =>
    rw [decodeAfterSync_of_whole hlen] at h
    split at h
    · cases h
      simp
    · contradiction

/-- Q7: the length bound. -/
theorem length_of_decodeResponse {raw p : List Byte} (h : decodeResponse raw = .ok p) :
    fillerLength raw + 6 + p.length ≤ raw.length := by
  rcases filler_or_marker raw with hfiller | ⟨f, frame, hf, rfl⟩
  · simp [decodeResponse_of_filler hfiller] at h
  · rw [decodeResponse_marker hf] at h
    have hlen := length_of_decodeAfterSync h
    rw [fillerLength_marker hf, List.length_append, List.length_cons]
    omega

/-- Q8, loop-back: a frame sent out is a response whose status is its body's first two bytes. -/
theorem decodeResponse_of_encoded {b0 b1 : Byte} {body f : List Byte} {total : Nat}
    (hstatus : (b0 ++ b1 : Half) ≠ Config.statusOk) (h : encodeFrame (b0 :: b1 :: body) total = .ok f) :
    decodeResponse f = .error (.statusError (b0 ++ b1)) := by
  obtain ⟨-, rfl⟩ := encodeFrame_eq_ok.mp h
  exact (decodeResponse_marker (f := []) nofun _).trans (decodeAfterSync_of_badStatus hstatus _)

/-- Q8 for the four commands: the status is the first two bytes of the header. -/
theorem decodeResponse_of_command {p : Params} {cmd : Cmd} {rand sig body f : List Byte} {total : Nat}
    (hbody : compose p cmd rand sig = .ok body) (h : encodeFrame body total = .ok f) :
    decodeResponse f = .error (.statusError (if cmd = .negotiate then 0x8002 else 0x8036)) := by
  by_cases hcmd : cmd = .negotiate
  case pos =>
    subst hcmd
    rw [compose] at hbody
    split at hbody
    · contradiction
    · split at hbody
      · contradiction
      · cases hbody
        exact decodeResponse_of_encoded (b0 := 0x80) (b1 := 0x02) (by decide) h
  case neg =>
    rw [compose_fixed hcmd] at hbody
    cases hbody
    rw [if_neg hcmd]
    cases cmd with
    | getMsCert | getTermCert | getInfo => exact decodeResponse_of_encoded (b0 := 0x80) (b1 := 0x36) (by decide) h
    | negotiate => contradiction

/-- Settles O20, property by property; the unfinished verdicts of Q5 become the payload of an empty response. -/
theorem decodeProperties : Obligations.DecodeProperties := by
  refine ⟨?roundTrip, fun f r hf => decodeResponse_filler_append hf r, fun f p t hf hp => decodeResponse_good hf hp t,
    fun r t => (decodeResponse_append · · t), ⟨?truncated, ?notFound⟩,
    fun st f p t hst hf _ => decodeResponse_badStatus hst hf p t, fun raw p => length_of_decodeResponse,
    fun b0 b1 body f total => decodeResponse_of_encoded, fun p cmd rand sig body f total => decodeResponse_of_command⟩
  case roundTrip =>
    intro p hp
    have hgood := decodeResponse_good (f := []) nofun hp []
    rwa [List.append_nil, List.nil_append] at hgood
  case truncated => exact ⟨[0x55], [0x90, 0x00, 0x00, 0x00, 0x6F], [], by decide, by decide⟩
  case notFound => exact ⟨[], [0x55, 0x90, 0x00, 0x00, 0x00, 0x6F], [], by decide, by decide⟩

/-! ### One changed byte (R74) -/

/-- A byte behind the filler. -/
theorem getElem?_behind (f g : List Byte) (j : Nat) : (f ++ g)[f.length + j]? = g[j]? := by
  rw [List.getElem?_append_right (Nat.le_add_right _ _), Nat.add_sub_cancel_left]

theorem set_behind (f g : List Byte) (j : Nat) (x : Byte) : (f ++ g).set (f.length + j) x = f ++ g.set j x := by
  rw [List.set_append_right _ _ (Nat.le_add_right _ _), Nat.add_sub_cancel_left]

theorem drop_behind (f g : List Byte) (j : Nat) : (f ++ g).drop (f.length + j) = g.drop j := by
  rw [← List.drop_drop, List.drop_left]

theorem slice_behind (f g : List Byte) (o w : Nat) : slice (f.length + o) w (f ++ g) = slice o w g := by
  rw [slice, drop_behind, ← slice]

/-- A changed payload byte changes the checksum. -/
theorem responseChecksum_set_ne {p : List Byte} {j : Nat} (hj : j < p.length) {x : Byte} (hx : x ≠ p[j]) :
    responseChecksum (p.set j x) ≠ responseChecksum p := by
  have hset := checksum_set_ne (bs := 0x90 :: 0x00 :: highByte p.length :: lowByte p.length :: p) (k := j + 4)
    (Nat.add_lt_add_right hj 4) hx
  rwa [responseChecksum, List.length_set]

/-- The parse of a frame with a good status, by the length received, as R69 reads it from the bytes. -/
theorem decodeResponse_by_length {f : List Byte} (hf : Config.sync ∉ f) (l0 l1 : Byte) (r : List Byte) :
    let raw := f ++ Config.sync :: 0x90 :: 0x00 :: l0 :: l1 :: r
    let i := f.length
    let len := 256 * (raw.getD (i + 3) 0).toNat + (raw.getD (i + 4) 0).toNat
    decodeResponse raw =
      if raw.length < i + 6 + len then .error .truncated
      else if raw[i + 5 + len]? = some (checksum (slice (i + 1) (4 + len) raw)) then .ok (slice (i + 5) len raw)
      else .error .checksumMismatch := by
  intro raw i len
  have hlen : len = (l0 ++ l1 : Half).toNat := by
    simp [len, raw, i, List.getD_eq_getElem?_getD, toNat_append_bytes]
  have hpayload : slice (i + 5) len raw = r.take len := slice_behind f _ 5 len
  have hcovered : slice (i + 1) (4 + len) raw = 0x90 :: 0x00 :: l0 :: l1 :: r.take len := by
    rw [slice_behind f _ 1, Nat.add_comm]
    rfl
  have hchecksum : raw[i + 5 + len]? = r[len]? := by
    rw [Nat.add_assoc, getElem?_behind, Nat.add_comm]
    rfl
  have hraw : raw.length = i + 5 + r.length := by
    simp only [raw, List.length_append, List.length_cons]
    omega
  rw [hpayload, hcovered, hchecksum, hraw, hlen, decodeResponse_marker hf]
  split
  case isTrue hcut => exact decodeAfterSync_of_cut (by omega)
  case isFalse hlong =>
    obtain ⟨p, cs, t, rfl, hp⟩ := exists_split_at (r := r) (n := (l0 ++ l1 : Half).toNat) (by omega)
    rw [decodeAfterSync_of_whole hp, ← hp, List.take_left, List.getElem?_append_right le_rfl, Nat.sub_self]
    simp only [List.getElem?_cons_zero, Option.some.injEq, eq_comm]

section ChangedByte

variable {f p t : List Byte} {k j : Nat} {x : Byte}

/-- A changed byte of the payload or of the checksum. -/
theorem decodeResponse_set_covered (hf : Config.sync ∉ f) (hp : p.length ≤ 65535)
    (hx : (f ++ respFrame 0x9000 p ++ t)[f.length + (j + 5)]? ≠ some x) (hj : j ≤ p.length) :
    decodeResponse ((f ++ respFrame 0x9000 p ++ t).set (f.length + (j + 5)) x) = .error .checksumMismatch := by
  rw [goodResponse_eq, getElem?_behind] at hx
  rw [goodResponse_eq, set_behind]
  simp only [List.set_cons_succ, List.getElem?_cons_succ] at hx ⊢
  rcases Nat.lt_or_eq_of_le hj with hlt | rfl
  case inl =>
    rw [List.getElem?_append_left hlt, List.getElem?_eq_getElem hlt] at hx
    have hne : x ≠ p[j] := fun heq => hx (congrArg some heq.symm)
    rw [List.set_append_left _ _ hlt, decodeResponse_whole hf hp List.length_set,
      if_neg (responseChecksum_set_ne hlt hne)]
  case inr =>
    have hne : responseChecksum p ≠ x := by simpa using hx
    rw [List.set_append_right _ _ le_rfl, Nat.sub_self, List.set_cons_zero, decodeResponse_whole hf hp rfl, if_neg hne]

/-- A changed first byte of the status. -/
theorem decodeResponse_set_statusHigh (hf : Config.sync ∉ f)
    (hx : (f ++ respFrame 0x9000 p ++ t)[f.length + 1]? ≠ some x) :
    decodeResponse ((f ++ respFrame 0x9000 p ++ t).set (f.length + 1) x) =
      .error (.statusError (x ++ (0x00 : Byte))) := by
  rw [goodResponse_eq, getElem?_behind] at hx
  have hbad : (x ++ (0x00 : Byte) : Half) ≠ Config.statusOk := by
    intro hgood
    obtain ⟨rfl, -⟩ := bytes_of_statusOk hgood
    exact hx rfl
  rw [goodResponse_eq, set_behind]
  exact (decodeResponse_marker hf _).trans (decodeAfterSync_of_badStatus hbad _)

/-- A changed second byte of the status. -/
theorem decodeResponse_set_statusLow (hf : Config.sync ∉ f)
    (hx : (f ++ respFrame 0x9000 p ++ t)[f.length + 2]? ≠ some x) :
    decodeResponse ((f ++ respFrame 0x9000 p ++ t).set (f.length + 2) x) =
      .error (.statusError ((0x90 : Byte) ++ x)) := by
  rw [goodResponse_eq, getElem?_behind] at hx
  have hbad : ((0x90 : Byte) ++ x : Half) ≠ Config.statusOk := by
    intro hgood
    obtain ⟨-, rfl⟩ := bytes_of_statusOk hgood
    exact hx rfl
  rw [goodResponse_eq, set_behind]
  exact (decodeResponse_marker hf _).trans (decodeAfterSync_of_badStatus hbad _)

/-- A changed byte of the length leaves a good status and some length. -/
theorem set_length_eq (hj : j = 3 ∨ j = 4) : ∃ l0 l1 r,
    (f ++ respFrame 0x9000 p ++ t).set (f.length + j) x = f ++ Config.sync :: 0x90 :: 0x00 :: l0 :: l1 :: r := by
  rw [goodResponse_eq, set_behind]
  rcases hj with rfl | rfl <;> exact ⟨_, _, _, rfl⟩

/-- A marker changed to another byte is filler. -/
theorem decodeResponse_set_sync (hf : Config.sync ∉ f)
    (hx : (f ++ respFrame 0x9000 p ++ t)[f.length]? ≠ some x) :
    decodeResponse ((f ++ respFrame 0x9000 p ++ t).set f.length x) =
      decodeResponse ((f ++ respFrame 0x9000 p ++ t).drop (f.length + 1)) := by
  rw [goodResponse_eq] at hx ⊢
  have hne : Config.sync ≠ x := fun heq => hx ((getElem?_behind f _ 0).trans (congrArg some heq))
  have hfiller : Config.sync ∉ f ++ [x] := by simp [hf, hne]
  have hset := set_behind f (Config.sync :: 0x90 :: 0x00 :: highByte p.length :: lowByte p.length ::
    (p ++ responseChecksum p :: t)) 0 x
  rw [drop_behind, List.drop_succ_cons, List.drop_zero]
  refine (congrArg decodeResponse hset).trans ?_
  rw [List.set_cons_zero, List.append_cons, decodeResponse_filler_append hfiller]

/-- A byte of the filler changed to a marker: the parse begins there. -/
theorem decodeResponse_set_filler_sync (hf : Config.sync ∉ f) (hk : k < f.length) (g : List Byte) :
    decodeResponse ((f ++ g).set k Config.sync) = decodeResponse (Config.sync :: (f ++ g).drop (k + 1)) := by
  have htake : Config.sync ∉ f.take k := fun hmem => hf (List.mem_of_mem_take hmem)
  have hlen : k < (f ++ g).length := by simp; omega
  rw [List.set_eq_take_append_cons_drop, if_pos hlen, List.take_append_of_le_length hk.le,
    decodeResponse_filler_append htake]

/-- A byte of the filler changed to anything else is filler again. -/
theorem decodeResponse_set_filler (hf : Config.sync ∉ f) (hk : k < f.length) (hx : x ≠ Config.sync) (g : List Byte) :
    decodeResponse ((f ++ g).set k x) = decodeResponse (f ++ g) := by
  have hset : Config.sync ∉ f.set k x := fun hmem =>
    (List.mem_or_eq_of_mem_set hmem).elim hf fun heq => hx heq.symm
  rw [List.set_append_left _ _ hk, decodeResponse_filler_append hset, decodeResponse_filler_append hf]

/-- A changed byte behind the frame. -/
theorem decodeResponse_set_trailing (hf : Config.sync ∉ f) (hp : p.length ≤ 65535)
    (hk : f.length + 6 + p.length ≤ k) : decodeResponse ((f ++ respFrame 0x9000 p ++ t).set k x) = .ok p := by
  have hlen : (f ++ respFrame 0x9000 p).length ≤ k := by
    rw [List.length_append, respFrame_eq]
    simp
    omega
  rw [List.set_append_right _ _ hlen, decodeResponse_good hf hp]

end ChangedByte

/-- Settles O21, by the place of the changed byte. -/
theorem changedByteOutcomes : Obligations.ChangedByteOutcomes := by
  intro f p t k x hf hp raw i raw' hx _
  refine ⟨?covered, ?status0, ?status1, ?length, ?sync, ?fillerSync, ?filler, decodeResponse_set_trailing hf hp⟩
  case covered =>
    intro hlow hhigh
    obtain ⟨j, rfl⟩ := Nat.exists_eq_add_of_le hlow
    rw [Nat.add_assoc, Nat.add_comm 5 j] at hx
    simp only [raw', Nat.add_assoc, Nat.add_comm 5 j]
    exact decodeResponse_set_covered hf hp hx (by omega)
  case status0 =>
    rintro rfl
    exact decodeResponse_set_statusHigh hf hx
  case status1 =>
    rintro rfl
    exact decodeResponse_set_statusLow hf hx
  case length =>
    intro hk len
    obtain ⟨j, rfl⟩ : ∃ j, k = i + j := ⟨k - i, by omega⟩
    obtain ⟨l0, l1, r, hset⟩ := set_length_eq (f := f) (p := p) (t := t) (x := x) (j := j) (by omega)
    have hparse := decodeResponse_by_length hf l0 l1 r
    rw [← hset] at hparse
    have hlen : raw'.length = raw.length := List.length_set
    rw [← hlen]
    split
    case isTrue hcut => exact hparse.trans (if_pos hcut)
    case isFalse hlong =>
      have hverdict := hparse.trans (if_neg hlong)
      split
      case isTrue hgood => exact hverdict.trans (if_pos hgood)
      case isFalse hbad => exact hverdict.trans (if_neg hbad)
  case sync =>
    rintro rfl
    exact decodeResponse_set_sync hf hx
  case fillerSync =>
    rintro hk rfl
    simp only [raw', raw, List.append_assoc]
    exact decodeResponse_set_filler_sync hf hk _
  case filler =>
    intro hk hne
    simp only [raw', raw, List.append_assoc]
    rw [decodeResponse_set_filler hf hk hne, ← List.append_assoc, decodeResponse_good hf hp]

end Sys2Proof.Machine
end

section
/-! PROOFS. RXP's events on the whole machine (spec/42_frame_parser.md R75 to R77), and the parse that they make: what
the registers say after the bytes is what `decode` says of them (R79). -/

namespace Sys2Proof.Machine

/-! ### RXP's events while no query runs -/

theorem exec_rxStart_of_free {s : State} (h : s.free) : exec .rxStart s = .next s.rxStart := whenFree_of_free h

theorem exec_rxByte_of_free {s : State} (h : s.free) (b : Byte) : exec (.rxByte b false) s = s.rxByte b :=
  (whenFree_of_free h).trans (andThen_next_right _)

/-- A byte with the end in the same step: the end meets the registers that the byte has left (R77). -/
theorem exec_rxByte_atEnd_of_free {s : State} (h : s.free) (b : Byte) :
    exec (.rxByte b true) s = andThen (s.rxByte b) (fun t => .next t.rxEnd) := whenFree_of_free h

theorem exec_rxEnd_of_free {s : State} (h : s.free) : exec .rxEnd s = .next s.rxEnd := whenFree_of_free h

theorem State.rxByte_of_not_payload {s : State} (h : s.rxp.state ≠ .payload) (b : Byte) :
    s.rxByte b = .next { s with rxp := s.rxp.byte b } := by
  rw [State.rxByte, Rxp.storeAt_eq_none.mpr h]

theorem State.rxByte_of_payload {s : State} (h : s.rxp.state = .payload) (hcnt : s.rxp.cnt.toNat < Config.pbufDepth)
    (b : Byte) :
    s.rxByte b = .next { s with rxp := s.rxp.byte b, pbuf := Memory.write s.pbuf s.rxp.cnt.toNat b } := by
  rw [State.rxByte, Rxp.storeAt_eq_some.mpr ⟨h, rfl⟩]
  exact if_pos hcnt

/-- Settles O14. -/
theorem rxStartBeginsAFreshParse : Obligations.RxStartBeginsAFreshParse :=
  ⟨fun _ hfree => exec_rxStart_of_free hfree, fun _ _ _ _ _ => rfl⟩

theorem exec_rxByte_of_not_payload {s : State} (hfree : s.free) {b : Byte} {r' : Rxp} (hst : s.rxp.state ≠ .payload)
    (hbyte : s.rxp.byte b = r') : exec (.rxByte b false) s = .next { s with rxp := r' } := by
  rw [exec_rxByte_of_free hfree, State.rxByte_of_not_payload hst, hbyte]

/-- The second status byte as one write of the registers (R76). -/
theorem Rxp.byte_of_stLo_eq {r : Rxp} (h : r.state = .stLo) (b : Byte) :
    r.byte b =
      { r with
        status := upper r.status ++ b, acc := r.acc ^^^ b
        state := if upper r.status ++ b = (0x9000 : Half) then .lenHi else .fail
        err := if upper r.status ++ b = (0x9000 : Half) then r.err else 2 } := by
  rw [Rxp.byte_of_stLo h, setLow_eq_append, Config.statusOk]
  split <;> rfl

/-- The checksum byte as one write of the registers (R76). -/
theorem Rxp.byte_of_csum_eq {r : Rxp} (h : r.state = .csum) (b : Byte) :
    r.byte b =
      { r with cs := b, state := if b = ~~~ r.acc then .ok else .fail, err := if b = ~~~ r.acc then r.err else 4 } := by
  rw [Rxp.byte_of_csum h, csOut]
  split <;> rfl

/-- Settles O15: RXP's own equation for each state; only in `R_PAYLOAD` is the byte stored. -/
theorem rxByteByState : Obligations.RxByteByState := by
  intro b s hfree r
  refine ⟨?notStored, ?stored, ?atEnd⟩
  case notStored =>
    rintro r' (⟨hrest, rfl⟩ | ⟨hst, rfl⟩ | ⟨hst, rfl⟩ | ⟨hst, rfl⟩ | ⟨hst, rfl⟩ | ⟨hst, rfl⟩ | ⟨hst, rfl⟩)
    · refine exec_rxByte_of_not_payload hfree ?_ (Rxp.byte_of_resting hrest b)
      rcases hrest with hst | hst | hst <;> exact hst.trans_ne nofun
    · exact exec_rxByte_of_not_payload hfree (hst.trans_ne nofun) (Rxp.byte_of_hunt hst b)
    · refine exec_rxByte_of_not_payload hfree (hst.trans_ne nofun) ((Rxp.byte_of_stHi hst b).trans ?_)
      rw [setHigh_eq_append, csgAbsorb]
    · exact exec_rxByte_of_not_payload hfree (hst.trans_ne nofun) (Rxp.byte_of_stLo_eq hst b)
    · refine exec_rxByte_of_not_payload hfree (hst.trans_ne nofun) ((Rxp.byte_of_lenHi hst b).trans ?_)
      rw [setHigh_eq_append, csgAbsorb]
    · refine exec_rxByte_of_not_payload hfree (hst.trans_ne nofun) ((Rxp.byte_of_lenLo hst b).trans ?_)
      rw [setLow_eq_append, csgAbsorb, upper]
    · exact exec_rxByte_of_not_payload hfree (hst.trans_ne nofun) (Rxp.byte_of_csum_eq hst b)
  case stored =>
    intro hst hcnt
    rw [exec_rxByte_of_free hfree, State.rxByte_of_payload hst hcnt, Rxp.byte_of_payload hst]
    rfl
  case atEnd =>
    intro t ht
    rw [exec_rxByte_of_free hfree] at ht
    rw [exec_rxByte_atEnd_of_free hfree, ht]
    rfl

/-- Settles O17, by the verdict that stands, the missing marker, and the frame that is cut. -/
theorem rxEndByState : Obligations.RxEndByState := by
  intro s hfree
  rw [exec_rxEnd_of_free hfree, State.rxEnd]
  refine ⟨fun hrest => ?resting, fun hhunt => ?hunt, fun hopen => ?inFrame⟩
  case resting => rw [Rxp.finish_of_resting hrest]
  case hunt => rw [Rxp.finish_of_hunt hhunt]; rfl
  case inFrame =>
    have hrest : ¬ s.rxp.Resting := by
      rcases hopen with hst | hst | hst | hst | hst | hst <;> simp [Rxp.Resting, hst]
    have hhunt : s.rxp.state ≠ .hunt := by
      rcases hopen with hst | hst | hst | hst | hst | hst <;> simp [hst]
    rw [Rxp.finish_of_open hrest hhunt]
    rfl

/-! ### What RXP has read

The registers and the payload buffer hold the bytes behind the marker, up to the verdict. -/

/-- The bytes behind the marker that RXP has read, by its state. -/
inductive Rxp.FrameRead (r : Rxp) (m : Memory) (frame : List Byte) : Prop where
  | stHi (h : r.state = .stHi) (hframe : frame = [])
  | stLo (h : r.state = .stLo) (hframe : frame = [upper r.status])
  | lenHi (h : r.state = .lenHi) (hframe : frame = [0x90, 0x00])
  | lenLo (h : r.state = .lenLo) (hframe : frame = [0x90, 0x00, upper r.length])
  | payload (h : r.state = .payload) (hframe : frame = r.covered m)
  | csum (h : r.state = .csum) (hframe : frame = r.covered m)
  | ok (h : r.state = .ok) (t : List Byte) (hframe : frame = r.covered m ++ r.cs :: t)
  | badStatus (h : r.state = .fail) (herr : r.err = 2) (t : List Byte)
      (hframe : frame = upper r.status :: r.status.setWidth 8 :: t)
  | badChecksum (h : r.state = .fail) (herr : r.err = 4) (t : List Byte) (hframe : frame = r.covered m ++ r.cs :: t)

/-- The bytes that RXP has read since its start: filler, or filler and the first marker with what follows it. -/
inductive Rxp.HasRead (r : Rxp) (m : Memory) (bs : List Byte) : Prop where
  | filler (h : r.state = .hunt) (hf : Config.sync ∉ bs)
  | frame {f frame : List Byte} (hf : Config.sync ∉ f) (h : r.FrameRead m frame)
      (hbs : bs = f ++ Config.sync :: frame)

theorem Rxp.HasRead.started (m : Memory) : Rxp.started.HasRead m [] := .filler rfl nofun

/-- With a good status the checksum covers `90 00`, the two bytes of the length, and the payload bytes stored. -/
theorem Rxp.covered_of_statusOk {r : Rxp} (h : r.status = Config.statusOk) (m : Memory) :
    r.covered m = 0x90 :: 0x00 :: upper r.length :: r.length.setWidth 8 :: stored m r.cnt.toNat := by
  have hupper : upper Config.statusOk = 0x90 := by decide
  have hlower : Config.statusOk.setWidth 8 = (0x00 : Byte) := by decide
  rw [Rxp.covered, h, hupper, hlower]
  rfl

/-- A byte that is not stored is read behind the others. -/
theorem Rxp.FrameRead.byte {r : Rxp} {m : Memory} {frame : List Byte} (hinv : r.Inv m) (h : r.FrameRead m frame)
    (hs : r.state ≠ .payload) (b : Byte) : (r.byte b).FrameRead m (frame ++ [b]) := by
  rcases h with ⟨hst, rfl⟩ | ⟨hst, rfl⟩ | ⟨hst, rfl⟩ | ⟨hst, rfl⟩ | ⟨hst, rfl⟩ | ⟨hst, rfl⟩ | ⟨hst, t, rfl⟩ |
    ⟨hst, herr, t, rfl⟩ | ⟨hst, herr, t, rfl⟩
  case stHi =>
    rw [Rxp.byte_of_stHi hst]
    exact .stLo rfl (by simp)
  case stLo =>
    rw [Rxp.byte_of_stLo hst]
    split
    case isTrue hgood =>
      rw [setLow_eq_append] at hgood
      obtain ⟨hupper, rfl⟩ := bytes_of_statusOk hgood
      exact .lenHi rfl (by simp [hupper])
    case isFalse hbad => exact .badStatus rfl rfl [] (by simp [Rxp.raise])
  case lenHi =>
    rw [Rxp.byte_of_lenHi hst]
    exact .lenLo rfl (by simp)
  case lenLo =>
    obtain ⟨hstatus, -⟩ := hinv.atLenLo hst
    have hstatus' : (r.byte b).status = Config.statusOk := by
      rw [Rxp.byte_of_lenLo hst]
      exact hstatus
    have hcovered : [0x90, 0x00, upper r.length] ++ [b] = (r.byte b).covered m := by
      rw [Rxp.covered_of_statusOk hstatus', Rxp.byte_of_lenLo hst]
      simp
    have hstate := congrArg Rxp.state (Rxp.byte_of_lenLo hst b)
    by_cases hzero : setLow r.length b = 0
    · exact .csum (hstate.trans (if_pos hzero)) hcovered
    · exact .payload (hstate.trans (if_neg hzero)) hcovered
  case payload => exact absurd hst hs
  case csum =>
    rw [Rxp.byte_of_csum hst]
    split
    case isTrue hgood => exact .ok rfl [] rfl
    case isFalse hbad => exact .badChecksum rfl rfl [] rfl
  case ok =>
    rw [Rxp.byte_of_resting (.inr (.inl hst))]
    exact .ok hst (t ++ [b]) (by simp)
  case badStatus =>
    rw [Rxp.byte_of_resting (.inr (.inr hst))]
    exact .badStatus hst herr (t ++ [b]) rfl
  case badChecksum =>
    rw [Rxp.byte_of_resting (.inr (.inr hst))]
    exact .badChecksum hst herr (t ++ [b]) (by simp)

/-- In `R_PAYLOAD` the byte stored is read behind the others. -/
theorem Rxp.FrameRead.byte_stored {r : Rxp} {m : Memory} {frame : List Byte} (hinv : r.Inv m) (h : r.FrameRead m frame)
    (hst : r.state = .payload) (b : Byte) :
    (r.byte b).FrameRead (Memory.write m r.cnt.toNat b) (frame ++ [b]) := by
  obtain ⟨-, hlt, -⟩ := hinv.atPayload hst
  have hframe : frame = r.covered m := by cases h <;> simp_all
  have hcovered : frame ++ [b] = (r.byte b).covered (Memory.write m r.cnt.toNat b) := by
    have hcnt : (r.cnt + 1).toNat = r.cnt.toNat + 1 := by bv_omega
    rw [Rxp.byte_of_payload hst, hframe, eq_comm]
    exact Rxp.covered_write m b rfl rfl hcnt
  have hstate := congrArg Rxp.state (Rxp.byte_of_payload hst b)
  by_cases hlast : r.cnt + 1 = r.length
  · exact .csum (hstate.trans (if_pos hlast)) hcovered
  · exact .payload (hstate.trans (if_neg hlast)) hcovered

/-- A byte step from a state of the invariant is taken, and its byte is read behind the others. -/
theorem State.rxByte_reads {s : State} {bs : List Byte} (hinv : s.rxp.Inv s.pbuf) (h : s.rxp.HasRead s.pbuf bs)
    (b : Byte) :
    ∃ t, s.rxByte b = .next t ∧ t.rxp.Inv t.pbuf ∧ t.rxp.HasRead t.pbuf (bs ++ [b]) := by
  by_cases hst : s.rxp.state = .payload
  case pos =>
    have hcnt := hinv.storeAt_lt (Rxp.storeAt_eq_some.mpr ⟨hst, rfl⟩)
    refine ⟨_, State.rxByte_of_payload hst hcnt b, hinv.byte_stored hst b, ?_⟩
    cases h with
    | filler hhunt => simp [hst] at hhunt
    | frame hf hframe hbs => exact .frame hf (hframe.byte_stored hinv hst b) (by simp [hbs])
  case neg =>
    refine ⟨_, State.rxByte_of_not_payload hst b, hinv.byte hst b, ?_⟩
    cases h with
    | filler hhunt hf =>
      dsimp only
      rw [Rxp.byte_of_hunt hhunt]
      split
      case isTrue hsync => exact .frame hf (.stHi rfl rfl) (by rw [hsync])
      case isFalse hother => exact .filler hhunt (by simp [hf, Ne.symm hother])
    | frame hf hframe hbs => exact .frame hf (hframe.byte hinv hst b) (by simp [hbs])

/-- So a whole run of byte steps is taken, and its bytes are read. -/
theorem State.feed_reads (bs : List Byte) {s : State} {read : List Byte} (hinv : s.rxp.Inv s.pbuf)
    (h : s.rxp.HasRead s.pbuf read) :
    ∃ t, State.feed bs s = .next t ∧ t.rxp.Inv t.pbuf ∧ t.rxp.HasRead t.pbuf (read ++ bs) := by
  induction bs generalizing s read with
  | nil => exact ⟨s, rfl, hinv, by rwa [List.append_nil]⟩
  | cons b bs ih =>
    obtain ⟨u, hu, hinvu, hreadu⟩ := State.rxByte_reads hinv h b
    obtain ⟨t, ht, hinvt, hreadt⟩ := ih hinvu hreadu
    rw [← List.append_cons] at hreadt
    exact ⟨t, andThen_eq_next.mpr ⟨u, hu, ht⟩, hinvt, hreadt⟩

/-- From a start, whatever the state before. -/
theorem State.feed_started (bs : List Byte) (s : State) :
    ∃ t, State.feed bs s.rxStart = .next t ∧ t.rxp.Inv t.pbuf ∧ t.rxp.HasRead t.pbuf bs :=
  State.feed_reads bs (s := s.rxStart) (Rxp.Inv.started s.pbuf) (Rxp.HasRead.started s.pbuf)

/-! ### What the registers say -/

/-- What RXP's registers say of the bytes read, as a result of `decode`. -/
inductive Rxp.Says (r : Rxp) (m : Memory) : Except Err (List Byte) → Prop where
  | payload (h : r.state = .ok) : Says r m (.ok (stored m r.length.toNat))
  | statusError (h : r.state = .fail) (herr : r.err = 2) : Says r m (.error (.statusError r.status))
  | checksumMismatch (h : r.state = .fail) (herr : r.err = 4) : Says r m (.error .checksumMismatch)
  | syncNotFound (h : r.state = .hunt) : Says r m (.error .syncNotFound)
  | truncated (hrest : ¬ r.Resting) (hhunt : r.state ≠ .hunt) : Says r m (.error .truncated)

theorem stored_length (m : Memory) (n : Nat) : (stored m n).length = n := by simp [stored]

/-- The checksum decides about a payload that is stored whole. -/
theorem decodeAfterSync_covered {r : Rxp} (hstatus : r.status = Config.statusOk) (hcnt : r.cnt = r.length) (m : Memory)
    (cs : Byte) (t : List Byte) :
    decodeAfterSync (r.covered m ++ cs :: t) =
      if checksum (r.covered m) = cs then .ok (stored m r.length.toNat) else .error .checksumMismatch := by
  have hlen : (stored m r.length.toNat).length = (upper r.length ++ r.length.setWidth 8 : Half).toNat := by
    rw [stored_length, upper_append_setWidth]
  rw [Rxp.covered_of_statusOk hstatus, hcnt]
  exact decodeAfterSync_of_whole hlen cs t

/-- Without the byte behind the payload stored the frame is cut. -/
theorem decodeAfterSync_covered_cut {r : Rxp} {m : Memory} (hinv : r.Inv m) (hstatus : r.status = Config.statusOk) :
    decodeAfterSync (r.covered m) = .error .truncated := by
  rw [Rxp.covered_of_statusOk hstatus]
  apply decodeAfterSync_of_cut
  rw [stored_length, upper_append_setWidth]
  exact hinv.counted

/-- Behind the marker the registers say what `decode` says, state by state. -/
theorem Rxp.FrameRead.says {r : Rxp} {m : Memory} {frame : List Byte} (hinv : r.Inv m) (h : r.FrameRead m frame) :
    r.Says m (decodeAfterSync frame) := by
  rcases h with ⟨hst, rfl⟩ | ⟨hst, rfl⟩ | ⟨hst, rfl⟩ | ⟨hst, rfl⟩ | ⟨hst, rfl⟩ | ⟨hst, rfl⟩ | ⟨hst, t, rfl⟩ |
    ⟨hst, herr, t, rfl⟩ | ⟨hst, herr, t, rfl⟩
  case stHi | stLo | lenHi | lenLo => exact .truncated (by simp [Rxp.Resting, hst]) (by simp [hst])
  case payload =>
    obtain ⟨hstatus, -⟩ := hinv.atPayload hst
    rw [decodeAfterSync_covered_cut hinv hstatus]
    exact .truncated (by simp [Rxp.Resting, hst]) (by simp [hst])
  case csum =>
    obtain ⟨hstatus, -⟩ := hinv.atCsum hst
    rw [decodeAfterSync_covered_cut hinv hstatus]
    exact .truncated (by simp [Rxp.Resting, hst]) (by simp [hst])
  case ok =>
    obtain ⟨hstatus, hcnt, -, hcs⟩ := hinv.atOk hst
    rw [decodeAfterSync_covered hstatus hcnt, if_pos hcs.symm]
    exact .payload hst
  case badStatus =>
    obtain ⟨hstatus, -⟩ := hinv.afterStatusError herr
    rw [← upper_append_setWidth r.status] at hstatus
    rw [decodeAfterSync_of_badStatus hstatus, upper_append_setWidth]
    exact .statusError hst herr
  case badChecksum =>
    obtain ⟨hstatus, hcnt, -, hcs⟩ := hinv.afterMismatch herr
    rw [decodeAfterSync_covered hstatus hcnt, if_neg hcs.symm]
    exact .checksumMismatch hst herr

/-- The registers after the bytes say what `decode` says of them (R79). -/
theorem Rxp.HasRead.says {r : Rxp} {m : Memory} {bs : List Byte} (hinv : r.Inv m) (h : r.HasRead m bs) :
    r.Says m (decodeResponse bs) := by
  cases h with
  | filler hhunt hf =>
    rw [decodeResponse_of_filler hf]
    exact .syncNotFound hhunt
  | frame hf hframe hbs =>
    rw [hbs, decodeResponse_marker hf]
    exact hframe.says hinv

/-! ### Both levels agree (R79) -/

/-- Byte events while no query runs are the byte steps of the sequence. -/
theorem runAll_rxByte (bs : List Byte) {s : State} (hfree : s.free) (is : List Instr) :
    runAll (bs.map (fun b => .rxByte b false) ++ is) s = andThen (State.feed bs s) (runAll is) := by
  induction bs generalizing s with
  | nil => rfl
  | cons b bs ih =>
    rw [List.map_cons, List.cons_append, runAll, exec_rxByte_of_free hfree, State.feed, andThen_assoc]
    cases hstep : s.rxByte b with
    | next u =>
      have hnext : u.free := by rw [State.free, State.queryRuns, State.rxByte_q hstep]; exact hfree
      exact ih hnext
    | fault f => rfl
    | refused e => rfl

/-- The events of a sequence from its start on. -/
theorem runAll_rxStart_rxByte (bs : List Byte) {s : State} (hfree : s.free) (is : List Instr) :
    runAll (.rxStart :: bs.map (fun b => .rxByte b false) ++ is) s = andThen (State.feed bs s.rxStart) (runAll is) := by
  rw [List.cons_append, runAll, exec_rxStart_of_free hfree]
  exact runAll_rxByte bs (s := s.rxStart) hfree is

/-- The events of a whole parse are the parse. -/
theorem runAll_parse (raw : List Byte) {s : State} (hfree : s.free) :
    runAll (.rxStart :: raw.map (fun b => .rxByte b false) ++ [.rxEnd]) s = s.parse raw := by
  rw [runAll_rxStart_rxByte raw hfree]
  cases hfeed : State.feed raw s.rxStart with
  | next u =>
    have hnext : u.free := by rw [State.feed_frame hfeed]; exact hfree
    rw [andThen_next, runAll, exec_rxEnd_of_free hnext, State.parse, hfeed]
    rfl
  | fault f => rw [State.parse, hfeed]; rfl
  | refused e => rw [State.parse, hfeed]; rfl

/-- A verdict that stands after the bytes is one that more bytes cannot change. -/
theorem Rxp.Says.standing {r : Rxp} {m : Memory} {res : Except Err (List Byte)} (h : r.Says m res) :
    (r.state = .ok ↔ ∃ p, res = .ok p) ∧
      (r.state = .fail ↔ (∃ st, res = .error (.statusError st)) ∨ res = .error .checksumMismatch) := by
  cases h with
  | payload hst => simp [hst]
  | statusError hst => simp [hst]
  | checksumMismatch hst => simp [hst]
  | syncNotFound hst => simp [hst]
  | truncated hrest => simp_all [Rxp.Resting]

/-- The errors that `decode` raises. -/
def Err.OfDecode (e : Err) : Prop := e ≠ .invalidLength ∧ e ≠ .transportError

/-- The registers in `R_FAIL` name an error: its code, and its status where it has one (R100, R108). -/
def Rxp.Names (r : Rxp) (e : Err) : Prop :=
  r.state = .fail ∧ r.err = codeOf e ∧ ∀ st, e = .statusError st → r.status = st

/-- The error named is the one that code and status stand for, so there is at most one. -/
theorem Rxp.Names.errOf_eq {r : Rxp} {e : Err} (h : r.Names e) : errOf r.err r.status = some e := by
  obtain ⟨-, hcode, hstatus⟩ := h
  rw [hcode]
  cases e with
  | statusError st => rw [hstatus st rfl]; rfl
  | syncNotFound | truncated | checksumMismatch | invalidLength | transportError => rfl

theorem Rxp.Names.unique {r : Rxp} {e e' : Err} (h : r.Names e) (h' : r.Names e') : e = e' :=
  Option.some.inj (h.errOf_eq.symm.trans h'.errOf_eq)

/-- The end turns what the registers say into the verdict: the payload, or the error's name. -/
theorem Rxp.Says.finished {r : Rxp} {m : Memory} {res : Except Err (List Byte)} (h : r.Says m res) :
    (r.state = .ok ∧ r.finish = r ∧ res = .ok (stored m r.length.toNat)) ∨
      ∃ e, res = .error e ∧ r.finish.Names e ∧ e.OfDecode := by
  cases h with
  | payload hst => exact .inl ⟨hst, Rxp.finish_of_resting (.inr (.inl hst)), rfl⟩
  | statusError hst herr =>
    rw [Rxp.finish_of_resting (.inr (.inr hst))]
    exact .inr ⟨_, rfl, ⟨hst, herr, fun _ heq => Err.statusError.inj heq⟩, nofun, nofun⟩
  | checksumMismatch hst herr =>
    rw [Rxp.finish_of_resting (.inr (.inr hst))]
    exact .inr ⟨_, rfl, ⟨hst, herr, nofun⟩, nofun, nofun⟩
  | syncNotFound hst =>
    rw [Rxp.finish_of_hunt hst]
    exact .inr ⟨_, rfl, ⟨rfl, rfl, nofun⟩, nofun, nofun⟩
  | truncated hrest hhunt =>
    rw [Rxp.finish_of_open hrest hhunt]
    exact .inr ⟨_, rfl, ⟨rfl, rfl, nofun⟩, nofun, nofun⟩

/-- In `R_OK` the read port shows the bytes stored. -/
theorem State.payload_of_ok {s : State} (h : s.rxp.state = .ok) :
    s.payload = stored s.pbuf s.rxp.length.toNat := by
  rw [State.payload, State.plLen_of_ok h]
  apply List.map_congr_left
  intro a ha
  have hbelow : a < s.rxp.length.toNat := List.mem_range.mp ha
  have hoffset : (BitVec.ofNat 16 a).toNat = a := Nat.mod_eq_of_lt (by have := s.rxp.length.isLt; omega)
  rw [State.plData_of_lt h (by rwa [BitVec.lt_def, hoffset]), hoffset]

/-- And each of them was written there. -/
theorem Rxp.Inv.read_payload {r : Rxp} {m : Memory} (h : r.Inv m) (hst : r.state = .ok) {a : Nat}
    (ha : a < r.length.toNat) : Memory.read m a = (stored m r.length.toNat)[a]? := by
  have hwritten := h.written a (by rwa [h.cnt_of_ok hst])
  simp [read_eq_some_pbufByte hwritten, stored, ha]

/-- A whole parse is taken from any state; its end says what `decode` says: the payload held, or the error named. -/
theorem State.parse_verdict (raw : List Byte) (s : State) :
    ∃ t, s.parse raw = .next t ∧ t = { s with rxp := t.rxp, pbuf := t.pbuf } ∧ t.rxp.Inv t.pbuf ∧
      ((t.rxp.state = .ok ∧ decodeResponse raw = .ok (stored t.pbuf t.rxp.length.toNat)) ∨
        ∃ e, decodeResponse raw = .error e ∧ t.rxp.Names e ∧ e.OfDecode) := by
  obtain ⟨u, hu, hinv, hread⟩ := State.feed_started raw s
  refine ⟨u.rxEnd, by rw [State.parse, hu]; rfl, ?_, hinv.finish, ?_⟩
  · rw [State.feed_frame hu]
    rfl
  · rcases (hread.says hinv).finished with ⟨hst, hfinish, hres⟩ | herror
    · refine .inl ?_
      rw [State.rxEnd_rxp, hfinish]
      exact ⟨hst, hres⟩
    · exact .inr herror

/-- Settles O22: the bytes read determine the registers, and these say what `decode` says. -/
theorem parserLevelsAgree : Obligations.ParserLevelsAgree := by
  refine ⟨fun raw s hfree => ?whole, fun bs s t hfree ht => ?standing, fun s hfree hst => ?resting⟩
  case whole =>
    obtain ⟨t, ht, hframe, hinv, hverdict⟩ := State.parse_verdict raw s
    refine ⟨t, by rw [runAll_parse raw hfree, ht], hframe, ?_⟩
    rcases hverdict with ⟨hst, hres⟩ | ⟨e, hres, hnames, hdecode⟩
    case inl =>
      refine ⟨by simp [hst, hres], fun p hp => ?_, fun e => by simp [hst, hres]⟩
      obtain rfl : stored t.pbuf t.rxp.length.toNat = p := by simpa [hres] using hp
      rw [stored_length]
      exact ⟨rfl, State.payload_of_ok hst, fun a ha => hinv.read_payload hst ha⟩
    case inr =>
      have ⟨hfail, _⟩ := hnames
      refine ⟨by simp [hfail, hres], by simp [hres], fun e' => ?_⟩
      rw [hres]
      constructor
      · rintro ⟨⟩
        exact ⟨hnames, hdecode⟩
      · rintro ⟨hnames', -⟩
        rw [hnames.unique hnames']
  case standing =>
    obtain ⟨u, hu, hinv, hread⟩ := State.feed_started bs s
    have hrun := runAll_rxStart_rxByte bs hfree []
    rw [List.append_nil, ht, hu] at hrun
    cases hrun
    exact (hread.says hinv).standing
  case resting =>
    have hrest : s.rxp.Resting := .inr hst
    have hend : s.rxEnd = s := by rw [State.rxEnd, Rxp.finish_of_resting hrest]
    have hpayload : s.rxp.state ≠ .payload := by rcases hst with hst | hst <;> simp [hst]
    have hbyte (b : Byte) : s.rxByte b = .next s := by
      rw [State.rxByte_of_not_payload hpayload, Rxp.byte_of_resting hrest]
    refine ⟨fun b atEnd => ?_, by rw [exec_rxEnd_of_free hfree, hend]⟩
    cases atEnd with
    | false => rw [exec_rxByte_of_free hfree, hbyte]
    | true => rw [exec_rxByte_atEnd_of_free hfree, hbyte, andThen_next, hend]

/-- DECODE while no query runs: the parse, and the value. -/
theorem State.decodeOp_of_free {s : State} (hfree : s.free) (raw : List Byte) :
    ∃ t, runAll (.rxStart :: raw.map (fun b => .rxByte b false) ++ [.rxEnd]) s = .next t ∧
      s.decodeOp raw = .next { t with ret := replyOf ((decodeResponse raw).map Value.bytes) } := by
  obtain ⟨t, ht, -⟩ := State.parse_verdict raw s
  refine ⟨t, by rw [runAll_parse raw hfree, ht], ?_⟩
  rw [State.decodeOp, whenFree_of_free hfree, ht, andThen_next]

/-- Settles O23: both operations are the same parse, RESPONSE_FRAME of its three fixed bytes and the rest. -/
theorem decodeOperationsRun : Obligations.DecodeOperationsRun :=
  ⟨fun raw _ hfree => State.decodeOp_of_free hfree raw,
    fun rest _ hfree => State.decodeOp_of_free hfree ([0x55, 0x90, 0x00] ++ rest)⟩

end Sys2Proof.Machine
end

section
/-! PROOFS. A sequence of bytes as the number a register of the info record holds, and the info record by the offsets of
its fields (spec/43_record_decoder.md R80, R81; spec/10_state.md R20, R31). -/

namespace Sys2Proof.Machine

/-! ### Parts of a payload -/

@[simp] theorem slice_zero (o : Nat) (bs : List Byte) : slice o 0 bs = [] := List.take_zero

theorem slice_length {o w : Nat} {bs : List Byte} (h : o + w ≤ bs.length) : (slice o w bs).length = w := by
  simp only [slice, List.length_take, List.length_drop]
  omega

/-- Parts that follow each other are one part. -/
theorem slice_append_slice {o v m : Nat} (h : o + v = m) (w : Nat) (bs : List Byte) :
    slice o v bs ++ slice m w bs = slice o (v + w) bs := by
  subst h
  simp only [slice, List.take_add, List.drop_drop]

theorem slice_succ {o : Nat} {bs : List Byte} (h : o < bs.length) (w : Nat) :
    slice o (w + 1) bs = bs.getD o 0 :: slice (o + 1) w bs := by
  rw [slice, List.drop_eq_getElem_cons h, List.take_succ_cons, List.getD_eq_getElem _ _ h, slice]

/-- A part that ends below a cut does not see it. -/
theorem slice_take {o w n : Nat} (h : o + w ≤ n) (bs : List Byte) : slice o w (bs.take n) = slice o w bs := by
  rw [slice, List.drop_take, List.take_take, Nat.min_eq_left (by omega), slice]

/-- A byte behind a sequence that falls into a part lengthens the part. -/
theorem slice_concat_inside {o w : Nat} {bs : List Byte} (hlow : o ≤ bs.length) (hhigh : bs.length < o + w)
    (b : Byte) : slice o w (bs ++ [b]) = slice o w bs ++ [b] := by
  have hdrop : (bs.drop o).length < w := by rw [List.length_drop]; omega
  rw [slice, List.drop_append_of_le_length hlow, slice, List.take_of_length_le (Nat.le_of_lt hdrop),
    List.take_of_length_le (by simpa using hdrop)]

/-- A byte behind a sequence that falls outside a part leaves the part. -/
theorem slice_concat_outside {o w : Nat} {bs : List Byte} (h : bs.length < o ∨ o + w ≤ bs.length) (b : Byte) :
    slice o w (bs ++ [b]) = slice o w bs := by
  rcases h with h | h
  · rw [slice, slice, List.drop_of_length_le (by simpa using h), List.drop_of_length_le (Nat.le_of_lt h)]
  · have hdrop : w ≤ (bs.drop o).length := by rw [List.length_drop]; omega
    rw [slice, List.drop_append_of_le_length (by omega), List.take_append_of_le_length hdrop, slice]

/-! ### Bytes as a number (R11, R84) -/

theorem beN_concat (w : Nat) (bs : List Byte) (b : Byte) : beN w (bs ++ [b]) = shiftByte (beN w bs) b :=
  List.foldl_concat ..

/-- A byte behind a sequence that falls into a part is shifted into the part's number. -/
theorem beN_slice_concat {o w : Nat} {bs : List Byte} (hlow : o ≤ bs.length) (hhigh : bs.length < o + w) (b : Byte)
    (width : Nat) : beN width (slice o w (bs ++ [b])) = shiftByte (beN width (slice o w bs)) b := by
  rw [slice_concat_inside hlow hhigh, beN_concat]

theorem getLsbD_shiftByte {w : Nat} (v : BitVec w) (b : Byte) {i : Nat} (h : i < w) :
    (shiftByte v b).getLsbD i = if i < 8 then b.getLsbD i else v.getLsbD (i - 8) := by
  rw [shiftByte, BitVec.getLsbD_or, BitVec.getLsbD_shiftLeft, BitVec.getLsbD_setWidth]
  by_cases h8 : i < 8
  · simp [h, h8]
  · simp [h, h8, BitVec.getLsbD_of_ge b i (Nat.not_lt.mp h8)]

/-- Shifting a byte in puts it behind a number that leaves it room. -/
theorem shiftByte_setWidth {n w : Nat} (h : n + 8 ≤ w) (v : BitVec n) (b : Byte) :
    shiftByte (v.setWidth w) b = (v ++ b).setWidth w := by
  apply BitVec.eq_of_getLsbD_eq
  intro i hi
  rw [getLsbD_shiftByte _ _ hi, BitVec.getLsbD_setWidth, BitVec.getLsbD_setWidth, BitVec.getLsbD_append]
  have hlow : i - 8 < w := by omega
  simp [hi, hlow]

theorem beN_one (b : Byte) : beN 8 [b] = b := by
  simp [beN]

/-- Four bytes as a number are their concatenation. -/
theorem beN_four (a b c d : Byte) : beN 32 [a, b, c, d] = a ++ b ++ c ++ d := by
  have ha : shiftByte (0 : BitVec 32) a = a.setWidth 32 := by simp [shiftByte]
  calc beN 32 [a, b, c, d] = shiftByte (shiftByte (shiftByte (shiftByte 0 a) b) c) d := rfl
    _ = (a ++ b ++ c ++ d).setWidth 32 := by
      rw [ha, shiftByte_setWidth (by decide), shiftByte_setWidth (by decide), shiftByte_setWidth (by decide)]
    _ = a ++ b ++ c ++ d := BitVec.setWidth_eq _

/-- The last byte of a number is the one shifted in last. -/
theorem bytesBE_shiftByte {n w : Nat} (h : 8 * (n + 1) ≤ w) (v : BitVec w) (b : Byte) :
    bytesBE (n + 1) (shiftByte v b) = bytesBE n v ++ [b] := by
  have hlast : ((shiftByte v b) >>> (8 * (n + 1 - 1 - n))).setWidth 8 = b := by
    apply BitVec.eq_of_getLsbD_eq
    intro i hi
    have hi' : i < w := by omega
    have hzero : 8 * (n + 1 - 1 - n) + i = i := by omega
    simp only [BitVec.getLsbD_setWidth, BitVec.getLsbD_ushiftRight, hzero, getLsbD_shiftByte v b hi', hi, if_true,
      decide_true, Bool.true_and]
  have hfront (k : Nat) (hk : k < n) :
      ((shiftByte v b) >>> (8 * (n + 1 - 1 - k))).setWidth 8 = (v >>> (8 * (n - 1 - k))).setWidth 8 := by
    apply BitVec.eq_of_getLsbD_eq
    intro i hi
    have hlt : 8 * (n + 1 - 1 - k) + i < w := by omega
    have hge : ¬ 8 * (n + 1 - 1 - k) + i < 8 := by omega
    have hsub : 8 * (n + 1 - 1 - k) + i - 8 = 8 * (n - 1 - k) + i := by omega
    simp only [BitVec.getLsbD_setWidth, BitVec.getLsbD_ushiftRight, getLsbD_shiftByte v b hlt, if_neg hge, hsub]
  rw [bytesBE, List.range_succ, List.map_append, List.map_singleton, hlast, bytesBE]
  congr 1
  exact List.map_congr_left fun k hk => hfront k (List.mem_range.mp hk)

/-- The bytes of the number that bytes make are these bytes (R31). -/
theorem bytesBE_beN {w : Nat} {bs : List Byte} (h : 8 * bs.length ≤ w) : bytesBE bs.length (beN w bs) = bs := by
  induction bs using List.reverseRecOn with
  | nil => rfl
  | append_singleton bs b ih =>
    rw [List.length_append, List.length_singleton] at h ⊢
    rw [beN_concat, bytesBE_shiftByte h, ih (by omega)]

theorem bytesBE_beN_slice {o n w : Nat} {bs : List Byte} (hlen : o + n ≤ bs.length) (h : 8 * n ≤ w) :
    bytesBE n (beN w (slice o n bs)) = slice o n bs := by
  have hn := slice_length hlen
  have hbytes := bytesBE_beN (w := w) (bs := slice o n bs) (hn.symm ▸ h)
  rwa [hn] at hbytes

/-! ### The record by the offsets of its fields (R80, R81) -/

/-- The record that stands at the offsets of R81. It speaks of the record of a payload of at least 82 bytes
(`decodeInfo_of_long`); of a shorter sequence, of what a cursor has read so far (`Rdec.reading`). -/
def infoOf (bs : List Byte) : InfoRecord :=
  { esamSerial := slice 0 8 bs
    esamVersion := slice 8 4 bs
    symKeyVersion := slice 12 16 bs
    msCertVersion := beN 8 (slice 28 1 bs)
    termCertVersion := beN 8 (slice 29 1 bs)
    sessionTimeLimit := beN 32 (slice 30 4 bs)
    sessionTimeRemaining := beN 32 (slice 34 4 bs)
    asctr := beN 32 (slice 38 4 bs)
    arctr := beN 32 (slice 42 4 bs)
    agseq := beN 32 (slice 46 4 bs)
    termCertSerial := slice 50 16 bs
    msCertSerial := slice 66 16 bs }

theorem takeField_drop {o w : Nat} {bs : List Byte} (h : o + w ≤ bs.length) :
    takeField w (bs.drop o) = .ok (slice o w bs, bs.drop (o + w)) := by
  have hlen : ¬ (bs.drop o).length < w := by rw [List.length_drop]; omega
  rw [takeField, if_neg hlen, List.drop_drop, slice]

/-- A `take` past the end, or a rest too short for what is taken after it, is `Truncated`. -/
theorem takeField_bind_truncated {α : Type} {w n : Nat} {rest : List Byte}
    {k : List Byte × List Byte → Except Err α} (h : rest.length < n)
    (hk : ∀ bs rest', rest'.length < n - w → k (bs, rest') = .error .truncated) :
    (takeField w rest >>= k) = .error .truncated := by
  rw [takeField]
  split
  · rfl
  · exact hk _ _ (by rw [List.length_drop]; omega)

theorem decodeInfo_of_short {p : List Byte} (h : p.length < 82) : decodeInfo p = .error .truncated := by
  unfold decodeInfo
  iterate 12 refine takeField_bind_truncated (by assumption) fun _ _ _ => ?_
  exact absurd ‹_› (Nat.not_lt_zero _)

theorem decodeInfo_of_long {p : List Byte} (h : 82 ≤ p.length) : decodeInfo p = .ok (infoOf p) := by
  have hfirst : takeField 8 p = .ok (slice 0 8 p, p.drop 8) := takeField_drop (o := 0) (by omega)
  have htake (o w : Nat) (how : o + w ≤ 82) : takeField w (p.drop o) = .ok (slice o w p, p.drop (o + w)) :=
    takeField_drop (by omega)
  simp (disch := decide) only [decodeInfo, hfirst, htake, bind, Except.bind]
  rfl

theorem decodeInfo_eq_ok {p : List Byte} {r : InfoRecord} :
    decodeInfo p = .ok r ↔ 82 ≤ p.length ∧ r = infoOf p := by
  by_cases h : 82 ≤ p.length
  · simp [decodeInfo_of_long h, h, eq_comm]
  · simp [decodeInfo_of_short (Nat.not_le.mp h), h]

/-- The twelve fields read the first 82 bytes alone. -/
theorem infoOf_take (p : List Byte) : infoOf (p.take 82) = infoOf p := by
  simp (disch := decide) only [infoOf, slice_take]

theorem beN_slice_one {o : Nat} {p : List Byte} (h : o + 1 ≤ p.length) : beN 8 (slice o 1 p) = p.getD o 0 := by
  rw [slice_succ h, slice_zero, beN_one]

theorem beN_slice_four {o : Nat} {p : List Byte} (h : o + 4 ≤ p.length) :
    beN 32 (slice o 4 p) = p.getD o 0 ++ p.getD (o + 1) 0 ++ p.getD (o + 2) 0 ++ p.getD (o + 3) 0 := by
  rw [slice_succ (by omega), slice_succ (by omega), slice_succ (by omega), slice_succ (by omega), slice_zero, beN_four]

/-- Settles O30: written back, each field is the part of the payload it was read from, and the parts follow each
other. -/
theorem infoRecordFields : Obligations.InfoRecordFields := by
  refine ⟨fun p h => decodeInfo_of_short h, fun p h => ?fields, fun p r hr => ?written⟩
  case fields =>
    rw [decodeInfo_of_long h, infoOf, beN_slice_one (by omega), beN_slice_one (by omega), beN_slice_four (by omega),
      beN_slice_four (by omega), beN_slice_four (by omega), beN_slice_four (by omega), beN_slice_four (by omega)]
  case written =>
    obtain ⟨h, rfl⟩ := decodeInfo_eq_ok.mp hr
    have hint (o : Nat) (ho : o + 4 ≤ 82) : bytesBE 4 (beN 32 (slice o 4 p)) = slice o 4 p :=
      bytesBE_beN_slice (by omega) (by decide)
    have hversions : [beN 8 (slice 28 1 p), beN 8 (slice 29 1 p)] = slice 28 2 p := by
      rw [beN_slice_one (by omega), beN_slice_one (by omega), slice_succ (by omega), slice_succ (by omega), slice_zero]
    have hwhole : p.take 82 = slice 0 82 p := rfl
    simp (disch := decide) only [infoOf, hint, hversions, hwhole, slice_append_slice]

end Sys2Proof.Machine
end

section
/-! PROOFS. RDEC's events on the whole machine (spec/43_record_decoder.md R83 to R85), and the record that they read:
what the registers say after the cursor steps is what `decodeInfo` says of the payload (R86). -/

namespace Sys2Proof.Machine

/-! ### RDEC's events while no query runs (R83, R84) -/

theorem exec_rdStart_of_free {s : State} (h : s.free) (len : Half) : exec (.rdStart len) s = .next (s.rdStart len) :=
  whenFree_of_free h

theorem exec_rdByte_of_free {s : State} (h : s.free) (b : Byte) : exec (.rdByte b) s = s.rdByte b := whenFree_of_free h

theorem State.rdByte_of_not_run {s : State} (h : s.rdec.state ≠ .run) (b : Byte) : s.rdByte b = .next s := if_neg h

theorem State.rdByte_of_atEnd {s : State} (hrun : s.rdec.state = .run) (hend : s.rdec.len.toNat ≤ s.rdec.cur.toNat)
    (b : Byte) : s.rdByte b = .next { s with rdec := s.rdec.raise .truncated } := by
  rw [State.rdByte, if_pos hrun, if_pos (Rdec.atEnd_iff.mpr hend)]
  rfl

theorem State.rdByte_of_field {s : State} {f : Field} (hrun : s.rdec.state = .run)
    (hlen : s.rdec.cur.toNat < s.rdec.len.toNat) (hf : fieldAt s.rdec.cur.toNat = some f) (b : Byte) :
    s.rdByte b = .next { s with rdec := s.rdec.take f b } := by
  have hend : ¬ s.rdec.atEnd = true := by rwa [Rdec.atEnd_iff, Nat.not_le]
  rw [State.rdByte, if_pos hrun, if_neg hend, hf]

/-- Settles O26. -/
theorem rdStartClearsTheRecord : Obligations.RdStartClearsTheRecord :=
  ⟨fun len _ hfree => exec_rdStart_of_free hfree len, fun _ _ _ _ _ => rfl⟩

/-- The step that completes the record is the one at offset 81 (R84). -/
theorem cur_succ_eq_82_iff (cur : BitVec 7) : cur + 1 = 82 ↔ cur.toNat = 81 := by bv_omega

/-- Settles O27, by RDEC's equation for each case. -/
theorem rdByteByState : Obligations.RdByteByState := by
  intro b s hfree
  rw [exec_rdByte_of_free hfree]
  refine ⟨fun hrest => State.rdByte_of_not_run hrest b, fun hrun hend => State.rdByte_of_atEnd hrun hend b,
    fun f hrun hlen hf => ?_⟩
  simp only [State.rdByte_of_field hrun hlen hf, Rdec.take, cur_succ_eq_82_iff]

/-- Settles O28, by evaluating `fieldAt` at each of the 82 cursors. -/
theorem cursorNamesItsField : Obligations.CursorNamesItsField := by
  unfold Obligations.CursorNamesItsField
  decide

/-! ### A complete record stands (R85) -/

theorem State.outRecord_eq (s : State) : s.outRecord = if s.rdec.state = .ok then s.rdec.fields else .zero := by
  simp only [State.outRecord, State.recValid, decide_eq_true_eq]

theorem State.parse_rdec {s t : State} {raw : List Byte} (h : s.parse raw = .next t) : t.rdec = s.rdec := by
  obtain ⟨u, hfeed, ht⟩ := andThen_eq_next.mp h
  cases ht
  rw [State.rxEnd_rdec, State.feed_frame hfeed, State.rxStart_rdec]

theorem State.decodeOp_rdec {s t : State} {raw : List Byte} (h : s.decodeOp raw = .next t) : t.rdec = s.rdec := by
  obtain ⟨-, h⟩ := whenFree_eq_next.mp h
  obtain ⟨u, hparse, ht⟩ := andThen_eq_next.mp h
  cases ht
  exact State.parse_rdec (t := u) hparse

theorem State.rxByte_rdec {s t : State} {b : Byte} (h : s.rxByte b = .next t) : t.rdec = s.rdec := by
  rcases State.rxByte_eq_next.mp h with ⟨-, rfl⟩ | ⟨a, -, -, rfl⟩ <;> rfl

/-- ENCODE runs ENC alone. -/
theorem execEncode_rdec {s t : State} {body : List Byte} {total : Nat} (h : execEncode body total s = .next t) :
    t.rdec = s.rdec := by
  obtain ⟨-, h⟩ := whenFree_eq_next.mp h
  split at h
  · dsimp only at h
    split at h
    · cases h
      dsimp only
      rw [State.emits_frame, State.encStart_rdec]
    · cases h; rfl
  · cases h; rfl

/-- A post step that finds a complete record ends the query and leaves the record. -/
theorem State.qPost_of_ok {s : State} (hpost : s.q.state = .post) (hok : s.rdec.state = .ok) :
    s.qPost = .next s.qFinish := by
  rw [State.qPost, if_pos hpost, hok]

/-- Settles O29: RXP's, ENC's and CSG's events write their own registers; RDEC ignores a byte, and a post step ends. -/
theorem completeRecordIsImmutable : Obligations.CompleteRecordIsImmutable := by
  refine ⟨State.outRecord_eq, fun i s t hok ht hi => ?_⟩
  have hrun : s.rdec.state ≠ .run := hok.trans_ne nofun
  cases i
  case csClear | csAbsorb | xorfold | checksum | hex => cases ht; rfl
  case encStart =>
    obtain ⟨-, ht⟩ := whenFree_eq_next.mp ht
    obtain ⟨-, ht⟩ := whenFits_eq_next.mp ht
    cases ht; rfl
  case encEmit | rxStart | rxEnd => obtain ⟨-, ht⟩ := whenFree_eq_next.mp ht; cases ht; rfl
  case rxByte =>
    obtain ⟨-, ht⟩ := whenFree_eq_next.mp ht
    obtain ⟨u, hbyte, ht⟩ := andThen_eq_next.mp ht
    cases ht
    rw [← State.rxByte_rdec hbyte]
    split <;> rfl
  case rdByte =>
    obtain ⟨-, ht⟩ := whenFree_eq_next.mp ht
    rw [State.rdByte_of_not_run hrun] at ht
    cases ht; rfl
  case qSlot => rw [State.qSlot_frame ht]
  case qPost =>
    have hpost : s.qPost = .next t := ht
    by_cases hq : s.q.state = .post
    · rw [State.qPost_of_ok hq hok] at hpost
      cases hpost; rfl
    · rw [State.qPost_outside hq] at hpost
      cases hpost; rfl
  case encode => exact execEncode_rdec ht
  case decode | responseFrame => exact State.decodeOp_rdec ht
  case getMsCert | getTermCert | getInfo | negotiate | decodeInfo | transfer | query | rst | rdStart | qStart | qXferErr =>
    simp at hi

/-! ### RDEC in the middle of a payload

After the first bytes of a payload the field registers hold what these bytes fill of the record (R84, R136). -/

/-- The first offset of a field (R81). -/
def Field.first : Field → Nat
  | .esamSerial => 0
  | .esamVersion => 8
  | .symKeyVersion => 12
  | .msCertVersion => 28
  | .termCertVersion => 29
  | .sessionTimeLimit => 30
  | .sessionTimeRemaining => 34
  | .asctr => 38
  | .arctr => 42
  | .agseq => 46
  | .termCertSerial => 50
  | .msCertSerial => 66

/-- The number of bytes of a field (R81). -/
def Field.width : Field → Nat
  | .esamSerial => 8
  | .msCertVersion | .termCertVersion => 1
  | .esamVersion | .sessionTimeLimit | .sessionTimeRemaining | .asctr | .arctr | .agseq => 4
  | .symKeyVersion | .termCertSerial | .msCertSerial => 16

/-- The field of a cursor is the one whose offset range holds it (R136). -/
theorem bounds_of_fieldAt : ∀ c < 82, ∀ f ∈ fieldAt c, f.first ≤ c ∧ c < f.first + f.width := by decide

/-- A byte more fills the field of its offset, and leaves the other fields. -/
theorem regsOf_infoOf_concat {bs : List Byte} {f : Field} (h : bs.length < 82) (hf : fieldAt bs.length = some f)
    (b : Byte) : regsOf (infoOf (bs ++ [b])) = (regsOf (infoOf bs)).shiftIn f b := by
  obtain ⟨hlow, hhigh⟩ := bounds_of_fieldAt bs.length h f hf
  cases f <;>
    · dsimp only [Field.first, Field.width] at hlow hhigh
      simp (disch := omega) only [regsOf, infoOf, InfoRegs.shiftIn, slice_concat_outside, beN_slice_concat]

/-- RDEC after the first bytes of a payload of declared length `len`. -/
def Rdec.reading (bs : List Byte) (len : Half) : Rdec :=
  { state := if bs.length = 82 then .ok else .run
    cur := BitVec.ofNat 7 bs.length
    len := len
    err := 0
    fields := regsOf (infoOf bs) }

/-- The machine with RDEC after the first bytes of a payload. -/
def State.reading (s : State) (bs : List Byte) (len : Half) : State := { s with rdec := .reading bs len }

theorem State.rdStart_eq_reading (s : State) (len : Half) : s.rdStart len = s.reading [] len := rfl

theorem Rdec.reading_run {bs : List Byte} (h : bs.length < 82) (len : Half) : (Rdec.reading bs len).state = .run :=
  if_neg (Nat.ne_of_lt h)

theorem Rdec.reading_cur {bs : List Byte} (h : bs.length ≤ 82) (len : Half) :
    (Rdec.reading bs len).cur.toNat = bs.length := by
  simp only [Rdec.reading, BitVec.toNat_ofNat]
  omega

theorem Rdec.take_reading {bs : List Byte} {f : Field} (h : bs.length < 82) (hf : fieldAt bs.length = some f)
    (len : Half) (b : Byte) : (Rdec.reading bs len).take f b = .reading (bs ++ [b]) len := by
  have hlast : (Rdec.reading bs len).cur + 1 = 82 ↔ (bs ++ [b]).length = 82 := by
    rw [cur_succ_eq_82_iff, Rdec.reading_cur (Nat.le_of_lt h), List.length_append, List.length_singleton]
    omega
  have hcur : (Rdec.reading bs len).cur + 1 = BitVec.ofNat 7 (bs ++ [b]).length := by
    rw [List.length_append, List.length_singleton, BitVec.ofNat_add]
    rfl
  rw [Rdec.take, if_congr hlast rfl rfl, hcur, Rdec.reading, Rdec.reading, regsOf_infoOf_concat h hf]

/-- A cursor step inside the payload reads one byte more. -/
theorem State.rdByte_reading {bs : List Byte} {len : Half} (h : bs.length < 82) (hlen : bs.length < len.toNat)
    (s : State) (b : Byte) : (s.reading bs len).rdByte b = .next (s.reading (bs ++ [b]) len) := by
  have hcur : (s.reading bs len).rdec.cur.toNat = bs.length := Rdec.reading_cur (Nat.le_of_lt h) len
  obtain ⟨f, hf⟩ := Option.isSome_iff_exists.mp (fieldAt_isSome h)
  rw [State.rdByte_of_field (Rdec.reading_run h len) (hcur.trans_lt hlen) (hcur.symm ▸ hf)]
  simp only [State.reading, Rdec.take_reading h hf]

/-- The machine with RDEC failed at the end of a payload that is too short. -/
def State.readingFailed (s : State) (bs : List Byte) (len : Half) : State :=
  { s with rdec := (Rdec.reading bs len).raise .truncated }

/-- The cursor step at the end of a payload that is too short. -/
theorem State.rdByte_reading_atEnd {bs : List Byte} {len : Half} (h : bs.length < 82) (hlen : len.toNat ≤ bs.length)
    (s : State) (b : Byte) : (s.reading bs len).rdByte b = .next (s.readingFailed bs len) := by
  have hcur : (s.reading bs len).rdec.cur.toNat = bs.length := Rdec.reading_cur (Nat.le_of_lt h) len
  exact State.rdByte_of_atEnd (Rdec.reading_run h len) (hcur.symm ▸ hlen) b

/-! ### The whole run, as events and as the run of DECODE_INFO (R86) -/

theorem runAll_rdByte_reading (bs : List Byte) {read : List Byte} {len : Half} {s : State} (hfree : s.free)
    (h : read.length + bs.length ≤ 82) (hlen : read.length + bs.length ≤ len.toNat) (is : List Instr) :
    runAll (bs.map Instr.rdByte ++ is) (s.reading read len) = runAll is (s.reading (read ++ bs) len) := by
  induction bs generalizing read with
  | nil => rw [List.append_nil]; rfl
  | cons b bs ih =>
    rw [List.length_cons] at h hlen
    have hnext : (s.reading read len).free := hfree
    rw [List.map_cons, List.cons_append, runAll, exec_rdByte_of_free hnext,
      State.rdByte_reading (by omega) (by omega), andThen_next, ih, List.append_assoc, List.singleton_append]
    · rw [List.length_append, List.length_singleton]; omega
    · rw [List.length_append, List.length_singleton]; omega

/-- The start and the cursor steps over the first bytes of a payload. -/
theorem runAll_rdStart_rdByte (bs : List Byte) {len : Half} {s : State} (hfree : s.free) (h : bs.length ≤ 82)
    (hlen : bs.length ≤ len.toNat) (is : List Instr) :
    runAll (.rdStart len :: bs.map Instr.rdByte ++ is) s = runAll is (s.reading bs len) := by
  rw [List.cons_append, runAll, exec_rdStart_of_free hfree, andThen_next, State.rdStart_eq_reading,
    runAll_rdByte_reading bs hfree (by simpa using h) (by simpa using hlen), List.nil_append]

theorem State.cursorSteps_of_not_run (payload : List Byte) (n : Nat) {s : State} (h : s.rdec.state ≠ .run) :
    State.cursorSteps payload n s = .next s := by
  induction n with
  | zero => rfl
  | succ n ih => rw [State.cursorSteps, State.rdByte_of_not_run h, andThen_next, ih]

/-- The cursor steps that stay inside the payload and the record, `m` more to come. -/
theorem State.cursorSteps_reading {payload : List Byte} {len : Half} {n k : Nat} (m : Nat) (h : n + k ≤ 82)
    (hpayload : n + k ≤ payload.length) (hlen : n + k ≤ len.toNat) (s : State) :
    State.cursorSteps payload (k + m) (s.reading (payload.take n) len) =
      State.cursorSteps payload m (s.reading (payload.take (n + k)) len) := by
  induction k generalizing n with
  | zero => rw [Nat.zero_add, Nat.add_zero]
  | succ k ih =>
    have hread : (payload.take n).length = n := List.length_take_of_le (by omega)
    have hcur : (s.reading (payload.take n) len).rdec.cur.toNat = n :=
      (Rdec.reading_cur (by omega) len).trans hread
    have hbyte : payload.take n ++ [payload[n]?.getD 0] = payload.take (n + 1) := by
      rw [List.getElem?_eq_getElem (by omega), Option.getD_some, List.take_append_getElem]
    rw [Nat.add_right_comm, State.cursorSteps, hcur, State.rdByte_reading (by omega) (by omega), andThen_next, hbyte,
      ih (by omega) (by omega) (by omega), Nat.add_right_comm, Nat.add_assoc]

/-- The length port of a payload that it can express. -/
theorem toNat_lenPort {n : Nat} (h : n ≤ 65535) : (BitVec.ofNat 16 n).toNat = n :=
  (BitVec.toNat_ofNat n 16).trans (Nat.mod_eq_of_lt (by omega))

/-- RDEC's run beside DECODE_INFO over a payload of 82 bytes or more. -/
theorem State.cursorSteps_of_long {payload : List Byte} (h : 82 ≤ payload.length) (hport : payload.length ≤ 65535)
    (s : State) :
    State.cursorSteps payload Config.infoLen (s.rdStart (BitVec.ofNat 16 payload.length)) =
      .next (s.reading (payload.take 82) (BitVec.ofNat 16 payload.length)) :=
  State.cursorSteps_reading (n := 0) 0 (Nat.le_refl 82) (by omega) (by rw [toNat_lenPort hport]; omega) s

/-- RDEC's run beside DECODE_INFO over a shorter payload: the step at the end fails, and the others have no effect. -/
theorem State.cursorSteps_of_short {payload : List Byte} (h : payload.length < 82) (s : State) :
    State.cursorSteps payload Config.infoLen (s.rdStart (BitVec.ofNat 16 payload.length)) =
      .next (s.readingFailed payload (BitVec.ofNat 16 payload.length)) := by
  have hlen : (BitVec.ofNat 16 payload.length).toNat = payload.length := toNat_lenPort (by omega)
  have hsteps : Config.infoLen = payload.length + (81 - payload.length + 1) := by rw [Config.infoLen]; omega
  have hinside := State.cursorSteps_reading (payload := payload) (len := BitVec.ofNat 16 payload.length) (n := 0)
    (k := payload.length) (81 - payload.length + 1) (by omega) (by omega) (by omega) s
  rw [hsteps, State.rdStart_eq_reading]
  rw [List.take_zero, Nat.zero_add, List.take_length] at hinside
  rw [hinside, State.cursorSteps, State.rdByte_reading_atEnd h (by omega), andThen_next]
  exact State.cursorSteps_of_not_run _ _ nofun

/-! ### What the registers say (R86) -/

/-- The values of a complete record are those of its registers (R31). -/
theorem recordOf_regsOf_infoOf {p : List Byte} (h : 82 ≤ p.length) : recordOf (regsOf (infoOf p)) = infoOf p := by
  have hbytes (o n w : Nat) (ho : o + n ≤ 82) (hw : 8 * n ≤ w) : bytesBE n (beN w (slice o n p)) = slice o n p :=
    bytesBE_beN_slice (by omega) hw
  simp (disch := decide) only [recordOf, regsOf, infoOf, hbytes]

theorem Rdec.reading_ok {p : List Byte} (h : 82 ≤ p.length) (len : Half) :
    (Rdec.reading (p.take 82) len).state = .ok := if_pos (List.length_take_of_le h)

theorem State.outRecord_reading {p : List Byte} (h : 82 ≤ p.length) (s : State) (len : Half) :
    (s.reading (p.take 82) len).outRecord = regsOf (infoOf p) := by
  rw [State.outRecord_eq, State.reading, if_pos (Rdec.reading_ok h len), Rdec.reading, infoOf_take]

theorem State.outRecord_readingFailed (s : State) (bs : List Byte) (len : Half) :
    (s.readingFailed bs len).outRecord = .zero := rfl

/-- Settles O31: the run ends in the machine that has read 82 bytes, or failed at the end of fewer. -/
theorem recordLevelsAgree : Obligations.RecordLevelsAgree := by
  intro payload s hfree hport
  have hlen := toNat_lenPort hport
  refine ⟨fun h => ?long, fun h b => ?short⟩
  case long =>
    have hread : (payload.take 82).length = 82 := List.length_take_of_le h
    have hrun := runAll_rdStart_rdByte (payload.take 82) (len := BitVec.ofNat 16 payload.length) hfree (by omega)
      (by omega) []
    rw [List.append_nil] at hrun
    have hout := State.outRecord_reading h s (BitVec.ofNat 16 payload.length)
    exact ⟨infoOf payload, _, decodeInfo_of_long h, hrun, Rdec.reading_ok h _, rfl, hout,
      by rw [hout, recordOf_regsOf_infoOf h], rfl⟩
  case short =>
    refine ⟨s.readingFailed payload (BitVec.ofNat 16 payload.length), decodeInfo_of_short h, ?_, rfl, rfl,
      Rdec.reading_cur (Nat.le_of_lt h) (BitVec.ofNat 16 payload.length), rfl, rfl⟩
    have hnext : (s.reading payload (BitVec.ofNat 16 payload.length)).free := hfree
    rw [runAll_rdStart_rdByte payload hfree (by omega) (by omega), runAll, exec_rdByte_of_free hnext,
      State.rdByte_reading_atEnd h (by omega), andThen_next, runAll]

theorem exec_decodeInfo_of_fits {s : State} {payload : List Byte} (hfree : s.free) (hport : payload.length ≤ 65535) :
    exec (.decodeInfo payload) s =
      andThen (State.cursorSteps payload Config.infoLen (s.rdStart (BitVec.ofNat 16 payload.length))) (fun t =>
        .next { t with ret := replyOf ((decodeInfo payload).map Value.record) }) :=
  (whenFree_of_free hfree).trans (if_pos hport)

theorem exec_decodeInfo_of_tooLong {s : State} {payload : List Byte} (hfree : s.free) (hlong : 65535 < payload.length) :
    exec (.decodeInfo payload) s = .next { s with ret := replyOf ((decodeInfo payload).map Value.record) } :=
  (whenFree_of_free hfree).trans (if_neg (Nat.not_le.mpr hlong))

/-- Settles O32, by the length of the payload: no run, a run that completes, a run that fails. -/
theorem decodeInfoOperationRuns : Obligations.DecodeInfoOperationRuns := by
  intro payload s hfree
  by_cases hport : payload.length ≤ 65535
  · have hexec := exec_decodeInfo_of_fits hfree hport
    by_cases h : 82 ≤ payload.length
    · rw [State.cursorSteps_of_long h hport, andThen_next] at hexec
      refine ⟨_, hexec, rfl, fun hlong => absurd hport (by omega), fun _ r hr => ?_, fun _ herr => ?_⟩
      · obtain ⟨-, rfl⟩ := decodeInfo_eq_ok.mp hr
        exact ⟨Rdec.reading_ok h _, State.outRecord_reading h s _⟩
      · rw [decodeInfo_of_long h] at herr
        cases herr
    · rw [State.cursorSteps_of_short (Nat.not_le.mp h), andThen_next] at hexec
      refine ⟨_, hexec, rfl, fun hlong => absurd hport (by omega), fun _ r hr => ?_, fun _ _ => ⟨rfl, rfl, rfl⟩⟩
      exact absurd (decodeInfo_eq_ok.mp hr).1 h
  · exact ⟨_, exec_decodeInfo_of_tooLong hfree (Nat.not_le.mp hport), rfl, fun _ => rfl, fun h => absurd h hport,
      fun h => absurd h hport⟩

end Sys2Proof.Machine
end

section
/-! PROOFS. QSEQ's composer (spec/44_commands.md R95) against the bodies that `compose` makes (R92), and what each command
returns of the payload (R89 to R91, R93). -/

namespace Sys2Proof.Machine

/-! ### The body composed -/

/-- The fixed commands take no data. -/
theorem bodyBytes_fixed {cmd : Cmd} (hcmd : cmd ≠ .negotiate) (rand sig : List Byte) :
    bodyBytes cmd rand sig = bodyBytes cmd [] [] := by
  cases cmd with
  | getMsCert | getTermCert | getInfo => rfl
  | negotiate => contradiction

/-- Whatever is composed is the command's body (R46). -/
theorem body_of_compose {p : Params} {cmd : Cmd} {rand sig body : List Byte} (h : compose p cmd rand sig = .ok body) :
    body = bodyBytes cmd rand sig := by
  by_cases hcmd : cmd = .negotiate
  · subst hcmd
    by_cases hrand : rand.length = p.randLen
    · rcases Nat.lt_or_ge 65535 (rand.length + sig.length) with hlong | hfits
      · simp [compose_negotiate_of_tooLong p hlong] at h
      · rw [compose_negotiate_of_fits hrand hfits] at h
        exact (Except.ok.inj h).symm
    · simp [compose_negotiate_of_randLen hrand] at h
  · rw [compose_fixed hcmd] at h
    rw [bodyBytes_fixed hcmd]
    exact (Except.ok.inj h).symm

theorem bodyBytes_length (cmd : Cmd) (rand sig : List Byte) :
    (bodyBytes cmd rand sig).length = Config.fixedBodyLen + dataLenOf cmd rand.length sig.length := by
  by_cases hcmd : cmd = .negotiate
  · subst hcmd
    rw [bodyBytes_negotiate, negotiateBody_length, List.length_append, Nat.add_comm]
    rfl
  · rw [bodyBytes_fixed hcmd, bodyBytes_fixed_length hcmd, dataLenOf, if_neg hcmd, Config.fixedBodyLen]

/-! ### The byte offered, by offset (R95) -/

theorem composerByte_fixed {cmd : Cmd} (hcmd : cmd ≠ .negotiate) (randLen sigLen k : Nat) (arg : Option Byte) :
    composerByte cmd randLen sigLen k arg = (bodyBytes cmd [] [])[k]? := by
  cases cmd with
  | getMsCert | getTermCert | getInfo => rfl
  | negotiate => contradiction

/-- The data of NEGOTIATE comes from the argument stream. -/
theorem composerByte_of_data {k : Nat} (h : 6 ≤ k) (randLen sigLen : Nat) (arg : Option Byte) :
    composerByte .negotiate randLen sigLen k arg = arg := by
  have hpast : ¬ k < 4 ∧ k ≠ 4 ∧ k ≠ 5 := by omega
  simp [composerByte, hpast]

/-- The header and the length of NEGOTIATE come from QSEQ's registers. -/
theorem composerByte_of_front {k : Nat} (h : k < 6) (randLen sigLen : Nat) (arg : Option Byte) :
    composerByte .negotiate randLen sigLen k arg =
      (header .negotiate ++ [highByte (randLen + sigLen), lowByte (randLen + sigLen)])[k]? := by
  match k, h with
  | 0, _ | 1, _ | 2, _ | 3, _ | 4, _ | 5, _ => rfl

/-- Below the data the argument stream has no part in the byte offered, whatever the command. -/
theorem composerByte_ignores_arg {k : Nat} (h : k < 6) (cmd : Cmd) (randLen sigLen : Nat) (arg arg' : Option Byte) :
    composerByte cmd randLen sigLen k arg = composerByte cmd randLen sigLen k arg' := by
  by_cases hcmd : cmd = .negotiate
  · subst hcmd
    rw [composerByte_of_front h, composerByte_of_front h]
  · rw [composerByte_fixed hcmd, composerByte_fixed hcmd]

/-- NEGOTIATE's body from its data on. -/
theorem negotiateBody_getElem?_of_data {k : Nat} (h : 6 ≤ k) (data : List Byte) :
    (negotiateBody data)[k]? = data[k - 6]? :=
  List.getElem?_append_right h

/-- With the data's own byte on the argument stream, the composer offers the body byte by byte. -/
theorem composerByte_eq_body {cmd : Cmd} {rand sig : List Byte} {k : Nat} {arg : Option Byte}
    (harg : cmd = .negotiate → 6 ≤ k → arg = (rand ++ sig)[k - 6]?) :
    composerByte cmd rand.length sig.length k arg = (bodyBytes cmd rand sig)[k]? := by
  by_cases hcmd : cmd = .negotiate
  · subst hcmd
    rw [bodyBytes_negotiate]
    rcases Nat.lt_or_ge k 6 with hfront | hdata
    · rw [composerByte_of_front hfront, negotiateBody, List.length_append]
      exact (List.getElem?_append_left hfront).symm
    · rw [composerByte_of_data hdata, harg rfl hdata, negotiateBody_getElem?_of_data hdata]
  · rw [composerByte_fixed hcmd, bodyBytes_fixed hcmd rand sig]

/-! ### Waiting for an argument byte -/

theorem State.slotTx_of_xfer {s : State} (h : s.q.state = .xfer) (arg : Option Byte) :
    s.slotTx arg = s.enc.tx (s.composed arg) := if_pos h

theorem State.slotTx_of_not_xfer {s : State} (h : s.q.state ≠ .xfer) (arg : Option Byte) : s.slotTx arg = none :=
  if_neg h

/-- A slot without a byte offered does nothing. -/
theorem State.qSlot_of_none {s : State} {arg : Option Byte} (h : s.slotTx arg = none) (rx : Byte) :
    s.qSlot arg rx = .next s :=
  State.qSlot_eq_next.mpr (.inl ⟨by rw [h]; rfl, rfl⟩)

/-- Settles O34: the byte of every offset by the composer's three cases; with none offered ENC holds and the slot waits. -/
theorem composerOffersTheBody : Obligations.ComposerOffersTheBody := by
  refine ⟨?body, fun _ _ _ _ h => composerByte_of_data h _ _ _, fun _ _ _ _ _ _ h => composerByte_ignores_arg h _ _ _ _ _,
    ?hold⟩
  case body =>
    intro p cmd rand sig body k hbody _
    rw [body_of_compose hbody]
    exact composerByte_eq_body fun _ _ => rfl
  case hold =>
    intro s rx inp hxfer hcmd hstate hidx
    have hnone : s.slotTx none = none := by
      rw [State.slotTx_of_xfer hxfer, Enc.tx_of_body hstate, State.composed, hcmd, composerByte_of_data (by omega)]
    refine ⟨hnone, State.qSlot_of_none hnone rx, fun harg => ?_⟩
    show (s.slotTx inp.arg).isSome = false
    rw [harg, hnone]
    rfl

/-! ### What is returned of the payload -/

theorem post_negotiate_of_short {payload : List Byte} (h : payload.length < 48) :
    post .negotiate payload = .error .truncated := if_pos h

theorem post_negotiate_of_long {payload : List Byte} (h : 48 ≤ payload.length) :
    post .negotiate payload = .ok (.session (payload.take 48) (payload.drop 48)) := if_neg (Nat.not_lt.mpr h)

theorem post_getInfo_eq {payload : List Byte} {r : Except Err InfoRecord} (h : decodeInfo payload = r) :
    post .getInfo payload = r.map Value.record := congrArg (Except.map Value.record) h

/-- Settles O35, command by command. -/
theorem negotiateReplySplitsAt48 : Obligations.NegotiateReplySplitsAt48 := by
  intro p
  refine ⟨rfl, rfl, fun r hr => post_getInfo_eq hr, fun e he => post_getInfo_eq he, post_negotiate_of_short, fun h => ?_⟩
  exact ⟨p.take 48, p.drop 48, post_negotiate_of_long h, List.length_take_of_le h, List.take_append_drop 48 p⟩

end Sys2Proof.Machine
end

section
/-! PROOFS. QSEQ's events on the whole machine, one equation per case (spec/44_commands.md R94, R96 to R98). -/

namespace Sys2Proof.Machine

/-! ### The start (R94) -/

theorem exec_qStart_of_fits {s : State} {total randLen sigLen : Nat} (cmd : Cmd) (htotal : s.params.fits total = true)
    (hrand : s.params.fits randLen = true) (hsig : s.params.fits sigLen = true) :
    exec (.qStart cmd total randLen sigLen) s = .next (s.qStart cmd total randLen sigLen) :=
  whenFits_of_all (by simp [htotal, hrand, hsig])

/-- The three grounds of a rejection. -/
theorem startRejected_iff {p : Params} {cmd : Cmd} {total randLen sigLen : Nat} :
    startRejected p cmd total randLen sigLen = true ↔
      (cmd = .negotiate ∧ randLen ≠ p.randLen) ∨ dataLenOf cmd randLen sigLen > 65535 ∨
        6 + dataLenOf cmd randLen sigLen + 2 > total := by
  simp [startRejected, Config.maxLength, Config.fixedBodyLen, or_assoc]

theorem startRejected_eq_false_iff {p : Params} {cmd : Cmd} {total randLen sigLen : Nat} :
    startRejected p cmd total randLen sigLen = false ↔
      ¬ ((cmd = .negotiate ∧ randLen ≠ p.randLen) ∨ dataLenOf cmd randLen sigLen > 65535 ∨
        6 + dataLenOf cmd randLen sigLen + 2 > total) := by
  rw [← startRejected_iff, Bool.not_eq_true]

theorem State.qReady_eq_false {s : State} (h : s.q.state = .xfer ∨ s.q.state = .post) : s.qReady = false := by
  rcases h with h | h <;> simp [State.qReady, h]

/-- Settles O36: the start by QSEQ's state, the grounds of a rejection, and ENC's state. -/
theorem qStartAcceptsOrRejects : Obligations.QStartAcceptsOrRejects := by
  intro cmd total randLen sigLen s htotal hrand hsig d bad q
  rw [exec_qStart_of_fits cmd htotal hrand hsig]
  refine ⟨fun hruns => ?running, fun hready hbad => ?rejected, fun hready hgood hidle => ?accepted,
    fun hready hgood hbusy => ?encBusy⟩
  case running => rw [State.qStart_of_running (State.qReady_eq_false hruns)]
  case rejected =>
    rw [State.qStart_of_rejected (State.qReady_iff.mpr hready) (startRejected_iff.mpr hbad)]
    rfl
  case accepted =>
    have haccepted := startRejected_eq_false_iff.mpr hgood
    rw [State.qStart_of_accepted (State.qReady_iff.mpr hready) haccepted, if_pos hidle,
      Enc.start_of_fits hidle (body_fits_of_accepted haccepted)]
    rfl
  case encBusy =>
    rw [State.qStart_of_accepted (State.qReady_iff.mpr hready) (startRejected_eq_false_iff.mpr hgood), if_neg hbusy,
      Enc.start_of_busy hbusy]
    rfl

/-! ### The slot (R96) -/

/-- A byte step takes RXP and the payload buffer alike, whatever the rest of the machine holds. -/
theorem State.rxByte_of_same_rxp {s u v : State} {b : Byte} (hrxp : s.rxp = u.rxp) (hpbuf : s.pbuf = u.pbuf)
    (h : u.rxByte b = .next v) : s.rxByte b = .next { s with rxp := v.rxp, pbuf := v.pbuf } := by
  rcases State.rxByte_eq_next.mp h with ⟨hnone, rfl⟩ | ⟨a, hstore, ha, rfl⟩
  · exact State.rxByte_eq_next.mpr (.inl ⟨hrxp ▸ hnone, by rw [hrxp, ← hpbuf]⟩)
  · exact State.rxByte_eq_next.mpr (.inr ⟨a, hrxp ▸ hstore, ha, by rw [hrxp, hpbuf]⟩)

/-- A slot with a byte offered: ENC's emit, RXP's byte, the count, and after the last slot the end and the post phase. -/
theorem State.qSlot_of_byte {s u : State} {arg : Option Byte} {b rx : Byte} (hb : s.slotTx arg = some b)
    (hu : s.rxByte rx = .next u) :
    s.qSlot arg rx = .next { s with
      enc := s.enc.emit (s.composed arg)
      txFrame := s.txFrame ++ [b]
      rxp := if s.q.slot + 1 = s.q.total then u.rxp.finish else u.rxp
      pbuf := u.pbuf
      q := { s.q with slot := s.q.slot + 1, state := if s.q.slot + 1 = s.q.total then .post else .xfer } } := by
  have hsome : (s.slotTx arg).isSome = true := by rw [hb]; rfl
  have hxfer : s.q.state = .xfer := State.xfer_of_slotTx hsome
  have htx : s.enc.tx (s.composed arg) = some b := (State.slotTx_of_xfer hxfer arg).symm.trans hb
  have hsent : (s.encEmit (s.composed arg)).rxByte rx =
      .next { s.encEmit (s.composed arg) with rxp := u.rxp, pbuf := u.pbuf } :=
    State.rxByte_of_same_rxp (u := s) rfl rfl hu
  refine State.qSlot_eq_next.mpr (.inr ⟨hsome, _, hsent, ?_⟩)
  by_cases hlast : s.q.slot + 1 = s.q.total <;>
    simp [hlast, hxfer, htx, Qseq.counted, State.encEmit, State.rxEnd]

/-- Settles O37: nothing without a byte offered; else RXP's byte is stored or not. -/
theorem qSlotExchangesOneByteEachWay : Obligations.QSlotExchangesOneByteEachWay := by
  intro arg rx s
  refine ⟨fun hq => State.qSlot_of_none (State.slotTx_of_not_xfer hq arg) rx, fun hnone => State.qSlot_of_none hnone rx,
    fun b hb hcnt => ?exchange⟩
  case exchange =>
    by_cases hst : s.rxp.state = .payload
    · rw [Rxp.storeAt_eq_some.mpr ⟨hst, rfl⟩]
      exact State.qSlot_of_byte hb (State.rxByte_of_payload hst (hcnt hst) rx)
    · rw [Rxp.storeAt_eq_none.mpr hst]
      exact State.qSlot_of_byte hb (State.rxByte_of_not_payload hst rx)

/-! ### The failed transfer (R97) -/

theorem State.qXferErr_of_xfer {s : State} (h : s.q.state = .xfer) :
    s.qXferErr = { s with
      enc := .reset, rxp := .reset, rdec := .reset
      q := { s.q with err := codeOf .transportError, state := .done } } := if_pos h

theorem State.qXferErr_of_not_xfer {s : State} (h : s.q.state ≠ .xfer) : s.qXferErr = s := if_neg h

theorem exec_qXferErr (s : State) : exec .qXferErr s = .next s.qXferErr := rfl

/-- Settles O39. -/
theorem xferErrEndsTheQuery : Obligations.XferErrEndsTheQuery := by
  refine ⟨fun s h => ?inXfer, fun s h => ?outside, fun _ _ _ _ _ _ _ _ _ _ => rfl⟩
  case inXfer =>
    rw [exec_qXferErr, State.qXferErr_of_xfer h]
    rfl
  case outside => rw [exec_qXferErr, State.qXferErr_of_not_xfer h]

/-! ### The post step (R98) -/

/-- While RDEC runs, the post step is its cursor step with the byte on the wiring of R24. -/
theorem State.qPost_of_run {s : State} (hpost : s.q.state = .post) (hrun : s.rdec.state = .run) :
    s.qPost = s.rdByte s.wiredByte := by
  rw [State.qPost, if_pos hpost, hrun]

theorem State.qPost_of_rdFail {s : State} (hpost : s.q.state = .post) (hfail : s.rdec.state = .fail) :
    s.qPost = .next (s.raise .qseq .truncated) := by
  rw [State.qPost, if_pos hpost, hfail]

/-- RDEC has not been started, and RXP has an error, which is passed on. -/
theorem State.qPost_of_rxFail {s : State} (hpost : s.q.state = .post) (hidle : s.rdec.state = .idle)
    (hfail : s.rxp.state = .fail) : s.qPost = .next s.qPassOn := by
  rw [State.qPost, if_pos hpost, hidle]
  exact if_pos (State.rxFail_iff.mpr hfail)

section Good

variable {s : State} (hpost : s.q.state = .post) (hidle : s.rdec.state = .idle) (hgood : s.rxp.state ≠ .fail)

include hpost hidle hgood

theorem State.qPost_of_certificate (hcmd : s.q.cmd = .getMsCert ∨ s.q.cmd = .getTermCert) :
    s.qPost = .next s.qFinish := by
  rcases hcmd with hcmd | hcmd <;> simp [State.qPost, hpost, hidle, State.rxFail, hgood, hcmd]

/-- The payload of GET_INFO is handed to RDEC. -/
theorem State.qPost_of_getInfo (hcmd : s.q.cmd = .getInfo) : s.qPost = .next (s.rdStart s.rxp.length) := by
  simp [State.qPost, hpost, hidle, State.rxFail, hgood, hcmd]

theorem State.qPost_of_negotiate (hcmd : s.q.cmd = .negotiate) :
    s.qPost = .next (if s.rxp.length.toNat < 48 then s.raise .qseq .truncated else s.qFinish) := by
  have hflag : ¬ s.rxFail = true := fun h => hgood (State.rxFail_iff.mp h)
  rw [State.qPost, if_pos hpost, hidle, apply_ite Host.Outcome.next]
  refine (if_neg hflag).trans ?_
  rw [hcmd]
  rfl

end Good

/-- Settles O40, by RDEC's state, RXP's verdict and the command. -/
theorem qPostByState : Obligations.QPostByState := by
  intro s done
  have hexec : exec .qPost s = s.qPost := rfl
  rw [hexec]
  refine ⟨State.qPost_outside, fun hpost hrun hend => ?truncated, fun f hpost hrun hlen hf => ?cursor,
    State.qPost_of_ok, State.qPost_of_rdFail, State.qPost_of_rxFail, fun hpost hidle hgood => ?good⟩
  case truncated => exact (State.qPost_of_run hpost hrun).trans (State.rdByte_of_atEnd hrun hend _)
  case cursor =>
    rw [State.qPost_of_run hpost hrun, State.rdByte_of_field hrun hlen hf]
    simp only [Rdec.take, cur_succ_eq_82_iff, State.wiredByte]
  case good =>
    refine ⟨State.qPost_of_certificate hpost hidle hgood, State.qPost_of_getInfo hpost hidle hgood, fun hcmd => ?_⟩
    rw [State.qPost_of_negotiate hpost hidle hgood hcmd]
    split <;> rfl

end Sys2Proof.Machine
end

section
/-! PROOFS. The transfer as a function of the environment's answers (spec/44_commands.md R87), and that queries and transfers
always answer a next state (R94, R39). -/

namespace Sys2Proof.Machine

/-! ### The answers by what becomes of the transfer -/

/-- The environment's answers to a transfer of `n` slots: not enough of them, a failure, or a byte for every slot. -/
inductive AnswerShape (n : Nat) : List Answer → Prop where
  | waits {rx : List Byte} (h : rx.length < n) : AnswerShape n (rx.map Answer.rx)
  | fails {rx : List Byte} (h : rx.length < n) (rest : List Answer) :
      AnswerShape n (rx.map Answer.rx ++ Answer.xferErr :: rest)
  | completes {rx : List Byte} (h : rx.length = n) (rest : List Answer) : AnswerShape n (rx.map Answer.rx ++ rest)

theorem answerShape (n : Nat) (answers : List Answer) : AnswerShape n answers := by
  induction n generalizing answers with
  | zero => exact .completes (rx := []) rfl answers
  | succ n ih =>
    match answers with
    | [] => exact .waits (rx := []) (Nat.succ_pos n)
    | .xferErr :: rest => exact .fails (rx := []) (Nat.succ_pos n) rest
    | .rx b :: answers =>
      cases ih answers with
      | @waits rx h => exact .waits (rx := b :: rx) (Nat.succ_lt_succ h)
      | @fails rx h rest => exact .fails (rx := b :: rx) (Nat.succ_lt_succ h) rest
      | @completes rx h rest => exact .completes (rx := b :: rx) (congrArg Nat.succ h) rest

theorem duplexTransfer_waits {n : Nat} {rx : List Byte} (h : rx.length < n) :
    duplexTransfer n (rx.map Answer.rx) = none := by
  induction rx generalizing n with
  | nil => obtain ⟨n, rfl⟩ := Nat.exists_eq_succ_of_ne_zero (Nat.ne_zero_of_lt h); rfl
  | cons b rx ih =>
    obtain ⟨n, rfl⟩ := Nat.exists_eq_succ_of_ne_zero (Nat.ne_zero_of_lt h)
    rw [List.map_cons, duplexTransfer, ih (Nat.lt_of_succ_lt_succ h)]

theorem duplexTransfer_fails {n : Nat} {rx : List Byte} (h : rx.length < n) (rest : List Answer) :
    duplexTransfer n (rx.map Answer.rx ++ Answer.xferErr :: rest) = some (.error .transportError, rest) := by
  induction rx generalizing n with
  | nil => obtain ⟨n, rfl⟩ := Nat.exists_eq_succ_of_ne_zero (Nat.ne_zero_of_lt h); rfl
  | cons b rx ih =>
    obtain ⟨n, rfl⟩ := Nat.exists_eq_succ_of_ne_zero (Nat.ne_zero_of_lt h)
    rw [List.map_cons, List.cons_append, duplexTransfer, ih (Nat.lt_of_succ_lt_succ h)]

theorem duplexTransfer_completes (rx : List Byte) (rest : List Answer) :
    duplexTransfer rx.length (rx.map Answer.rx ++ rest) = some (.ok rx, rest) := by
  induction rx with
  | nil => rfl
  | cons b rx ih => rw [List.map_cons, List.cons_append, List.length_cons, duplexTransfer, ih]

/-- Exactly `n` rx bytes, all of them (R87). -/
theorem duplexTransfer_eq_ok {n : Nat} {answers rest : List Answer} {rx : List Byte} :
    duplexTransfer n answers = some (.ok rx, rest) ↔ rx.length = n ∧ answers = rx.map Answer.rx ++ rest := by
  constructor
  · intro h
    cases answerShape n answers with
    | waits hlen => simp [duplexTransfer_waits hlen] at h
    | fails hlen => simp [duplexTransfer_fails hlen] at h
    | completes hlen =>
      subst hlen
      rw [duplexTransfer_completes] at h
      cases h
      exact ⟨rfl, rfl⟩
  · rintro ⟨rfl, rfl⟩
    exact duplexTransfer_completes rx rest

/-- `TransportError` alone, and exactly when a failure comes before (R87). -/
theorem duplexTransfer_eq_error {n : Nat} {answers rest : List Answer} {e : Err} :
    duplexTransfer n answers = some (.error e, rest) ↔ e = .transportError ∧
      ∃ rx : List Byte, rx.length < n ∧ answers = rx.map Answer.rx ++ Answer.xferErr :: rest := by
  constructor
  · intro h
    cases answerShape n answers with
    | waits hlen => simp [duplexTransfer_waits hlen] at h
    | @fails rx hlen =>
      rw [duplexTransfer_fails hlen] at h
      cases h
      exact ⟨rfl, rx, hlen, rfl⟩
    | completes hlen =>
      subst hlen
      simp [duplexTransfer_completes] at h
  · rintro ⟨rfl, rx, hlen, rfl⟩
    exact duplexTransfer_fails hlen rest

/-! ### The slots of a transfer, one equation per case -/

/-- Outside a transfer every answer is left. -/
theorem State.slots_of_not_xfer {s : State} (h : s.q.state ≠ .xfer) (tx : List Byte) (answers : List Answer) :
    State.slots tx answers s = .next { s with env := answers } := by
  cases answers with
  | nil => rfl
  | cons a answers => exact if_neg h

theorem State.slots_nil (tx : List Byte) (s : State) : State.slots tx [] s = .next { s with env := [] } := rfl

theorem State.slots_xferErr {s : State} (h : s.q.state = .xfer) (tx : List Byte) (answers : List Answer) :
    State.slots tx (.xferErr :: answers) s = .next { s.qXferErr with env := answers } := if_pos h

/-- A slot with a byte offered takes its answer. -/
theorem State.slots_rx_of_some {s : State} {tx : List Byte} (h : (s.slotTx tx[s.enc.idx]?).isSome = true) (b : Byte)
    (answers : List Answer) :
    State.slots tx (.rx b :: answers) s = andThen (s.qSlot tx[s.enc.idx]? b) (State.slots tx answers) :=
  (if_pos (State.xfer_of_slotTx h)).trans (if_pos h)

/-- Without a byte offered the run stops, and the answer is left. -/
theorem State.slots_rx_of_none {s : State} {tx : List Byte} (h : (s.slotTx tx[s.enc.idx]?).isSome = false) (b : Byte)
    (answers : List Answer) :
    State.slots tx (.rx b :: answers) s = .next { s with env := .rx b :: answers } := by
  by_cases hx : s.q.state = .xfer
  · exact (if_pos hx).trans (if_neg (by simp [h]))
  · exact State.slots_of_not_xfer hx tx _

/-! ### Every slot and every post step answers a next state -/

theorem State.rxByte_answers {s : State} (h : s.rxp.Inv s.pbuf) (b : Byte) :
    ∃ t, s.rxByte b = .next t ∧ t.rxp.Inv t.pbuf := by
  by_cases hst : s.rxp.state = .payload
  · have hcnt := h.storeAt_lt (Rxp.storeAt_eq_some.mpr ⟨hst, rfl⟩)
    exact ⟨_, State.rxByte_of_payload hst hcnt b, h.byte_stored hst b⟩
  · exact ⟨_, State.rxByte_of_not_payload hst b, h.byte hst b⟩

/-- A slot needs nothing but the parse's own invariant, and keeps it. -/
theorem State.qSlot_answers {s : State} (h : s.rxp.Inv s.pbuf) (arg : Option Byte) (rx : Byte) :
    ∃ t, s.qSlot arg rx = .next t ∧ t.rxp.Inv t.pbuf ∧ t.rdec = s.rdec := by
  cases hb : s.slotTx arg with
  | none => exact ⟨s, State.qSlot_of_none hb rx, h, rfl⟩
  | some b =>
    obtain ⟨u, hu, hinv⟩ := State.rxByte_answers h rx
    refine ⟨_, State.qSlot_of_byte hb hu, ?_, rfl⟩
    dsimp only
    split
    · exact hinv.finish
    · exact hinv

theorem State.slots_answers (tx : List Byte) (answers : List Answer) {s : State} (h : s.rxp.Inv s.pbuf)
    (hrdec : s.rdec.Inv) : ∃ t, State.slots tx answers s = .next t ∧ t.rdec.Inv := by
  induction answers generalizing s with
  | nil => exact ⟨_, State.slots_nil tx s, hrdec⟩
  | cons a answers ih =>
    by_cases hx : s.q.state = .xfer
    · cases a with
      | xferErr =>
        refine ⟨_, State.slots_xferErr hx tx answers, ?_⟩
        rw [State.qXferErr_of_xfer hx]
        exact Rdec.Inv.reset
      | rx b =>
        cases hsome : (s.slotTx tx[s.enc.idx]?).isSome with
        | true =>
          obtain ⟨u, hu, hinv, hkept⟩ := State.qSlot_answers h tx[s.enc.idx]? b
          rw [State.slots_rx_of_some hsome, hu, andThen_next]
          exact ih hinv (hkept ▸ hrdec)
        | false => exact ⟨_, State.slots_rx_of_none hsome b answers, hrdec⟩
    · exact ⟨_, State.slots_of_not_xfer hx tx _, hrdec⟩

theorem State.rdByte_answers {s : State} (h : s.rdec.Inv) (b : Byte) : ∃ t, s.rdByte b = .next t ∧ t.rdec.Inv := by
  by_cases hrun : s.rdec.state = .run
  · cases hend : s.rdec.atEnd with
    | true =>
      exact ⟨_, State.rdByte_of_atEnd hrun (Rdec.atEnd_iff.mp hend) b, h.raise_truncated hrun hend⟩
    | false =>
      obtain ⟨hcur, -, -⟩ := h.atRun hrun
      obtain ⟨f, hf⟩ := Option.isSome_iff_exists.mp (fieldAt_isSome hcur)
      exact ⟨_, State.rdByte_eq_next.mpr (.inr (.inr ⟨f, hrun, hend, hf, rfl⟩)), h.take hrun hend f b⟩
  · exact ⟨s, State.rdByte_of_not_run hrun b, h⟩

theorem State.qPost_answers {s : State} (h : s.rdec.Inv) : ∃ t, s.qPost = .next t ∧ t.rdec.Inv := by
  by_cases hpost : s.q.state = .post
  · cases hrdec : s.rdec.state with
    | run =>
      rw [State.qPost_of_run hpost hrdec]
      exact State.rdByte_answers h _
    | ok => exact ⟨_, State.qPost_of_ok hpost hrdec, h⟩
    | fail => exact ⟨_, State.qPost_of_rdFail hpost hrdec, h⟩
    | idle =>
      by_cases hgood : s.rxp.state = .fail
      · exact ⟨_, State.qPost_of_rxFail hpost hrdec hgood, h⟩
      · cases hcmd : s.q.cmd with
        | getMsCert => exact ⟨_, State.qPost_of_certificate hpost hrdec hgood (.inl hcmd), h⟩
        | getTermCert => exact ⟨_, State.qPost_of_certificate hpost hrdec hgood (.inr hcmd), h⟩
        | getInfo => exact ⟨_, State.qPost_of_getInfo hpost hrdec hgood hcmd, Rdec.Inv.started _⟩
        | negotiate =>
          refine ⟨_, State.qPost_of_negotiate hpost hrdec hgood hcmd, ?_⟩
          split <;> exact h
  · exact ⟨s, State.qPost_outside hpost, h⟩

theorem State.posts_answers (n : Nat) {s : State} (h : s.rdec.Inv) : ∃ t, State.posts n s = .next t := by
  induction n generalizing s with
  | zero => exact ⟨s, rfl⟩
  | succ n ih =>
    unfold State.posts
    split
    · obtain ⟨t, ht, hrdec⟩ := State.qPost_answers h
      rw [ht]
      exact ih hrdec
    · exact ⟨s, rfl⟩

/-- A start that is not ignored leaves a fresh parse, or none, and RDEC reset. -/
theorem State.qStart_fresh {s : State} (hready : s.qReady = true) (cmd : Cmd) (total randLen sigLen : Nat) :
    (s.qStart cmd total randLen sigLen).rxp.Inv (s.qStart cmd total randLen sigLen).pbuf ∧
      (s.qStart cmd total randLen sigLen).rdec = .reset := by
  cases hrej : startRejected s.params cmd total randLen sigLen with
  | true =>
    rw [State.qStart_of_rejected hready hrej]
    exact ⟨Rxp.Inv.reset _, rfl⟩
  | false =>
    rw [State.qStart_of_accepted hready hrej]
    exact ⟨Rxp.Inv.started _, rfl⟩

/-- A whole query is ignored, or is its start, the slots, the post steps and the reading of the ports. -/
theorem State.wholeQuery_of_ready {s : State} {total : Nat} {rand sig : List Byte} (hready : s.qReady = true)
    (cmd : Cmd) (htotal : s.params.fits total = true) (hrand : s.params.fits rand.length = true)
    (hsig : s.params.fits sig.length = true) :
    s.wholeQuery cmd total rand sig =
      andThen (State.slots (Config.sync :: bodyBytes cmd rand sig) s.env (s.qStart cmd total rand.length sig.length))
        (fun t => andThen (State.posts postSteps t) (fun u => .next { u with ret := u.readReply })) :=
  (whenFits_of_all (by simp [htotal, hrand, hsig])).trans (if_pos hready)

theorem State.wholeQuery_of_running {s : State} {total : Nat} {rand sig : List Byte} (hruns : s.qReady = false)
    (cmd : Cmd) (htotal : s.params.fits total = true) (hrand : s.params.fits rand.length = true)
    (hsig : s.params.fits sig.length = true) : s.wholeQuery cmd total rand sig = .next s :=
  (whenFits_of_all (by simp [htotal, hrand, hsig])).trans (if_neg (by simp [hruns]))

/-- Settles O42: a start begins with a fresh parse and RDEC reset, from where slots and post steps stay inside their
bounds; a transfer in flight finds both sound. -/
theorem queriesAndTransfersNeverStop : Obligations.QueriesAndTransfersNeverStop := by
  refine ⟨?query, ?transfer⟩
  case query =>
    intro i cmd total rand sig s hi htotal hrand hsig
    rw [exec_of_queryOf s hi]
    cases hready : s.qReady with
    | false => exact ⟨s, State.wholeQuery_of_running hready cmd htotal hrand hsig⟩
    | true =>
      obtain ⟨hrxp, hreset⟩ := State.qStart_fresh hready cmd total rand.length sig.length
      have hrdec : (s.qStart cmd total rand.length sig.length).rdec.Inv := hreset ▸ Rdec.Inv.reset
      obtain ⟨t, ht, hrdec⟩ := State.slots_answers (Config.sync :: bodyBytes cmd rand sig) s.env hrxp hrdec
      obtain ⟨u, hu⟩ := State.posts_answers postSteps hrdec
      rw [State.wholeQuery_of_ready hready cmd htotal hrand hsig, ht, andThen_next, hu]
      exact ⟨_, rfl⟩
  case transfer =>
    intro tx length s h
    have hexec : exec (.transfer tx length) s = s.transferOp tx length := rfl
    rw [hexec, State.transferOp]
    split
    · obtain ⟨t, ht, -⟩ := State.slots_answers tx (s.env.take length) h.rxp h.rdec
      rw [ht]
      exact ⟨_, rfl⟩
    · split <;> exact ⟨_, rfl⟩

end Sys2Proof.Machine
end

section
/-! PROOFS. A transfer in flight, slot by slot (spec/44_commands.md R96): ENC puts out the frame of one body, RXP reads the
bytes answered, and QSEQ counts. -/

namespace Sys2Proof.Machine

/-! ### Bytes fed, whatever the rest of the machine holds -/

theorem State.feed_of_same_rxp {s u v : State} {bs : List Byte} (hrxp : s.rxp = u.rxp) (hpbuf : s.pbuf = u.pbuf)
    (h : State.feed bs u = .next v) : State.feed bs s = .next { s with rxp := v.rxp, pbuf := v.pbuf } := by
  induction bs generalizing s u with
  | nil => cases h; rw [← hrxp, ← hpbuf]; rfl
  | cons b bs ih =>
    obtain ⟨w, hw, hv⟩ := andThen_eq_next.mp h
    rw [State.feed, State.rxByte_of_same_rxp hrxp hpbuf hw, andThen_next]
    exact ih (u := w) rfl rfl hv

theorem State.feed_answers (bs : List Byte) {s : State} (h : s.rxp.Inv s.pbuf) : ∃ u, State.feed bs s = .next u := by
  induction bs generalizing s with
  | nil => exact ⟨s, rfl⟩
  | cons b bs ih =>
    obtain ⟨t, ht, hinv⟩ := State.rxByte_answers h b
    rw [State.feed, ht]
    exact ih hinv

/-- One byte more. -/
theorem State.feed_concat {s u : State} {bs : List Byte} {b : Byte} (h : State.feed (bs ++ [b]) s = .next u) :
    ∃ w, State.feed bs s = .next w ∧ w.rxByte b = .next u := by
  rw [State.feed_append] at h
  obtain ⟨w, hw, hu⟩ := andThen_eq_next.mp h
  exact ⟨w, hw, (andThen_next_right _).symm.trans hu⟩

/-! ### A query whose frame has a given body -/

/-- The byte that the composer offers in the slot of tx offset `k`, from the registers of a start. -/
def Qseq.offerAt (q : Qseq) (k : Nat) (arg : Option Byte) : Option Byte :=
  composerByte q.cmd q.randLen q.sigLen (k - 1) arg

/-- A transfer in flight that puts out the frame of `body`, as many bytes of it as slots are counted. -/
structure State.Sends (s : State) (body : List Byte) : Prop where
  xfer : s.q.state = .xfer
  enc : s.enc = .sending body s.q.total s.q.slot
  frame : s.txFrame = (frameBytes body s.q.total).take s.q.slot
  bodyFits : body.length + 2 ≤ s.q.total
  slot_lt : s.q.slot < s.q.total

/-- The machine `n` slots further, RXP and the payload buffer as in `u` before the end of the parse; tied to the slots by
`State.Sends.qSlot_exchanged`. -/
def State.exchanged (s : State) (body : List Byte) (n : Nat) (u : State) : State :=
  { s with
    enc := .sending body s.q.total (s.q.slot + n)
    txFrame := (frameBytes body s.q.total).take (s.q.slot + n)
    rxp := if s.q.slot + n = s.q.total then u.rxp.finish else u.rxp
    pbuf := u.pbuf
    q := { s.q with slot := s.q.slot + n, state := if s.q.slot + n = s.q.total then .post else .xfer } }

theorem State.exchanged_xfer {s : State} {n : Nat} (h : s.q.slot + n < s.q.total) (body : List Byte) (u : State) :
    (s.exchanged body n u).q.state = .xfer := if_neg h.ne

theorem State.exchanged_post {s : State} {n : Nat} (h : s.q.slot + n = s.q.total) (body : List Byte) (u : State) :
    (s.exchanged body n u).q.state = .post := if_pos h

theorem State.Sends.exchanged_zero {s : State} {body : List Byte} (h : s.Sends body) : s.exchanged body 0 s = s := by
  have hmore : s.q.slot ≠ s.q.total := h.slot_lt.ne
  simp only [State.exchanged, Nat.add_zero, if_neg hmore, ← h.enc, ← h.frame, ← h.xfer]

/-- The machine when the transfer fails after `n` slots more; tied to the event by `State.qXferErr_exchanged`. -/
def State.exchangeFailed (s : State) (body : List Byte) (n : Nat) (u : State) : State :=
  { s with
    enc := .reset
    txFrame := (frameBytes body s.q.total).take (s.q.slot + n)
    rxp := .reset
    pbuf := u.pbuf
    rdec := .reset
    q := { s.q with slot := s.q.slot + n, err := codeOf .transportError, state := .done } }

theorem State.qXferErr_exchanged {s : State} {n : Nat} (h : s.q.slot + n < s.q.total) {body : List Byte} {u : State} :
    (s.exchanged body n u).qXferErr = s.exchangeFailed body n u :=
  State.qXferErr_of_xfer (State.exchanged_xfer h body u)

/-- The byte of a slot is the frame's, when the composer meets the body. -/
theorem State.Sends.slotTx_exchanged {s : State} {body : List Byte} {n : Nat} {arg : Option Byte} (h : s.Sends body)
    (hn : s.q.slot + n < s.q.total) (hoffer : OfferedAt body (s.q.slot + n) (s.q.offerAt (s.q.slot + n) arg))
    (u : State) : (s.exchanged body n u).slotTx arg = (frameBytes body s.q.total)[s.q.slot + n]? :=
  (State.slotTx_of_xfer (State.exchanged_xfer hn body u) arg).trans (Enc.emit_sending h.bodyFits hn hoffer).2

/-- One slot: a byte of the frame out, a byte to RXP. -/
theorem State.Sends.qSlot_exchanged {s u v : State} {body : List Byte} {n : Nat} {arg : Option Byte} {rx : Byte}
    (h : s.Sends body) (hn : s.q.slot + n < s.q.total)
    (hoffer : OfferedAt body (s.q.slot + n) (s.q.offerAt (s.q.slot + n) arg)) (hv : u.rxByte rx = .next v) :
    (s.exchanged body n u).qSlot arg rx = .next (s.exchanged body (n + 1) v) := by
  have hlt : s.q.slot + n < (frameBytes body s.q.total).length := by rwa [frameBytes_length h.bodyFits]
  have hbyte := (h.slotTx_exchanged hn hoffer u).trans (List.getElem?_eq_getElem hlt)
  have hrxp : (s.exchanged body n u).rxp = u.rxp := if_neg hn.ne
  have hemit : (s.exchanged body n u).enc.emit ((s.exchanged body n u).composed arg) =
      .sending body s.q.total (s.q.slot + (n + 1)) := (Enc.emit_sending h.bodyFits hn hoffer).1
  rw [State.qSlot_of_byte hbyte (State.rxByte_of_same_rxp hrxp rfl hv), hemit]
  simp only [State.exchanged, List.take_append_getElem, Nat.add_assoc]

/-- ENC is busy until the frame is out. -/
theorem encStateAt_ne_idle {bodyLen total n : Nat} (h : n < total) : encStateAt bodyLen total n ≠ .idle := by
  unfold encStateAt
  repeat' split
  all_goals simp_all

/-! ### The slots that the environment answers -/

/-- The requester's argument bytes meet the body wherever the composer asks for them. -/
def State.OffersMeet (s : State) (body : List Byte) (offer : Nat → Option Byte) : Prop :=
  ∀ k, s.q.slot ≤ k → OfferedAt body k (s.q.offerAt k (offer k))

section Slots

variable {s : State} {body : List Byte} (h : s.Sends body)

include h

/-- The slots of the bytes answered, in a run with more answers behind them. -/
theorem State.Sends.slots_exchanged {u : State} {tx rx : List Byte} (hoffers : s.OffersMeet body (tx[·]?))
    (hlen : s.q.slot + rx.length ≤ s.q.total) (hu : State.feed rx s = .next u) (rest : List Answer) :
    State.slots tx (rx.map Answer.rx ++ rest) s = State.slots tx rest (s.exchanged body rx.length u) := by
  induction rx using List.reverseRecOn generalizing u rest with
  | nil => cases hu; rw [List.length_nil, h.exchanged_zero]; rfl
  | append_singleton rx b ih =>
    rw [List.length_append, List.length_singleton] at hlen ⊢
    have hn : s.q.slot + rx.length < s.q.total := by omega
    obtain ⟨w, hw, hu⟩ := State.feed_concat hu
    have hoffer : OfferedAt body (s.q.slot + rx.length) (s.q.offerAt _ tx[s.q.slot + rx.length]?) :=
      hoffers (s.q.slot + rx.length) (Nat.le_add_right _ _)
    have hsome : ((s.exchanged body rx.length w).slotTx tx[s.q.slot + rx.length]?).isSome = true := by
      rw [h.slotTx_exchanged hn hoffer, List.getElem?_eq_getElem (by rwa [frameBytes_length h.bodyFits])]
      rfl
    have hslot : State.slots tx (.rx b :: rest) (s.exchanged body rx.length w) =
        andThen ((s.exchanged body rx.length w).qSlot tx[s.q.slot + rx.length]? b) (State.slots tx rest) :=
      State.slots_rx_of_some hsome b rest
    rw [List.map_append, List.append_assoc, ih (by omega) hw]
    exact hslot.trans (by rw [h.qSlot_exchanged hn hoffer hu, andThen_next])

theorem State.Sends.slots_waits {u : State} {tx rx : List Byte} (hoffers : s.OffersMeet body (tx[·]?))
    (hlen : s.q.slot + rx.length ≤ s.q.total) (hu : State.feed rx s = .next u) :
    State.slots tx (rx.map Answer.rx) s = .next { s.exchanged body rx.length u with env := [] } := by
  have hrun := h.slots_exchanged hoffers hlen hu []
  rwa [List.append_nil] at hrun

theorem State.Sends.slots_fails {u : State} {tx rx : List Byte} (hoffers : s.OffersMeet body (tx[·]?))
    (hlen : s.q.slot + rx.length < s.q.total) (hu : State.feed rx s = .next u) (rest : List Answer) :
    State.slots tx (rx.map Answer.rx ++ .xferErr :: rest) s =
      .next { s.exchangeFailed body rx.length u with env := rest } := by
  rw [h.slots_exchanged hoffers hlen.le hu, State.slots_xferErr (State.exchanged_xfer hlen body u),
    State.qXferErr_exchanged hlen]

theorem State.Sends.slots_completes {u : State} {tx rx : List Byte} (hoffers : s.OffersMeet body (tx[·]?))
    (hlen : s.q.slot + rx.length = s.q.total) (hu : State.feed rx s = .next u) (rest : List Answer) :
    State.slots tx (rx.map Answer.rx ++ rest) s = .next { s.exchanged body rx.length u with env := rest } := by
  have hpost : (s.exchanged body rx.length u).q.state ≠ .xfer :=
    (State.exchanged_post hlen body u).trans_ne nofun
  rw [h.slots_exchanged hoffers hlen.le hu, State.slots_of_not_xfer hpost]

end Slots

end Sys2Proof.Machine
end

section
/-! PROOFS. TRANSFER in a query and outside (spec/44_commands.md R87): a transfer in flight that meets the invariant puts out
the frame of some body, which the argument bytes to come complete. -/

namespace Sys2Proof.Machine

/-! ### A transfer in flight has a body -/

/-- A busy ENC is where its index is in the frame. -/
theorem Enc.Inv.state_eq {p : Params} {e : Enc} {frame : List Byte} (h : e.Inv p frame) (hbusy : e.state ≠ .idle) :
    e.state = encStateAt e.bodyLen e.total e.idx := by
  cases hs : e.state
  case idle => exact absurd hs hbusy
  case sync => rw [h.atSync hs]; rfl
  case body =>
    obtain ⟨hlow, hhigh⟩ := h.atBody hs
    exact (encStateAt_body (by omega) hhigh).symm
  case csum => rw [h.atCsum hs, encStateAt_succ (Nat.le_refl _), if_pos rfl]
  case pad =>
    obtain ⟨hlow, hhigh⟩ := h.atPad hs
    rw [encStateAt_tail hlow hhigh.le, if_neg hhigh.ne]

/-- A busy ENC has not put out its frame. -/
theorem Enc.Inv.idx_lt {p : Params} {e : Enc} {frame : List Byte} (h : e.Inv p frame) (hbusy : e.state ≠ .idle) :
    e.idx < e.total := by
  obtain ⟨hfits, -⟩ := h.busy hbusy
  cases hs : e.state
  case idle => exact absurd hs hbusy
  case sync => have := h.atSync hs; omega
  case body => have := h.atBody hs; omega
  case csum => have := h.atCsum hs; omega
  case pad => exact (h.atPad hs).2

/-- A busy ENC in the terms of the frame of a body. -/
theorem Enc.Inv.sending {p : Params} {e : Enc} {frame : List Byte} (h : e.Inv p frame) (hbusy : e.state ≠ .idle) :
    ∃ body : List Byte, body.length = e.bodyLen ∧ e = .sending body e.total e.idx ∧
      frame = (frameBytes body e.total).take e.idx := by
  obtain ⟨body, hlen, hframe, hacc⟩ := h.sentBytes hbusy
  obtain ⟨-, herr, hdone⟩ := h.busy hbusy
  refine ⟨body, hlen, ?_, hframe⟩
  have hmore : e.idx ≠ e.total := (h.idx_lt hbusy).ne
  have hstate := (h.state_eq hbusy).symm
  simp only [Enc.sending, hlen, hstate, ← hacc, ← herr, hmore, decide_false, ← hdone]

/-- What is out of a frame says nothing of the body bytes to come. -/
theorem Enc.sending_of_take_eq {body body' : List Byte} {total n : Nat} (hlen : body'.length = body.length)
    (htake : body'.take (n - 1) = body.take (n - 1)) :
    Enc.sending body' total n = .sending body total n ∧
      (frameBytes body' total).take n = (frameBytes body total).take n := by
  refine ⟨by rw [Enc.sending, Enc.sending, hlen, htake], ?_⟩
  match n with
  | 0 => rfl
  | n + 1 =>
    rcases Nat.le_total n body.length with hin | hpast
    · rw [frameBytes_take (hlen ▸ hin), frameBytes_take hin]
      exact congrArg _ htake
    · have hsame : body' = body := by
        rwa [Nat.add_sub_cancel, List.take_of_length_le (hlen ▸ hpast), List.take_of_length_le hpast] at htake
      rw [hsame]

/-- The body bytes already out, and behind them those that the argument bytes make the composer offer. -/
def Qseq.completedBody (q : Qseq) (body : List Byte) (n : Nat) (offer : Nat → Option Byte) : List Byte :=
  body.take n ++ (List.range (body.length - n)).map (fun j => (q.offerAt (n + j + 1) (offer (n + j + 1))).getD 0)

theorem Qseq.completedBody_length (q : Qseq) (body : List Byte) (n : Nat) (offer : Nat → Option Byte) :
    (q.completedBody body n offer).length = body.length := by
  simp only [completedBody, List.length_append, List.length_take, List.length_map, List.length_range]
  omega

theorem Qseq.completedBody_take (q : Qseq) (body : List Byte) (n : Nat) (offer : Nat → Option Byte) :
    (q.completedBody body n offer).take n = body.take n := by
  rcases Nat.le_total n body.length with hin | hpast
  · exact List.take_left' (List.length_take_of_le hin)
  · simp [completedBody, Nat.sub_eq_zero_of_le hpast]

/-- The bytes to come are those offered. -/
theorem Qseq.completedBody_getElem? (q : Qseq) {body : List Byte} {n k : Nat} {offer : Nat → Option Byte} (hlow : n ≤ k)
    (hhigh : k < body.length) (hsome : (q.offerAt (k + 1) (offer (k + 1))).isSome = true) :
    (q.completedBody body n offer)[k]? = q.offerAt (k + 1) (offer (k + 1)) := by
  obtain ⟨b, hb⟩ := Option.isSome_iff_exists.mp hsome
  have htaken : (body.take n).length = n := List.length_take_of_le (by omega)
  have hplace : n + (k - n) = k := by omega
  rw [completedBody, List.getElem?_append_right (by omega), htaken, List.getElem?_map,
    List.getElem?_range (by omega), Option.map_some, hplace, hb]
  rfl

/-- A transfer in flight that meets the invariant puts out the frame of a body that has the bytes to be offered at their
places, wherever one is offered. -/
theorem State.Inv.sends {s : State} (h : s.Inv) (hsync : s.InStep) (hx : s.q.state = .xfer)
    (offer : Nat → Option Byte) :
    ∃ body : List Byte, body.length = s.enc.bodyLen ∧ s.Sends body ∧ ∀ k, s.q.slot ≤ k →
      (k ≤ s.enc.bodyLen → (s.q.offerAt k (offer k)).isSome = true) → OfferedAt body k (s.q.offerAt k (offer k)) := by
  obtain ⟨hbusy, hslot, htotal, -⟩ := hsync hx
  obtain ⟨body, hlen, henc, hframe⟩ := h.enc.sending hbusy
  obtain ⟨hfits, -⟩ := h.enc.busy hbusy
  have hlen' := s.q.completedBody_length body (s.enc.idx - 1) offer
  obtain ⟨hsame, hout⟩ := Enc.sending_of_take_eq (total := s.enc.total) hlen'
    (s.q.completedBody_take body (s.enc.idx - 1) offer)
  refine ⟨s.q.completedBody body (s.enc.idx - 1) offer, hlen'.trans hlen, ⟨hx, ?_, ?_, ?_, ?_⟩, ?_⟩
  · rw [hslot, htotal, hsame]; exact henc
  · rw [hslot, htotal, hout]; exact hframe
  · rw [htotal, hlen', hlen]; exact hfits
  · rw [hslot, htotal]; exact h.enc.idx_lt hbusy
  · intro k hk hsome hne hle
    rw [hlen', hlen] at hle
    obtain ⟨k, rfl⟩ := Nat.exists_eq_succ_of_ne_zero hne
    exact (s.q.completedBody_getElem? (by omega) (by omega) (hsome hle)).symm

/-! ### TRANSFER (R87) -/

theorem exec_transfer_of_not_xfer {s : State} (h : s.q.state ≠ .xfer) (tx : List Byte) (length : Nat) :
    exec (.transfer tx length) s =
      match duplexTransfer length s.env with
      | none => .next { s with ret := .nothing }
      | some (result, rest) => .next { s with env := rest, ret := transferReply (some (result, rest)) } := if_neg h

/-- In `Q_XFER` TRANSFER is the slots, with what is left of the answers behind them, and the reply. -/
theorem exec_transfer_of_slots {s t : State} {tx : List Byte} {length : Nat} (hx : s.q.state = .xfer)
    (ht : State.slots tx (s.env.take length) s = .next t) :
    exec (.transfer tx length) s = .next { t with
      env := t.env ++ s.env.drop length
      ret := if t.q.state = .xfer then .nothing else transferReply (duplexTransfer (s.slotsLeft length) s.env) } := by
  have hexec : exec (.transfer tx length) s = s.transferOp tx length := rfl
  rw [hexec, State.transferOp, if_pos hx, ht, andThen_next]

/-- The answers that TRANSFER may use, with `rx` first. -/
theorem take_answers {rx : List Byte} {length : Nat} (h : rx.length ≤ length) (rest : List Answer) :
    (rx.map Answer.rx ++ rest).take length = rx.map Answer.rx ++ rest.take (length - rx.length) := by
  rw [List.take_append, List.length_map, List.take_of_length_le (by rwa [List.length_map])]

theorem drop_answers {rx : List Byte} {length : Nat} (h : rx.length ≤ length) (rest : List Answer) :
    (rx.map Answer.rx ++ rest).drop length = rest.drop (length - rx.length) := by
  rw [List.drop_append, List.length_map, List.drop_of_length_le (by rwa [List.length_map]), List.nil_append]

section InQuery

variable {s u : State} {body tx rx : List Byte} {length : Nat} (h : s.Sends body)
  (hoffers : s.OffersMeet body (tx[·]?)) (hlength : s.q.total - s.q.slot ≤ length) (hu : State.feed rx s = .next u)

include h hoffers hlength hu

/-- TRANSFER with too few answers: the query stays in its transfer. -/
theorem State.Sends.transfer_waits (hlen : rx.length < s.q.total - s.q.slot) (henv : s.env = rx.map Answer.rx) :
    exec (.transfer tx length) s = .next { s.exchanged body rx.length u with env := [], ret := .nothing } := by
  have hx := State.exchanged_xfer (n := rx.length) (s := s) (by omega) body u
  have htake := take_answers (rx := rx) (length := length) (by omega) []
  have hdrop := drop_answers (rx := rx) (length := length) (by omega) []
  rw [List.append_nil, List.take_nil, List.append_nil, ← henv] at htake
  rw [List.append_nil, List.drop_nil, ← henv] at hdrop
  have hslots := h.slots_waits hoffers (by omega) hu
  rw [← henv, ← htake] at hslots
  simp [exec_transfer_of_slots h.xfer hslots, hdrop, hx]

/-- TRANSFER with a failure among the answers it needs. -/
theorem State.Sends.transfer_fails {rest : List Answer} (hlen : rx.length < s.q.total - s.q.slot)
    (henv : s.env = rx.map Answer.rx ++ .xferErr :: rest) :
    exec (.transfer tx length) s = .next
      { s.exchangeFailed body rx.length u with env := rest, ret := .error .transportError } := by
  obtain ⟨k, hk⟩ : ∃ k, length - rx.length = k + 1 := ⟨length - rx.length - 1, by omega⟩
  have htake := take_answers (rx := rx) (length := length) (by omega) (.xferErr :: rest)
  have hdrop := drop_answers (rx := rx) (length := length) (by omega) (.xferErr :: rest)
  rw [← henv, hk, List.take_succ_cons] at htake
  rw [← henv, hk, List.drop_succ_cons] at hdrop
  have hslots := h.slots_fails hoffers (by omega) hu (rest.take k)
  have hleft : s.slotsLeft length = s.q.total - s.q.slot := Nat.min_eq_right hlength
  rw [← htake] at hslots
  rw [exec_transfer_of_slots h.xfer hslots, hdrop, hleft, henv, duplexTransfer_fails hlen, List.take_append_drop]
  rfl

/-- TRANSFER with a byte for every slot left. -/
theorem State.Sends.transfer_completes {rest : List Answer} (hlen : rx.length = s.q.total - s.q.slot)
    (henv : s.env = rx.map Answer.rx ++ rest) :
    exec (.transfer tx length) s = .next
      { s.exchanged body rx.length u with env := rest, ret := .value (.bytes rx) } := by
  have hend : s.q.slot + rx.length = s.q.total := by have := h.slot_lt; omega
  have hpost := State.exchanged_post hend body u
  have htake := take_answers (rx := rx) (length := length) (by omega) rest
  have hdrop := drop_answers (rx := rx) (length := length) (by omega) rest
  rw [← henv] at htake hdrop
  have hslots := h.slots_completes hoffers hend hu (rest.take (length - rx.length))
  have hleft : s.slotsLeft length = rx.length := (Nat.min_eq_right hlength).trans hlen.symm
  rw [← htake] at hslots
  rw [exec_transfer_of_slots h.xfer hslots, hdrop, hleft, henv, duplexTransfer_completes, List.take_append_drop]
  simp [hpost, transferReply, replyOf, Except.map]

end InQuery

/-- The bytes answered are determined by their number, and so is what they leave in the payload buffer. -/
theorem pbuf_of_answered {s u u' : State} {rx rx' : List Byte} {rest : List Answer}
    (henv : s.env = rx.map Answer.rx ++ rest) (hlen : rx.length = rx'.length)
    (henv' : s.env.take rx'.length = rx'.map Answer.rx) (hu : State.feed rx s = .next u)
    (hu' : State.feed rx' s = .next u') : u.pbuf = u'.pbuf := by
  have hinj : Function.Injective (List.map Answer.rx) := List.map_injective_iff.mpr fun _ _ => Answer.rx.inj
  rw [henv, ← hlen, List.take_left' (List.length_map ..)] at henv'
  rw [hinj henv', hu'] at hu
  cases hu
  rfl

/-- Argument bytes that reach past the body meet what the composer asks for. -/
theorem offerAt_isSome {q : Qseq} {tx : List Byte} {k : Nat} (hk : k < tx.length)
    (hbody : k ≤ Config.fixedBodyLen + dataLenOf q.cmd q.randLen q.sigLen) :
    (q.offerAt k tx[k]?).isSome = true := by
  have htx : tx[k]? = some tx[k] := List.getElem?_eq_getElem hk
  rw [Qseq.offerAt, htx]
  by_cases hcmd : q.cmd = .negotiate
  · rw [hcmd]
    rcases Nat.lt_or_ge (k - 1) 6 with hfront | hdata
    · rw [composerByte_of_front hfront, List.getElem?_eq_getElem (by exact hfront)]
      rfl
    · rw [composerByte_of_data hdata]
      rfl
  · have hlen := bodyBytes_fixed_length hcmd
    rw [dataLenOf, if_neg hcmd, Config.fixedBodyLen] at hbody
    rw [composerByte_fixed hcmd, List.getElem?_eq_getElem (by omega)]
    rfl

/-- Settles O43: the function by the shape of the answers; in a query the slots left put out the frame of the body that the
argument bytes complete. -/
theorem transferKeepsItsContract : Obligations.TransferKeepsItsContract := by
  refine ⟨fun _ _ _ _ => duplexTransfer_eq_ok, fun _ _ _ _ => duplexTransfer_eq_error, ?outside, ?inside⟩
  case outside =>
    intro tx length s hx
    rw [exec_transfer_of_not_xfer hx]
    match duplexTransfer length s.env with
    | none | some (.ok _, _) | some (.error _, _) => rfl
  case inside =>
    intro tx length s hinv hsync hx hlength htx
    obtain ⟨-, -, -, hbodyLen⟩ := hsync hx
    obtain ⟨body, -, h, hmeet⟩ := hinv.sends hsync hx (tx[·]?)
    have hoffers : s.OffersMeet body (tx[·]?) := fun k hk =>
      hmeet k hk fun hle => offerAt_isSome (by omega) (hbodyLen ▸ hle)
    have hshape := answerShape (s.q.total - s.q.slot) s.env
    generalize henv : s.env = answers at hshape
    cases hshape with
    | @waits rx hlen =>
      obtain ⟨u, hu⟩ := State.feed_answers rx hinv.rxp
      rw [← List.append_nil (rx.map Answer.rx)] at henv
      refine ⟨_, h.transfer_waits hoffers hlength hu hlen (by simpa using henv), rfl,
        fun rx' u' hslot henv' hu' => ?pbuf, fun rx' rest' hd => ?ok, fun rest' hd => ?error, fun _ => ?waiting⟩
      case pbuf => exact pbuf_of_answered (u := u) henv (Nat.add_left_cancel hslot) (by rw [henv]; simpa using henv') hu hu'
      case ok => simp [duplexTransfer_waits hlen] at hd
      case error => simp [duplexTransfer_waits hlen] at hd
      case waiting => exact ⟨State.exchanged_xfer (by omega) body u, rfl⟩
    | @fails rx hlen rest =>
      obtain ⟨u, hu⟩ := State.feed_answers rx hinv.rxp
      refine ⟨_, h.transfer_fails hoffers hlength hu hlen henv, rfl,
        fun rx' u' hslot henv' hu' => ?pbuf, fun rx' rest' hd => ?ok, fun rest' hd => ?error, fun hd => ?waiting⟩
      case pbuf => exact pbuf_of_answered (u := u) henv (Nat.add_left_cancel hslot) (henv ▸ henv') hu hu'
      case ok => simp [duplexTransfer_fails hlen] at hd
      case error =>
        rw [duplexTransfer_fails hlen] at hd
        cases hd
        exact ⟨rfl, rfl, rfl, rfl⟩
      case waiting => simp [duplexTransfer_fails hlen] at hd
    | @completes rx hlen rest =>
      obtain ⟨u, hu⟩ := State.feed_answers rx hinv.rxp
      rw [← hlen, duplexTransfer_completes]
      refine ⟨_, h.transfer_completes hoffers hlength hu hlen henv, rfl,
        fun rx' u' hslot henv' hu' => ?pbuf, fun rx' rest' hd => ?ok, nofun, nofun⟩
      case pbuf => exact pbuf_of_answered (u := u) henv (Nat.add_left_cancel hslot) (henv ▸ henv') hu hu'
      case ok =>
        cases hd
        exact ⟨State.exchanged_post (by have := h.slot_lt; omega) body u, rfl, rfl⟩

end Sys2Proof.Machine
end

section
/-! PROOFS. ENC and QSEQ stay in step (spec/44_commands.md R96): the slot count is ENC's index throughout a transfer, and ENC
is idle when the post phase begins. -/

namespace Sys2Proof.Machine

/-! ### In step -/

/-- ENC and QSEQ in step, and ENC idle in the post phase: what R96 says of a query from its start to its end. -/
def State.EncFollows (s : State) : Prop := s.InStep ∧ (s.q.state = .post → s.enc.state = .idle)

/-- Nothing but ENC and QSEQ has a part in it. -/
theorem State.EncFollows.congr {s t : State} (h : s.EncFollows) (henc : t.enc = s.enc) (hq : t.q = s.q) :
    t.EncFollows := by
  unfold State.EncFollows State.InStep
  rw [henc, hq]
  exact h

theorem State.EncFollows.of_not_running {s : State} (hxfer : s.q.state ≠ .xfer) (hpost : s.q.state ≠ .post) :
    s.EncFollows :=
  ⟨fun hx => absurd hx hxfer, fun hp => absurd hp hpost⟩

theorem State.EncFollows.of_inStep {s : State} (hsync : s.InStep) (hx : s.q.state = .xfer) : s.EncFollows :=
  ⟨hsync, fun hp => absurd (hx.symm.trans hp) nofun⟩

/-- ENC and QSEQ are in step after every slot of a transfer, the last one included. -/
theorem State.Sends.exchanged_follows {s : State} {body : List Byte} {n : Nat} (h : s.Sends body)
    (hbody : body.length = Config.fixedBodyLen + dataLenOf s.q.cmd s.q.randLen s.q.sigLen)
    (hn : s.q.slot + n ≤ s.q.total) (u : State) : (s.exchanged body n u).EncFollows := by
  rcases Nat.eq_or_lt_of_le hn with hend | hmore
  · have hpost := State.exchanged_post hend body u
    have hidle : (s.exchanged body n u).enc.state = .idle := by
      simp only [State.exchanged, hend]
      exact encStateAt_total h.bodyFits
    exact ⟨fun hx => absurd (hpost.symm.trans hx) nofun, fun _ => hidle⟩
  · exact .of_inStep (fun _ => ⟨encStateAt_ne_idle hmore, rfl, rfl, hbody⟩) (State.exchanged_xfer hmore body u)

/-! ### Slots, and the slots of TRANSFER -/

theorem State.EncFollows.qSlot {s t : State} {arg : Option Byte} {rx : Byte} (hinv : s.Inv) (h : s.EncFollows)
    (ht : s.qSlot arg rx = .next t) : t.EncFollows := by
  cases hb : s.slotTx arg with
  | none =>
    rw [State.qSlot_of_none hb] at ht
    cases ht
    exact h
  | some b =>
    obtain ⟨hsync, -⟩ := h
    have hx : s.q.state = .xfer := State.xfer_of_slotTx (by rw [hb]; rfl)
    obtain ⟨-, hslot, -, hbodyLen⟩ := hsync hx
    obtain ⟨body, hlen, hsends, hmeet⟩ := hinv.sends hsync hx fun _ => arg
    obtain ⟨u, hu, -⟩ := State.rxByte_answers hinv.rxp rx
    have hoffer : OfferedAt body s.q.slot (s.q.offerAt s.q.slot arg) := by
      intro hpos hle
      refine hmeet s.q.slot (Nat.le_refl _) (fun _ => ?_) hpos hle
      have hstate : s.enc.state = .body := by
        rw [hsends.enc]
        exact encStateAt_body hpos hle
      have htx := (State.slotTx_of_xfer hx arg).symm.trans hb
      rw [Enc.tx_of_body hstate, State.composed, ← hslot] at htx
      rw [Qseq.offerAt, htx]
      rfl
    have hstep := hsends.qSlot_exchanged (n := 0) hsends.slot_lt hoffer hu
    rw [hsends.exchanged_zero, ht] at hstep
    cases hstep
    exact hsends.exchanged_follows (hlen.trans hbodyLen) hsends.slot_lt u

theorem State.EncFollows.slots {s t : State} {tx : List Byte} {answers : List Answer} (hinv : s.Inv)
    (h : s.EncFollows) (ht : State.slots tx answers s = .next t) : t.EncFollows := by
  induction answers generalizing s with
  | nil => cases ht; exact h.congr rfl rfl
  | cons a answers ih =>
    by_cases hx : s.q.state = .xfer
    · cases a with
      | xferErr =>
        rw [State.slots_xferErr hx, State.qXferErr_of_xfer hx] at ht
        cases ht
        exact .of_not_running nofun nofun
      | rx b =>
        cases hsome : (s.slotTx tx[s.enc.idx]?).isSome with
        | true =>
          rw [State.slots_rx_of_some hsome] at ht
          obtain ⟨u, hu, ht⟩ := andThen_eq_next.mp ht
          exact ih (hinv.qSlot hu) (State.EncFollows.qSlot hinv h hu) ht
        | false =>
          rw [State.slots_rx_of_none hsome] at ht
          cases ht
          exact h.congr rfl rfl
    · rw [State.slots_of_not_xfer hx] at ht
      cases ht
      exact h.congr rfl rfl

theorem State.EncFollows.transferOp {s t : State} {tx : List Byte} {length : Nat} (hinv : s.Inv) (h : s.EncFollows)
    (ht : s.transferOp tx length = .next t) : t.EncFollows := by
  unfold State.transferOp at ht
  split at ht
  · obtain ⟨u, hu, ht⟩ := andThen_eq_next.mp ht
    cases ht
    exact (State.EncFollows.slots hinv h hu).congr rfl rfl
  · split at ht <;> cases ht <;> exact h.congr rfl rfl

/-! ### Every instruction and every step in a transfer -/

/-- What drives ENC, RXP or RDEC is refused while a query runs. -/
theorem whenFree_ne_next {s t : State} {r : Result} (h : s.q.state = .xfer) : s.whenFree r ≠ .next t := by
  intro ht
  obtain ⟨hfree, -⟩ := whenFree_eq_next.mp ht
  exact (State.queryRuns_eq_false.mp hfree).1 h

/-- A start while a query runs is ignored, be it a whole query. -/
theorem State.wholeQuery_eq_self {s t : State} {cmd : Cmd} {total : Nat} {rand sig : List Byte}
    (hruns : s.qReady = false) (ht : s.wholeQuery cmd total rand sig = .next t) : t = s := by
  obtain ⟨-, ht⟩ := whenFits_eq_next.mp ht
  rw [hruns] at ht
  exact (Host.Outcome.next.inj ht).symm

theorem State.EncFollows.exec {i : Instr} {s t : State} (hinv : s.Inv) (h : s.EncFollows) (hx : s.q.state = .xfer)
    (ht : exec i s = .next t) : t.EncFollows := by
  have hruns : s.qReady = false := State.qReady_eq_false (.inl hx)
  cases i with
  | getMsCert total => rw [State.wholeQuery_eq_self hruns ht]; exact h
  | getTermCert total => rw [State.wholeQuery_eq_self hruns ht]; exact h
  | getInfo total => rw [State.wholeQuery_eq_self hruns ht]; exact h
  | negotiate total rand sig => rw [State.wholeQuery_eq_self hruns ht]; exact h
  | query cmd total rand sig => rw [State.wholeQuery_eq_self hruns ht]; exact h
  | qStart cmd total randLen sigLen =>
    obtain ⟨-, ht⟩ := whenFits_eq_next.mp ht
    rw [State.qStart_of_running hruns] at ht
    cases ht
    exact h
  | transfer tx length => exact State.EncFollows.transferOp hinv h ht
  | qSlot arg rx => exact State.EncFollows.qSlot hinv h ht
  | qXferErr =>
    rw [exec_qXferErr, State.qXferErr_of_xfer hx] at ht
    cases ht
    exact .of_not_running nofun nofun
  | rst => cases ht; exact .of_not_running nofun nofun
  | qPost =>
    have hpost : s.qPost = .next t := ht
    rw [State.qPost_outside (hx.trans_ne nofun)] at hpost
    cases hpost
    exact h
  | xorfold | checksum | hex | csClear | csAbsorb => cases ht; exact h.congr rfl rfl
  | responseFrame | encode | decode | decodeInfo | encStart | encEmit | rxStart | rxByte | rxEnd | rdStart | rdByte =>
    exact absurd ht (whenFree_ne_next hx)

/-- In a transfer the block has no event of its own: it is not the post phase, and RDEC rests. -/
theorem State.Inv.ownEvent_of_xfer {s : State} (h : s.Inv) (hx : s.q.state = .xfer) (driven : Bool) (t : State) :
    s.ownEvent driven t = .next t := by
  obtain ⟨-, -, -, hrdec⟩ := h.query.atXfer hx
  exact State.ownEvent_none (hx.trans_ne nofun) (.inl (by rw [hrdec]; exact nofun))

theorem State.EncFollows.step {s t : State} (hinv : s.Inv) (h : s.EncFollows) (hx : s.q.state = .xfer)
    (ht : step s = .next t) : t.EncFollows := by
  rcases step_eq_next ht with ⟨-, ht⟩ | ⟨o, rest, -, ⟨-, ht⟩ | ⟨-, ht⟩ | ⟨i, u, -, -, hu, ht⟩⟩ <;>
    rw [hinv.ownEvent_of_xfer hx] at ht <;> cases ht
  · exact h
  · exact h.congr rfl rfl
  · exact h.congr rfl rfl
  · exact State.EncFollows.exec (hinv.bookkeeping s.acc rest s.env s.ret) (h.congr rfl rfl) hx hu

end Sys2Proof.Machine
end

section
/-! PROOFS. The post phase of a query (spec/44_commands.md R98): how many steps it takes, where it ends, and that its end
shows what `post` makes of the payload decoded (R99). -/

namespace Sys2Proof.Machine

/-! ### Runs of post steps -/

theorem runAll_append (is js : List Instr) (s : State) : runAll (is ++ js) s = andThen (runAll is s) (runAll js) := by
  induction is generalizing s with
  | nil => rfl
  | cons i is ih =>
    have hrun : runAll (is ++ js) = fun t => andThen (runAll is t) (runAll js) := funext ih
    rw [List.cons_append, runAll, runAll, hrun, andThen_assoc]

theorem runAll_qPost (s : State) : runAll [.qPost] s = s.qPost := andThen_next_right _

/-- Outside the post phase post steps do nothing. -/
theorem runAll_qPost_outside {s : State} (h : s.q.state ≠ .post) (n : Nat) :
    runAll (List.replicate n .qPost) s = .next s := by
  induction n with
  | zero => rfl
  | succ n ih =>
    have hstep : exec .qPost s = .next s := State.qPost_outside h
    rw [List.replicate_succ, runAll, hstep, andThen_next, ih]

/-- The post steps of a whole query are post steps by name. -/
theorem State.posts_eq_runAll (n : Nat) (s : State) : State.posts n s = runAll (List.replicate n .qPost) s := by
  induction n generalizing s with
  | zero => rfl
  | succ n ih =>
    by_cases hpost : s.q.state = .post
    · have hrest : State.posts n = runAll (List.replicate n .qPost) := funext ih
      rw [State.posts, if_pos hpost, List.replicate_succ, runAll, hrest]
      rfl
    · rw [State.posts, if_neg hpost, runAll_qPost_outside hpost]

/-- `n` post steps lead from `p` to `v`, and fewer leave the query in its post phase, with nothing put out. -/
structure State.PostRun (p : State) (n : Nat) (v : State) : Prop where
  last : runAll (List.replicate n .qPost) p = .next v
  before : ∀ m < n, ∃ u, runAll (List.replicate m .qPost) p = .next u ∧ u.q.state = .post ∧ u.txFrame = p.txFrame

theorem State.PostRun.none (p : State) : p.PostRun 0 p := ⟨rfl, nofun⟩

/-- One post step more. -/
theorem State.PostRun.step {p u v : State} {n : Nat} (h : p.PostRun n u) (hpost : u.q.state = .post)
    (hframe : u.txFrame = p.txFrame) (hv : u.qPost = .next v) : p.PostRun (n + 1) v where
  last := by rw [List.replicate_succ', runAll_append, h.last, andThen_next, runAll_qPost, hv]
  before m hm := by
    rcases Nat.eq_or_lt_of_le (Nat.le_of_lt_succ hm) with rfl | hlt
    · exact ⟨u, h.last, hpost, hframe⟩
    · exact h.before m hlt

/-- A query that has ended stays so: more post steps than needed make no difference. -/
theorem State.PostRun.posts {p v : State} {n m : Nat} (h : p.PostRun n v) (hv : v.q.state ≠ .post) (hm : n ≤ m) :
    State.posts m p = .next v := by
  obtain ⟨k, rfl⟩ := Nat.exists_eq_add_of_le hm
  rw [State.posts_eq_runAll, List.replicate_add, runAll_append, h.last, andThen_next, runAll_qPost_outside hv]

/-! ### The payload read over the wiring (R24, R98) -/

theorem State.payload_length {s : State} (h : s.rxp.state = .ok) : s.payload.length = s.rxp.length.toNat := by
  rw [State.payload_of_ok h, stored_length]

theorem State.wiredByte_reading {s : State} {k : Nat} (hok : s.rxp.state = .ok) (hk : k < 82)
    (hlen : k < s.payload.length) :
    (s.reading (s.payload.take k) s.rxp.length).wiredByte = s.payload[k] := by
  have hcur : (s.reading (s.payload.take k) s.rxp.length).rdec.cur.toNat = k := by
    have htaken : (s.payload.take k).length = k := List.length_take_of_le hlen.le
    exact (Rdec.reading_cur (by omega) s.rxp.length).trans htaken
  have haddr : ((s.reading (s.payload.take k) s.rxp.length).rdec.cur.setWidth 16).toNat = k := by
    rw [BitVec.toNat_setWidth, hcur]
    omega
  have hbelow : (s.reading (s.payload.take k) s.rxp.length).rdec.cur.setWidth 16 < s.rxp.length := by
    rw [BitVec.lt_def, haddr, ← State.payload_length hok]
    exact hlen
  have hbyte : s.payload[k] = pbufByte s.pbuf k := by simp [State.payload_of_ok hok, stored]
  rw [hbyte, State.wiredByte]
  exact (State.plData_of_lt hok hbelow).trans (congrArg (pbufByte s.pbuf) haddr)

section Read

variable {p : State} (hpost : p.q.state = .post) (hidle : p.rdec.state = .idle) (hok : p.rxp.state = .ok)

include hpost hidle hok

/-- GET_INFO's start of RDEC and its cursor steps. -/
theorem State.PostRun.reading (hcmd : p.q.cmd = .getInfo) {k : Nat} (hk : k ≤ 82) (hlen : k ≤ p.payload.length) :
    p.PostRun (k + 1) (p.reading (p.payload.take k) p.rxp.length) := by
  induction k with
  | zero =>
    exact (State.PostRun.none p).step hpost rfl (State.qPost_of_getInfo hpost hidle (hok.trans_ne nofun) hcmd)
  | succ k ih =>
    have htaken : (p.payload.take k).length = k := List.length_take_of_le (by omega)
    have hlength := State.payload_length hok
    have hstep : (p.reading (p.payload.take k) p.rxp.length).qPost =
        .next (p.reading (p.payload.take (k + 1)) p.rxp.length) := by
      rw [State.qPost_of_run (s := p.reading _ _) hpost (Rdec.reading_run (by omega) _),
        State.wiredByte_reading hok (by omega) (by omega), State.rdByte_reading (by omega) (by omega),
        List.take_append_getElem]
    exact (ih (by omega) (by omega)).step hpost rfl hstep

/-- GET_INFO with a payload of 82 bytes or more: `1 + 82 + 1` steps. -/
theorem State.PostRun.info_long (hcmd : p.q.cmd = .getInfo) (hlong : 82 ≤ p.payload.length) :
    p.PostRun 84 (p.reading (p.payload.take 82) p.rxp.length).qFinish :=
  (State.PostRun.reading hpost hidle hok hcmd (Nat.le_refl 82) hlong).step hpost rfl
    (State.qPost_of_ok hpost (Rdec.reading_ok hlong _))

/-- GET_INFO with a shorter payload: the step at its end fails RDEC, and the next one the query. -/
theorem State.PostRun.info_short (hcmd : p.q.cmd = .getInfo) (hshort : p.payload.length < 82) :
    p.PostRun (p.payload.length + 3) ((p.readingFailed p.payload p.rxp.length).raise .qseq .truncated) := by
  have hread := State.PostRun.reading hpost hidle hok hcmd hshort.le (Nat.le_refl _)
  rw [List.take_length] at hread
  have hlength := State.payload_length hok
  have hfail : (p.reading p.payload p.rxp.length).qPost = .next (p.readingFailed p.payload p.rxp.length) := by
    rw [State.qPost_of_run (s := p.reading _ _) hpost (Rdec.reading_run hshort _), State.rdByte_reading_atEnd hshort (by omega)]
  exact (hread.step hpost rfl hfail).step hpost rfl (State.qPost_of_rdFail hpost rfl)

end Read

/-! ### Where the post phase ends -/

/-- What the parse of the transfer's bytes has left, as a result of `decode` (R79). -/
inductive State.Verdict (p : State) : Except Err (List Byte) → Prop where
  | payload (h : p.rxp.state = .ok) : Verdict p (.ok p.payload)
  | error {e : Err} (h : p.rxp.Names e) : Verdict p (.error e)

/-- RDEC at the end of the post phase: it has read the reply of a GET_INFO. -/
def State.endRdec (p : State) : Rdec :=
  if p.rxp.state = .ok ∧ p.q.cmd = .getInfo then
    if 82 ≤ p.payload.length then .reading (p.payload.take 82) p.rxp.length
    else (Rdec.reading p.payload p.rxp.length).raise .truncated
  else p.rdec

/-- The error code at the end of the post phase. -/
def State.endCode (p : State) : BitVec 3 :=
  if p.rxp.state = .fail then p.rxp.err else codeOfResult (post p.q.cmd p.payload)

/-- The end of the post phase; tied to the post steps by `State.Verdict.postRun`. -/
def State.ended (p : State) : State :=
  { p with rdec := p.endRdec, q := { p.q with err := p.endCode, state := .done } }

section Ended

variable {p : State}

theorem State.ended_of_fail (h : p.rxp.state = .fail) : p.ended = p.qPassOn := by
  have hnot : ¬ (p.rxp.state = .ok ∧ p.q.cmd = .getInfo) := by simp [h]
  rw [State.ended, State.endRdec, if_neg hnot, State.endCode, if_pos h]
  rfl

/-- With a payload the command's own `post` decides (R89 to R93). -/
theorem State.endCode_of_ok {cmd : Cmd} {res : Except Err Value} (h : p.rxp.state = .ok) (hcmd : p.q.cmd = cmd)
    (hres : post cmd p.payload = res) : p.endCode = codeOfResult res := by
  have hnot : ¬ p.rxp.state = .fail := by simp [h]
  rw [State.endCode, if_neg hnot, hcmd, hres]

theorem State.ended_of_not_info {cmd : Cmd} {res : Except Err Value} (h : p.rxp.state = .ok) (hcmd : p.q.cmd = cmd)
    (hinfo : cmd ≠ .getInfo) (hres : post cmd p.payload = res) :
    p.ended = { p with q := { p.q with err := codeOfResult res, state := .done } } := by
  have hnot : ¬ (p.rxp.state = .ok ∧ p.q.cmd = .getInfo) := fun hboth => hinfo (hcmd.symm.trans hboth.2)
  rw [State.ended, State.endRdec, if_neg hnot, State.endCode_of_ok h hcmd hres]

theorem post_getInfo_long {payload : List Byte} (h : 82 ≤ payload.length) :
    post .getInfo payload = .ok (.record (infoOf payload)) := post_getInfo_eq (decodeInfo_of_long h)

theorem post_getInfo_short {payload : List Byte} (h : payload.length < 82) :
    post .getInfo payload = .error .truncated := post_getInfo_eq (decodeInfo_of_short h)

theorem State.ended_of_info_long (h : p.rxp.state = .ok) (hcmd : p.q.cmd = .getInfo) (hlong : 82 ≤ p.payload.length) :
    p.ended = (p.reading (p.payload.take 82) p.rxp.length).qFinish := by
  rw [State.ended, State.endRdec, if_pos ⟨h, hcmd⟩, if_pos hlong,
    State.endCode_of_ok h hcmd (post_getInfo_long hlong)]
  rfl

theorem State.ended_of_info_short (h : p.rxp.state = .ok) (hcmd : p.q.cmd = .getInfo)
    (hshort : p.payload.length < 82) :
    p.ended = (p.readingFailed p.payload p.rxp.length).raise .qseq .truncated := by
  rw [State.ended, State.endRdec, if_pos ⟨h, hcmd⟩, if_neg (Nat.not_le.mpr hshort),
    State.endCode_of_ok h hcmd (post_getInfo_short hshort)]
  rfl

/-- The steps of a query that is not a good GET_INFO are one. -/
theorem postCount_eq_one {cmd : Cmd} {rx : List Byte} (h : cmd = .getInfo → ∃ e, decodeResponse rx = .error e) :
    postCount cmd rx = 1 := by
  cases cmd with
  | getMsCert | getTermCert | negotiate => rfl
  | getInfo =>
    obtain ⟨e, he⟩ := h rfl
    simp [postCount, he]

theorem postCount_getInfo {rx payload : List Byte} (h : decodeResponse rx = .ok payload) :
    postCount .getInfo rx = if 82 ≤ payload.length then 84 else payload.length + 3 := by
  simp [postCount, h]

theorem post_certificate {cmd : Cmd} (h : cmd = .getMsCert ∨ cmd = .getTermCert) (payload : List Byte) :
    post cmd payload = .ok (.bytes payload) := by
  rcases h with rfl | rfl <;> rfl

section PostRun

variable {rx : List Byte} (hpost : p.q.state = .post) (hidle : p.rdec.state = .idle)

include hpost hidle

/-- RXP's error is passed on in the one post step. -/
theorem State.postRun_of_fail {e : Err} (hres : decodeResponse rx = .error e) (hfail : p.rxp.state = .fail) :
    p.PostRun (postCount p.q.cmd rx) p.ended := by
  rw [postCount_eq_one fun _ => ⟨e, hres⟩, State.ended_of_fail hfail]
  exact (State.PostRun.none p).step hpost rfl (State.qPost_of_rxFail hpost hidle hfail)

theorem State.postRun_of_certificate (hok : p.rxp.state = .ok) (hcmd : p.q.cmd = .getMsCert ∨ p.q.cmd = .getTermCert) :
    p.PostRun (postCount p.q.cmd rx) p.ended := by
  have hinfo : p.q.cmd ≠ .getInfo := by rcases hcmd with hcmd | hcmd <;> simp [hcmd]
  rw [postCount_eq_one fun h => absurd h hinfo, State.ended_of_not_info hok rfl hinfo (post_certificate hcmd _)]
  exact (State.PostRun.none p).step hpost rfl (State.qPost_of_certificate hpost hidle (by simp [hok]) hcmd)

theorem State.postRun_of_info (hres : decodeResponse rx = .ok p.payload) (hok : p.rxp.state = .ok)
    (hcmd : p.q.cmd = .getInfo) : p.PostRun (postCount p.q.cmd rx) p.ended := by
  rw [hcmd, postCount_getInfo hres]
  split
  case isTrue hlong =>
    rw [State.ended_of_info_long hok hcmd hlong]
    exact .info_long hpost hidle hok hcmd hlong
  case isFalse hshort =>
    rw [State.ended_of_info_short hok hcmd (Nat.not_le.mp hshort)]
    exact .info_short hpost hidle hok hcmd (Nat.not_le.mp hshort)

theorem State.postRun_of_negotiate (hok : p.rxp.state = .ok) (hcmd : p.q.cmd = .negotiate) :
    p.PostRun (postCount p.q.cmd rx) p.ended := by
  have hinfo : p.q.cmd ≠ .getInfo := by simp [hcmd]
  have hstep := State.qPost_of_negotiate hpost hidle (by simp [hok]) hcmd
  rw [← State.payload_length hok] at hstep
  rw [postCount_eq_one fun h => absurd h hinfo]
  refine (State.PostRun.none p).step hpost rfl (hstep.trans (congrArg _ ?_))
  split
  case isTrue hshort =>
    rw [State.ended_of_not_info hok hcmd nofun (post_negotiate_of_short hshort)]
    rfl
  case isFalse hlong =>
    rw [State.ended_of_not_info hok hcmd nofun (post_negotiate_of_long (Nat.not_lt.mp hlong))]
    rfl

/-- The post steps of R98, counted, and where they end: by the verdict and the command. -/
theorem State.Verdict.postRun (h : p.Verdict (decodeResponse rx)) : p.PostRun (postCount p.q.cmd rx) p.ended := by
  generalize hres : decodeResponse rx = res at h
  cases h with
  | error hnames =>
    obtain ⟨hfail, -⟩ := hnames
    exact State.postRun_of_fail hpost hidle hres hfail
  | payload hok =>
    cases hcmd : p.q.cmd with
    | getMsCert => exact hcmd ▸ State.postRun_of_certificate hpost hidle hok (.inl hcmd)
    | getTermCert => exact hcmd ▸ State.postRun_of_certificate hpost hidle hok (.inr hcmd)
    | getInfo => exact hcmd ▸ State.postRun_of_info hpost hidle hres hok hcmd
    | negotiate => exact hcmd ▸ State.postRun_of_negotiate hpost hidle hok hcmd

end PostRun

end Ended

/-! ### What the end shows (R99) -/

/-- The requester's side of a query that has ended: its code, what the ports show of its value or error, and the reading. -/
structure State.Shows (t : State) (r : Except Err Value) : Prop where
  done : t.q.state = .done
  code : t.q.err = codeOfResult r
  reply : t.readReply = replyOf r
  status : ∀ st, r = .error (.statusError st) → t.rxp.status = st
  payload : ∀ payload, r = .ok (.bytes payload) → t.payload = payload
  record : ∀ record, r = .ok (.record record) → t.rdec.state = .ok ∧ t.outRecord = regsOf record
  session : ∀ data signature, r = .ok (.session data signature) →
    data.length = 48 ∧ t.payload = data ++ signature ∧ t.qSigOutLen.toNat = signature.length

section Shown

variable {t : State} (hdone : t.q.state = .done)

include hdone

theorem State.readReply_of_value (h : t.q.err = 0) : t.readReply = .value t.shown := by
  rw [State.readReply, if_pos (State.qDone_iff.mpr hdone), if_pos h]

theorem State.readReply_of_error {e : Err} (h : errOf t.q.err t.rxp.status = some e) : t.readReply = .error e := by
  have herr : t.q.err ≠ 0 := by
    intro hzero
    rw [hzero] at h
    exact nomatch h
  rw [State.readReply, if_pos (State.qDone_iff.mpr hdone), if_neg herr, h]

/-- An error is shown by its code, and by its status where it has one. -/
theorem State.Shows.error {e : Err} (hcode : t.q.err = codeOf e)
    (hstatus : ∀ st, e = .statusError st → t.rxp.status = st) : t.Shows (.error e) where
  done := hdone
  code := hcode
  reply := by
    apply State.readReply_of_error hdone
    rw [hcode]
    cases e with
    | statusError st => rw [hstatus st rfl]; rfl
    | syncNotFound | truncated | checksumMismatch | invalidLength | transportError => rfl
  status _ h := hstatus _ (Except.error.inj h)
  payload := nofun
  record := nofun
  session := nofun

variable (hcode : t.q.err = 0)

include hcode

theorem State.Shows.bytes (hcmd : t.q.cmd = .getMsCert ∨ t.q.cmd = .getTermCert) : t.Shows (.ok (.bytes t.payload)) where
  done := hdone
  code := hcode
  reply := by
    rw [State.readReply_of_value hdone hcode, State.shown]
    rcases hcmd with hcmd | hcmd <;> rw [hcmd] <;> rfl
  status := nofun
  payload _ h := by cases h; rfl
  record := nofun
  session := nofun

theorem State.Shows.info {payload : List Byte} (hcmd : t.q.cmd = .getInfo) (hlong : 82 ≤ payload.length)
    (hok : t.rdec.state = .ok) (hrecord : t.outRecord = regsOf (infoOf payload)) :
    t.Shows (.ok (.record (infoOf payload))) where
  done := hdone
  code := hcode
  reply := by
    rw [State.readReply_of_value hdone hcode, State.shown, hcmd]
    dsimp only
    rw [hrecord, recordOf_regsOf_infoOf hlong]
    rfl
  status := nofun
  payload := nofun
  record _ h := by cases h; exact ⟨hok, hrecord⟩
  session := nofun

theorem State.Shows.parts (hcmd : t.q.cmd = .negotiate) (hok : t.rxp.state = .ok) (hlong : 48 ≤ t.payload.length) :
    t.Shows (.ok (.session (t.payload.take 48) (t.payload.drop 48))) where
  done := hdone
  code := hcode
  reply := by
    rw [State.readReply_of_value hdone hcode, State.shown, hcmd]
    rfl
  status := nofun
  payload := nofun
  record := nofun
  session _ _ h := by
    cases h
    refine ⟨List.length_take_of_le hlong, (List.take_append_drop 48 _).symm, ?_⟩
    rw [State.payload_length hok] at hlong
    have hnot : ¬ t.rxp.length < 48 := by bv_omega
    rw [State.qSigOutLen_of_shows ⟨hdone, hcode, hcmd⟩, if_neg hnot, List.length_drop, State.payload_length hok]
    bv_omega

end Shown

/-- The end of the post phase shows what `post` makes of the payload decoded, or the error of either. -/
theorem State.Verdict.ended_shows {p : State} {res : Except Err (List Byte)} (h : p.Verdict res) :
    p.ended.Shows (res.bind (post p.q.cmd)) := by
  cases h with
  | error hnames =>
    obtain ⟨hfail, hcode, hstatus⟩ := hnames
    rw [State.ended_of_fail hfail]
    exact .error rfl hcode hstatus
  | payload hok =>
    show p.ended.Shows (post p.q.cmd p.payload)
    cases hcmd : p.q.cmd with
    | getMsCert | getTermCert =>
      have hcert : p.q.cmd = .getMsCert ∨ p.q.cmd = .getTermCert := by simp [hcmd]
      rw [State.ended_of_not_info hok hcmd nofun rfl]
      exact .bytes rfl rfl hcert
    | getInfo =>
      rcases Nat.lt_or_ge p.payload.length 82 with hshort | hlong
      · rw [State.ended_of_info_short hok hcmd hshort, post_getInfo_short hshort]
        exact .error rfl rfl nofun
      · rw [State.ended_of_info_long hok hcmd hlong, post_getInfo_long hlong]
        exact .info rfl rfl hcmd hlong (Rdec.reading_ok hlong _) (State.outRecord_reading hlong p _)
    | negotiate =>
      rcases Nat.lt_or_ge p.payload.length 48 with hshort | hlong
      · have hres := post_negotiate_of_short hshort
        rw [State.ended_of_not_info hok hcmd nofun hres, hres]
        exact .error rfl rfl nofun
      · have hres := post_negotiate_of_long hlong
        rw [State.ended_of_not_info hok hcmd nofun hres, hres]
        exact .parts rfl rfl hcmd hok hlong

end Sys2Proof.Machine
end

section
/-! PROOFS. The start of a whole query against `compose` and `encode` (spec/44_commands.md R88, R92, R94), and the run of its
slots, by its own answers and as events (R96, R99). -/

namespace Sys2Proof.Machine

/-! ### Composed and framed, or `InvalidLength` -/

/-- What does not compose: the two length preconditions of R92. -/
theorem compose_eq (p : Params) (cmd : Cmd) (rand sig : List Byte) :
    compose p cmd rand sig =
      if (cmd = .negotiate ∧ rand.length ≠ p.randLen) ∨ dataLenOf cmd rand.length sig.length > 65535 then
        .error .invalidLength
      else .ok (bodyBytes cmd rand sig) := by
  by_cases hcmd : cmd = .negotiate
  · subst hcmd
    have hdata : dataLenOf .negotiate rand.length sig.length = rand.length + sig.length := if_pos rfl
    rw [hdata]
    split
    case isTrue hbad =>
      rcases hbad with ⟨-, hrand⟩ | hlong
      · exact compose_negotiate_of_randLen hrand sig
      · exact compose_negotiate_of_tooLong p hlong
    case isFalse hgood =>
      simp only [true_and, not_or, ne_eq, not_not, not_lt] at hgood
      obtain ⟨hrand, hfits⟩ := hgood
      exact compose_negotiate_of_fits hrand hfits
  · rw [compose_fixed hcmd, ← bodyBytes_fixed hcmd rand sig, dataLenOf, if_neg hcmd, if_neg (by simp [hcmd])]

/-- The frame that a query sends, or `InvalidLength`: the grounds are those of `q_start` (R94). -/
theorem framed_eq (p : Params) (cmd : Cmd) (total : Nat) (rand sig : List Byte) :
    (compose p cmd rand sig).bind (fun body => encodeFrame body total) =
      if startRejected p cmd total rand.length sig.length then .error .invalidLength
      else .ok (frameBytes (bodyBytes cmd rand sig) total) := by
  have hlen := bodyBytes_length cmd rand sig
  rw [Config.fixedBodyLen] at hlen
  rw [compose_eq]
  split
  case isTrue hbad =>
    rw [if_pos (startRejected_iff.mpr (or_assoc.mp (.inl hbad)))]
    rfl
  case isFalse hgood =>
    by_cases hlong : total < (bodyBytes cmd rand sig).length + 2
    · rw [if_pos (startRejected_iff.mpr (.inr (.inr (by omega))))]
      exact encodeFrame_eq_error.mpr hlong
    · have haccepted : startRejected p cmd total rand.length sig.length = false := by
        rw [startRejected_eq_false_iff, ← or_assoc, not_or]
        exact ⟨hgood, by omega⟩
      rw [haccepted]
      exact encodeFrame_of_fits (by omega)

/-- A query that is framed is accepted, and its frame is that of the command's body. -/
theorem accepted_of_framed {p : Params} {cmd : Cmd} {total : Nat} {rand sig body f : List Byte}
    (hbody : compose p cmd rand sig = .ok body) (hf : encodeFrame body total = .ok f) :
    startRejected p cmd total rand.length sig.length = false ∧ body = bodyBytes cmd rand sig ∧
      f = frameBytes (bodyBytes cmd rand sig) total := by
  have hframed := framed_eq p cmd total rand sig
  rw [hbody] at hframed
  replace hframed := hf.symm.trans hframed
  cases haccepted : startRejected p cmd total rand.length sig.length with
  | true => rw [haccepted] at hframed; cases hframed
  | false =>
    rw [haccepted] at hframed
    exact ⟨rfl, body_of_compose hbody, Except.ok.inj hframed⟩

theorem rejected_of_error {p : Params} {cmd : Cmd} {total : Nat} {rand sig : List Byte} {e : Err}
    (h : (compose p cmd rand sig).bind (fun body => encodeFrame body total) = .error e) :
    startRejected p cmd total rand.length sig.length = true := by
  rw [framed_eq] at h
  split at h
  · assumption
  · cases h

theorem query_of_rejected {p : Params} {cmd : Cmd} {total : Nat} {rand sig : List Byte} (answers : List Answer)
    (h : startRejected p cmd total rand.length sig.length = true) :
    query p cmd total rand sig answers = some (.error .invalidLength) := by
  have hframed := framed_eq p cmd total rand sig
  rw [if_pos h] at hframed
  unfold query
  cases hbody : compose p cmd rand sig with
  | error e =>
    rw [hbody] at hframed
    exact congrArg some (congrArg Except.error (Except.error.inj hframed))
  | ok body =>
    rw [hbody] at hframed
    have hf : encodeFrame body total = .error .invalidLength := hframed
    simp [hf]

/-- An accepted query is its transfer, and what becomes of the bytes received. -/
theorem query_of_accepted {p : Params} {cmd : Cmd} {total : Nat} {rand sig : List Byte} {answers : List Answer}
    (h : startRejected p cmd total rand.length sig.length = false) :
    query p cmd total rand sig answers = (duplexTransfer total answers).map fun transferred =>
      transferred.1.bind fun rx => (decodeResponse rx).bind (post cmd) := by
  have hframed := framed_eq p cmd total rand sig
  rw [h] at hframed
  unfold query
  cases hbody : compose p cmd rand sig with
  | error e => rw [hbody] at hframed; cases hframed
  | ok body =>
    rw [hbody] at hframed
    have hf : encodeFrame body total = .ok (frameBytes (bodyBytes cmd rand sig) total) := hframed
    simp only [hf]
    match duplexTransfer total answers with
    | none => rfl
    | some (.error e, rest) => rfl
    | some (.ok rx, rest) =>
      simp only [Option.map_some, Except.bind]
      cases decodeResponse rx <;> rfl

/-! ### The start of an accepted query -/

/-- The machine right after the start of an accepted query: ENC at the marker of the command's frame, RXP hunting; tied to
`q_start` by `State.qStart_eq_queryStarted`. -/
def State.queryStarted (s : State) (cmd : Cmd) (total : Nat) (rand sig : List Byte) : State :=
  { s.sending (bodyBytes cmd rand sig) total 0 with
    rxp := .started
    rdec := .reset
    q := .taken cmd total rand.length sig.length .xfer 0 }

theorem bodyBytes_fits_of_accepted {p : Params} {cmd : Cmd} {total : Nat} {rand sig : List Byte}
    (h : startRejected p cmd total rand.length sig.length = false) : (bodyBytes cmd rand sig).length + 2 ≤ total := by
  rw [bodyBytes_length]
  exact body_fits_of_accepted h

/-- The lengths that only NEGOTIATE keeps make no difference to the composer. -/
theorem Qseq.offerAt_taken (cmd : Cmd) (total : Nat) (rand sig : List Byte) (st : QState) (code : BitVec 3) (k : Nat)
    (arg : Option Byte) :
    (Qseq.taken cmd total rand.length sig.length st code).offerAt k arg =
      composerByte cmd rand.length sig.length (k - 1) arg := by
  cases cmd <;> rfl

section Accepted

variable {s : State} {cmd : Cmd} {total : Nat} {rand sig : List Byte}
  (hacc : startRejected s.params cmd total rand.length sig.length = false)

theorem State.qStart_eq_queryStarted (hready : s.qReady = true) (hidle : s.enc.state = .idle)
    (hacc : startRejected s.params cmd total rand.length sig.length = false) :
    s.qStart cmd total rand.length sig.length = s.queryStarted cmd total rand sig := by
  have hstart := State.encStart_eq_sending hidle (bodyBytes_fits_of_accepted hacc)
  rw [State.qStart_of_accepted hready hacc, ← bodyBytes_length, State.queryStarted, ← hstart]
  rfl

include hacc

theorem State.queryStarted_sends : (s.queryStarted cmd total rand sig).Sends (bodyBytes cmd rand sig) where
  xfer := rfl
  enc := rfl
  frame := rfl
  bodyFits := bodyBytes_fits_of_accepted hacc
  slot_lt := by
    have := bodyBytes_fits_of_accepted hacc
    show 0 < total
    omega

omit hacc

/-- The composer meets the body when the argument stream has the data's byte from body offset 6 on. -/
theorem State.queryStarted_offersMeet {offer : Nat → Option Byte}
    (h : cmd = .negotiate → ∀ k, 7 ≤ k → offer k = (rand ++ sig)[k - 7]?) :
    (s.queryStarted cmd total rand sig).OffersMeet (bodyBytes cmd rand sig) offer := by
  intro k _ hpos _
  refine (Qseq.offerAt_taken cmd total rand sig .xfer 0 k (offer k)).trans (composerByte_eq_body fun hcmd hdata => ?_)
  rw [h hcmd k (by omega)]
  congr 1

/-- The frame's own bytes are such argument bytes. -/
theorem State.queryStarted_offersMeet_frame :
    (s.queryStarted cmd total rand sig).OffersMeet (bodyBytes cmd rand sig)
      ((Config.sync :: bodyBytes cmd rand sig)[·]?) := by
  apply State.queryStarted_offersMeet
  rintro rfl k hk
  obtain ⟨k, rfl⟩ := Nat.exists_eq_succ_of_ne_zero (Nat.ne_zero_of_lt hk)
  rw [bodyBytes_negotiate]
  exact negotiateBody_getElem?_of_data (by omega) _

/-- RXP reads in the query what it reads from its start on. -/
theorem State.queryStarted_feed {rx : List Byte} {u : State} (h : State.feed rx s.rxStart = .next u) :
    State.feed rx (s.queryStarted cmd total rand sig) =
      .next { s.queryStarted cmd total rand sig with rxp := u.rxp, pbuf := u.pbuf } :=
  State.feed_of_same_rxp (u := s.rxStart) rfl rfl h

end Accepted

/-! ### The slots as events (R96) -/

theorem slotEvents_take {total n : Nat} (h : n ≤ total) (rand sig rx : List Byte) :
    (slotEvents total rand sig rx).take n =
      (List.range n).map fun k => .qSlot (rand ++ sig)[k - 7]? (rx.getD k 0x00) := by
  rw [slotEvents, ← List.map_take, List.take_range, Nat.min_eq_left h]

/-- The slot events of the first `n` bytes answered, from the start on. -/
theorem State.Sends.runAll_slotEvents {s u : State} {body rand sig rx : List Byte} {n : Nat} (h : s.Sends body)
    (hslot : s.q.slot = 0) (hoffers : s.OffersMeet body fun k => (rand ++ sig)[k - 7]?) (hn : n ≤ rx.length)
    (hlen : rx.length ≤ s.q.total) (hu : State.feed (rx.take n) s = .next u) :
    runAll ((slotEvents s.q.total rand sig rx).take n) s = .next (s.exchanged body n u) := by
  induction n generalizing u with
  | zero => cases hu; rw [h.exchanged_zero]; rfl
  | succ n ih =>
    have hbyte : rx.take (n + 1) = rx.take n ++ [rx.getD n 0x00] := by
      rw [List.getD_eq_getElem _ _ hn, List.take_append_getElem]
    rw [hbyte] at hu
    obtain ⟨w, hw, hu⟩ := State.feed_concat hu
    have hoffer : OfferedAt body (s.q.slot + n) (s.q.offerAt (s.q.slot + n) (rand ++ sig)[n - 7]?) := by
      have hat := hoffers (s.q.slot + n) (Nat.le_add_right _ _)
      rwa [hslot, Nat.zero_add] at hat ⊢
    have hstep := h.qSlot_exchanged (by omega) hoffer hu
    have hrun := ih (by omega) hw
    rw [slotEvents_take (by omega)] at hrun ⊢
    rw [List.range_succ, List.map_append, runAll_append, hrun, andThen_next, List.map_singleton]
    exact (andThen_next_right _).trans hstep

end Sys2Proof.Machine
end

section
/-! PROOFS. Whole queries (spec/44_commands.md R88, R99): rejected, waiting, failed or completed, each as the state it leaves,
by its own run and event by event; and that ENC and QSEQ are in step after any of them (R96). -/

namespace Sys2Proof.Machine

/-! ### The parse of a transfer -/

/-- After the last slot RXP says of the bytes answered what `decode` says. -/
theorem State.verdict_of_feed {s u p : State} {rx : List Byte} (hu : State.feed rx s.rxStart = .next u)
    (hrxp : p.rxp = u.rxp.finish) (hpbuf : p.pbuf = u.pbuf) : p.Verdict (decodeResponse rx) := by
  obtain ⟨t, ht, -, -, hverdict⟩ := State.parse_verdict rx s
  rw [State.parse, hu] at ht
  cases ht
  rw [State.rxEnd_rxp, State.rxEnd_pbuf, ← hrxp, ← hpbuf] at hverdict
  rcases hverdict with ⟨hok, hres⟩ | ⟨e, hres, hnames, -⟩
  · rw [hres, ← State.payload_of_ok hok]
    exact .payload hok
  · rw [hres]
    exact .error hnames

theorem State.readReply_of_not_done {s : State} (h : s.q.state ≠ .done) : s.readReply = .nothing := by
  rw [State.readReply, if_neg fun hdone => h (State.qDone_iff.mp hdone)]

theorem State.Verdict.setEnv {p : State} {res : Except Err (List Byte)} (h : p.Verdict res) (env : List Answer) :
    ({ p with env := env } : State).Verdict res := by
  cases h with
  | payload hok => exact .payload (p := { p with env := env }) hok
  | error hnames => exact .error hnames

theorem postCount_le (cmd : Cmd) (rx : List Byte) : postCount cmd rx ≤ postSteps := by
  unfold postCount postSteps
  split
  · split <;> omega
  · decide

/-- The requester's own fields have no part in what is shown. -/
theorem State.Shows.setBooks {t : State} {r : Except Err Value} (h : t.Shows r) (env : List Answer) (ret : Reply) :
    ({ t with env := env, ret := ret } : State).Shows r :=
  ⟨h.done, h.code, h.reply, h.status, h.payload, h.record, h.session⟩

theorem State.posts_of_not_post {s : State} (h : s.q.state ≠ .post) (n : Nat) : State.posts n s = .next s := by
  rw [State.posts_eq_runAll, runAll_qPost_outside h]

/-! ### The states of an accepted query -/

/-- After `n` slots, RXP and the payload buffer as in `u`. -/
def State.queryAfter (s : State) (cmd : Cmd) (total : Nat) (rand sig : List Byte) (n : Nat) (u : State) : State :=
  (s.queryStarted cmd total rand sig).exchanged (bodyBytes cmd rand sig) n u

/-- After `n` slots and a failure. -/
def State.queryFailed (s : State) (cmd : Cmd) (total : Nat) (rand sig : List Byte) (n : Nat) (u : State) : State :=
  (s.queryStarted cmd total rand sig).exchangeFailed (bodyBytes cmd rand sig) n u

theorem State.queryFailed_shows (s : State) (cmd : Cmd) (total : Nat) (rand sig : List Byte) (n : Nat) (u : State) :
    (s.queryFailed cmd total rand sig n u).Shows (.error .transportError) := .error rfl rfl nofun

section After

variable (s : State) {cmd : Cmd} {total : Nat} {rand sig : List Byte} {n : Nat}

theorem State.queryAfter_xfer (h : n < total) (u : State) : (s.queryAfter cmd total rand sig n u).q.state = .xfer :=
  State.exchanged_xfer (s := s.queryStarted cmd total rand sig) ((Nat.zero_add n).trans_lt h) _ u

theorem State.queryAfter_post (h : n = total) (u : State) : (s.queryAfter cmd total rand sig n u).q.state = .post :=
  State.exchanged_post (s := s.queryStarted cmd total rand sig) ((Nat.zero_add n).trans h) _ u

theorem State.queryAfter_slot (u : State) : (s.queryAfter cmd total rand sig n u).q.slot = n := Nat.zero_add n

theorem State.queryAfter_txFrame (u : State) :
    (s.queryAfter cmd total rand sig n u).txFrame = (frameBytes (bodyBytes cmd rand sig) total).take n :=
  congrArg (fun k => (frameBytes (bodyBytes cmd rand sig) total).take k) (Nat.zero_add n)

/-- After the last slot RXP has its verdict of the bytes answered. -/
theorem State.queryAfter_verdict {rx : List Byte} {u : State} (h : n = total) (hu : State.feed rx s.rxStart = .next u) :
    (s.queryAfter cmd total rand sig n u).Verdict (decodeResponse rx) :=
  State.verdict_of_feed hu (if_pos ((Nat.zero_add n).trans h)) rfl

end After

/-! ### A rejected query -/

section Query

variable {s : State} {cmd : Cmd} {total : Nat} {rand sig : List Byte} (hready : s.qReady = true)
  (htotal : s.params.fits total = true) (hrand : s.params.fits rand.length = true)
  (hsig : s.params.fits sig.length = true)

include hready in
theorem State.qStart_rejected_shows (hrej : startRejected s.params cmd total rand.length sig.length = true) :
    (s.qStart cmd total rand.length sig.length).Shows (.error .invalidLength) := by
  rw [State.qStart_of_rejected hready hrej]
  exact .error rfl rfl nofun

include hready htotal hrand hsig

theorem State.wholeQuery_rejected (hrej : startRejected s.params cmd total rand.length sig.length = true) :
    s.wholeQuery cmd total rand sig =
      .next { s.qStart cmd total rand.length sig.length with ret := .error .invalidLength } := by
  have hshows := State.qStart_rejected_shows hready hrej
  have hxfer := hshows.done.trans_ne (show QState.done ≠ .xfer from nofun)
  have hpost := hshows.done.trans_ne (show QState.done ≠ .post from nofun)
  have hkept : { s.qStart cmd total rand.length sig.length with env := s.env } =
      s.qStart cmd total rand.length sig.length := by
    rw [State.qStart_of_rejected hready hrej]
  rw [State.wholeQuery_of_ready hready cmd htotal hrand hsig, State.slots_of_not_xfer hxfer, hkept, andThen_next,
    State.posts_eq_runAll, runAll_qPost_outside hpost, andThen_next, hshows.reply]
  rfl

/-! ### An accepted query, by what becomes of its transfer -/

variable (hidle : s.enc.state = .idle) (hacc : startRejected s.params cmd total rand.length sig.length = false)

include hidle hacc

/-- An accepted query is its slots, its post steps, and what is read then. -/
theorem State.wholeQuery_of_run {t v : State} {reply : Reply}
    (hslots : State.slots (Config.sync :: bodyBytes cmd rand sig) s.env (s.queryStarted cmd total rand sig) = .next t)
    (hposts : State.posts postSteps t = .next v) (hreply : v.readReply = reply) :
    s.wholeQuery cmd total rand sig = .next { v with ret := reply } := by
  rw [State.wholeQuery_of_ready hready cmd htotal hrand hsig, State.qStart_eq_queryStarted hready hidle hacc, hslots,
    andThen_next, hposts, andThen_next, hreply]

variable {rx : List Byte} {u : State} (hu : State.feed rx s.rxStart = .next u)

include hu

/-- Too few answers: the query waits in its transfer. -/
theorem State.wholeQuery_waits (hlen : rx.length < total) (henv : s.env = rx.map Answer.rx) :
    s.wholeQuery cmd total rand sig =
      .next { s.queryAfter cmd total rand sig rx.length u with env := [], ret := .nothing } := by
  have hslots : State.slots (Config.sync :: bodyBytes cmd rand sig) s.env (s.queryStarted cmd total rand sig) =
      .next { s.queryAfter cmd total rand sig rx.length u with env := [] } := by
    have hwaits := (State.queryStarted_sends hacc).slots_waits State.queryStarted_offersMeet_frame
      ((Nat.zero_add _).trans_le hlen.le) (State.queryStarted_feed hu)
    exact henv ▸ hwaits
  have hx := s.queryAfter_xfer (cmd := cmd) (rand := rand) (sig := sig) hlen u
  exact State.wholeQuery_of_run hready htotal hrand hsig hidle hacc hslots
    (State.posts_of_not_post (s := { s.queryAfter _ _ _ _ _ _ with env := [] }) (hx.trans_ne nofun) postSteps)
    (State.readReply_of_not_done (hx.trans_ne nofun))

/-- A failure: the query has ended with `TransportError`. -/
theorem State.wholeQuery_fails {rest : List Answer} (hlen : rx.length < total)
    (henv : s.env = rx.map Answer.rx ++ .xferErr :: rest) :
    s.wholeQuery cmd total rand sig = .next
      { s.queryFailed cmd total rand sig rx.length u with env := rest, ret := .error .transportError } := by
  have hslots : State.slots (Config.sync :: bodyBytes cmd rand sig) s.env (s.queryStarted cmd total rand sig) =
      .next { s.queryFailed cmd total rand sig rx.length u with env := rest } := by
    rw [henv]
    exact (State.queryStarted_sends hacc).slots_fails State.queryStarted_offersMeet_frame
      ((Nat.zero_add _).trans_lt hlen) (State.queryStarted_feed hu) rest
  have hshows := s.queryFailed_shows cmd total rand sig rx.length u
  exact State.wholeQuery_of_run hready htotal hrand hsig hidle hacc hslots
    (State.posts_of_not_post (s := { s.queryFailed _ _ _ _ _ _ with env := rest }) (hshows.done.trans_ne nofun) postSteps)
    hshows.reply

/-- A byte for every slot: the query has ended with what `decode` and `post` make of the bytes. -/
theorem State.wholeQuery_completes {rest : List Answer} (hlen : rx.length = total)
    (henv : s.env = rx.map Answer.rx ++ rest) :
    s.wholeQuery cmd total rand sig = .next
      { (s.queryAfter cmd total rand sig rx.length u).ended with
        env := rest, ret := replyOf ((decodeResponse rx).bind (post cmd)) } := by
  have hslots : State.slots (Config.sync :: bodyBytes cmd rand sig) s.env (s.queryStarted cmd total rand sig) =
      .next { s.queryAfter cmd total rand sig rx.length u with env := rest } := by
    rw [henv]
    exact (State.queryStarted_sends hacc).slots_completes State.queryStarted_offersMeet_frame
      ((Nat.zero_add _).trans hlen) (State.queryStarted_feed hu) rest
  have hverdict := s.queryAfter_verdict (cmd := cmd) (rand := rand) (sig := sig) hlen hu
  have hrun := State.Verdict.postRun (p := { s.queryAfter cmd total rand sig rx.length u with env := rest })
    (s.queryAfter_post hlen u) rfl (hverdict.setEnv rest)
  exact State.wholeQuery_of_run hready htotal hrand hsig hidle hacc hslots
    (hrun.posts nofun (postCount_le cmd rx)) (hverdict.ended_shows.setBooks rest s.ret).reply

end Query

end Sys2Proof.Machine
end

section
/-! PROOFS. A query as its slots, ENC and QSEQ in step from its start on (spec/44_commands.md R96), and the two levels of a
query: what it computes, what the ports show, and the same query event by event (R99). -/

namespace Sys2Proof.Machine

/-! ### In step from the start on (R96) -/

theorem dataLenOf_taken (cmd : Cmd) (total randLen sigLen : Nat) (st : QState) (code : BitVec 3) :
    dataLenOf cmd (Qseq.taken cmd total randLen sigLen st code).randLen
      (Qseq.taken cmd total randLen sigLen st code).sigLen = dataLenOf cmd randLen sigLen := by
  cases cmd <;> rfl

/-- A start from an idle ENC leaves both in step, or no transfer. -/
theorem State.qStart_inStep {s : State} (hx : s.q.state ≠ .xfer) (hidle : s.enc.state = .idle) (cmd : Cmd)
    (total randLen sigLen : Nat) : (s.qStart cmd total randLen sigLen).InStep := by
  cases hready : s.qReady with
  | false =>
    rw [State.qStart_of_running hready]
    exact fun h => absurd h hx
  | true =>
    cases hrej : startRejected s.params cmd total randLen sigLen with
    | true =>
      rw [State.qStart_of_rejected hready hrej]
      exact nofun
    | false =>
      rw [State.qStart_of_accepted hready hrej, Enc.start_of_fits hidle (body_fits_of_accepted hrej)]
      exact fun _ => ⟨nofun, rfl, rfl, congrArg _ (dataLenOf_taken cmd total randLen sigLen .xfer 0).symm⟩

theorem State.queryAfter_inStep {s : State} {cmd : Cmd} {total n : Nat} {rand sig : List Byte}
    (hacc : startRejected s.params cmd total rand.length sig.length = false) (hn : n ≤ total) (u : State) :
    (s.queryAfter cmd total rand sig n u).InStep := by
  have hbody : (bodyBytes cmd rand sig).length = Config.fixedBodyLen + dataLenOf cmd
      (Qseq.taken cmd total rand.length sig.length .xfer 0).randLen
      (Qseq.taken cmd total rand.length sig.length .xfer 0).sigLen := by
    rw [dataLenOf_taken, bodyBytes_length]
  exact ((State.queryStarted_sends hacc).exchanged_follows hbody ((Nat.zero_add n).trans_le hn) u).1

/-! ### The answers used -/

theorem answered_append (rx : List Byte) (n : Nat) (rest : List Answer) :
    answered (rx.length + n) (rx.map Answer.rx ++ rest) = rx.length + answered n rest := by
  induction rx with
  | nil => simp
  | cons b rx ih =>
    rw [List.length_cons, Nat.add_right_comm, List.map_cons, List.cons_append, answered, ih, Nat.add_right_comm]

theorem answered_of_nil (n : Nat) : answered n [] = 0 := by cases n <;> rfl

theorem answered_of_xferErr (n : Nat) (rest : List Answer) : answered n (.xferErr :: rest) = 0 := by cases n <;> rfl

theorem answered_waits {n : Nat} {rx : List Byte} (h : rx.length < n) : answered n (rx.map Answer.rx) = rx.length := by
  obtain ⟨k, rfl⟩ := Nat.exists_eq_add_of_lt h
  have hrx := answered_append rx (k + 1) []
  rwa [List.append_nil, answered_of_nil] at hrx

theorem answered_fails {n : Nat} {rx : List Byte} (h : rx.length < n) (rest : List Answer) :
    answered n (rx.map Answer.rx ++ .xferErr :: rest) = rx.length := by
  obtain ⟨k, rfl⟩ := Nat.exists_eq_add_of_lt h
  have hrx := answered_append rx (k + 1) (.xferErr :: rest)
  rwa [answered_of_xferErr] at hrx

theorem answered_completes (rx : List Byte) (rest : List Answer) :
    answered rx.length (rx.map Answer.rx ++ rest) = rx.length := answered_append rx 0 rest

/-! ### What a whole query leaves (R99) -/

/-- The state `t` that a whole query leaves of `s`, in the terms of `query`, of the frame, and of the answers. -/
structure State.QueryLeaves (s : State) (cmd : Cmd) (total : Nat) (rand sig : List Byte) (t : State) : Prop where
  frame : t = { s with enc := t.enc, txFrame := t.txFrame, rxp := t.rxp, pbuf := t.pbuf, rdec := t.rdec, q := t.q,
                       env := t.env, ret := t.ret }
  waiting : query s.params cmd total rand sig s.env = none →
    t.q.state = .xfer ∧ t.ret = .nothing ∧ t.env = [] ∧ t.q.slot = answered total s.env
  ended : ∀ r, query s.params cmd total rand sig s.env = some r → t.Shows r ∧ t.ret = replyOf r
  sent : startRejected s.params cmd total rand.length sig.length = false →
    t.txFrame = (frameBytes (bodyBytes cmd rand sig) total).take (answered total s.env) ∧
      t.q.slot = answered total s.env ∧ ∀ result rest, duplexTransfer total s.env = some (result, rest) → t.env = rest
  unsent : startRejected s.params cmd total rand.length sig.length = true →
    t.enc = s.enc ∧ t.txFrame = s.txFrame ∧ t.env = s.env ∧ t.q.slot = 0 ∧ t.pbuf = s.pbuf
  stored : ∀ (rx : List Byte) (u : State), t.q.slot = rx.length → s.env.take rx.length = rx.map Answer.rx →
    State.feed rx s.rxStart = .next u → t.pbuf = u.pbuf
  inStep : t.InStep

section Leaves

variable {s : State} {cmd : Cmd} {total : Nat} {rand sig : List Byte}

theorem State.QueryLeaves.rejected (hready : s.qReady = true)
    (hrej : startRejected s.params cmd total rand.length sig.length = true) :
    s.QueryLeaves cmd total rand sig
      { s.qStart cmd total rand.length sig.length with ret := .error .invalidLength } where
  frame := by rw [State.qStart_of_rejected hready hrej]
  waiting h := by simp [query_of_rejected s.env hrej] at h
  ended r h := by
    rw [query_of_rejected s.env hrej] at h
    cases h
    exact ⟨(State.qStart_rejected_shows hready hrej).setBooks _ _, rfl⟩
  sent h := by simp [hrej] at h
  unsent _ := by
    rw [State.qStart_of_rejected hready hrej]
    exact ⟨rfl, rfl, rfl, rfl, rfl⟩
  stored rx u hslot _ hu := by
    rw [State.qStart_of_rejected hready hrej] at hslot ⊢
    obtain rfl : rx = [] := List.length_eq_zero_iff.mp hslot.symm
    cases hu
    rfl
  inStep := by
    rw [State.qStart_of_rejected hready hrej]
    exact nofun

variable (hacc : startRejected s.params cmd total rand.length sig.length = false) {rx : List Byte} {u : State}
  (hu : State.feed rx s.rxStart = .next u)

include hacc hu

theorem State.QueryLeaves.waits (hlen : rx.length < total) (henv : s.env = rx.map Answer.rx) :
    s.QueryLeaves cmd total rand sig
      { s.queryAfter cmd total rand sig rx.length u with env := [], ret := .nothing } where
  frame := rfl
  waiting _ := by
    rw [henv, answered_waits hlen]
    exact ⟨s.queryAfter_xfer hlen u, rfl, rfl, s.queryAfter_slot u⟩
  ended r h := by simp [query_of_accepted hacc, henv, duplexTransfer_waits hlen] at h
  sent _ := by
    rw [henv, answered_waits hlen, duplexTransfer_waits hlen]
    exact ⟨s.queryAfter_txFrame u, s.queryAfter_slot u, nofun⟩
  unsent h := by simp [hacc] at h
  stored rx' u' hslot henv' hu' :=
    pbuf_of_answered (s := s.rxStart) (u := u) (rest := []) (henv.trans (List.append_nil _).symm)
      ((s.queryAfter_slot u).symm.trans hslot) henv' hu hu'
  inStep := State.queryAfter_inStep hacc hlen.le u

theorem State.QueryLeaves.fails {rest : List Answer} (hlen : rx.length < total)
    (henv : s.env = rx.map Answer.rx ++ .xferErr :: rest) :
    s.QueryLeaves cmd total rand sig
      { s.queryFailed cmd total rand sig rx.length u with env := rest, ret := .error .transportError } where
  frame := rfl
  waiting h := by simp [query_of_accepted hacc, henv, duplexTransfer_fails hlen] at h
  ended r h := by
    rw [query_of_accepted hacc, henv, duplexTransfer_fails hlen] at h
    cases h
    exact ⟨(s.queryFailed_shows cmd total rand sig rx.length u).setBooks _ _, rfl⟩
  sent _ := by
    rw [henv, answered_fails hlen, duplexTransfer_fails hlen]
    exact ⟨s.queryAfter_txFrame u, s.queryAfter_slot u, fun _ _ h => by cases h; rfl⟩
  unsent h := by simp [hacc] at h
  stored rx' u' hslot henv' hu' :=
    pbuf_of_answered (s := s.rxStart) (u := u) henv ((s.queryAfter_slot u).symm.trans hslot) henv' hu hu'
  inStep := nofun

theorem State.QueryLeaves.completes {rest : List Answer} (hlen : rx.length = total)
    (henv : s.env = rx.map Answer.rx ++ rest) :
    s.QueryLeaves cmd total rand sig
      { (s.queryAfter cmd total rand sig rx.length u).ended with
        env := rest, ret := replyOf ((decodeResponse rx).bind (post cmd)) } where
  frame := rfl
  waiting h := by
    rw [query_of_accepted hacc, henv, ← hlen, duplexTransfer_completes] at h
    cases h
  ended r h := by
    rw [query_of_accepted hacc, henv, ← hlen, duplexTransfer_completes] at h
    cases h
    exact ⟨(s.queryAfter_verdict hlen hu).ended_shows.setBooks _ _, rfl⟩
  sent _ := by
    rw [henv, ← hlen, answered_completes, duplexTransfer_completes]
    exact ⟨s.queryAfter_txFrame u, s.queryAfter_slot u, fun _ _ h => by cases h; rfl⟩
  unsent h := by simp [hacc] at h
  stored rx' u' hslot henv' hu' :=
    pbuf_of_answered (s := s.rxStart) (u := u) henv ((s.queryAfter_slot u).symm.trans hslot) henv' hu hu'
  inStep := nofun

end Leaves

/-- A query offered when QSEQ is ready and ENC idle answers a state that agrees with `query`. -/
theorem State.wholeQuery_leaves {s : State} {cmd : Cmd} {total : Nat} {rand sig : List Byte} (hready : s.qReady = true)
    (hidle : s.enc.state = .idle) (htotal : s.params.fits total = true) (hrand : s.params.fits rand.length = true)
    (hsig : s.params.fits sig.length = true) :
    ∃ t, s.wholeQuery cmd total rand sig = .next t ∧ s.QueryLeaves cmd total rand sig t := by
  cases hrej : startRejected s.params cmd total rand.length sig.length with
  | true => exact ⟨_, State.wholeQuery_rejected hready htotal hrand hsig hrej, .rejected hready hrej⟩
  | false =>
    have hshape := answerShape total s.env
    generalize henv : s.env = answers at hshape
    cases hshape with
    | @waits rx hlen =>
      obtain ⟨u, hu, -⟩ := State.feed_started rx s
      exact ⟨_, State.wholeQuery_waits hready htotal hrand hsig hidle hrej hu hlen henv, .waits hrej hu hlen henv⟩
    | @fails rx hlen rest =>
      obtain ⟨u, hu, -⟩ := State.feed_started rx s
      exact ⟨_, State.wholeQuery_fails hready htotal hrand hsig hidle hrej hu hlen henv, .fails hrej hu hlen henv⟩
    | @completes rx hlen rest =>
      obtain ⟨u, hu, -⟩ := State.feed_started rx s
      exact ⟨_, State.wholeQuery_completes hready htotal hrand hsig hidle hrej hu hlen henv,
        .completes hrej hu hlen henv⟩

/-- Settles O38: established by the starts, kept by every slot and by every step of the machine. -/
theorem slotCountIsTheEncoderIndex : Obligations.SlotCountIsTheEncoderIndex := by
  refine ⟨?start, ?query, ?slot, ?step⟩
  case start =>
    intro cmd total randLen sigLen s t hx hidle ht
    obtain ⟨-, ht⟩ := whenFits_eq_next.mp ht
    cases ht
    exact State.qStart_inStep hx hidle cmd total randLen sigLen
  case query =>
    intro i ⟨cmd, total, rand, sig⟩ s t hi hx hidle ht
    rw [exec_of_queryOf s hi] at ht
    cases hready : s.qReady with
    | false =>
      rw [State.wholeQuery_eq_self hready ht]
      exact fun h => absurd h hx
    | true =>
      obtain ⟨hfits, -⟩ := whenFits_eq_next.mp ht
      simp only [List.all_cons, List.all_nil, Bool.and_eq_true, and_true] at hfits
      obtain ⟨htotal, hrand, hsig⟩ := hfits
      obtain ⟨t', ht', hleaves⟩ := State.wholeQuery_leaves hready hidle htotal hrand hsig
      rw [ht'] at ht
      cases ht
      exact hleaves.inStep
  case slot =>
    intro arg rx s t hinv hsync hx ht
    exact State.EncFollows.qSlot hinv (.of_inStep hsync hx) ht
  case step =>
    intro s t hinv hsync hx ht
    exact State.EncFollows.step hinv (.of_inStep hsync hx) hx ht

/-! ### The same query event by event (R99) -/

/-- The events of a query whose environment answers `rx`: the start, and a slot for each byte. -/
def queryEvents (cmd : Cmd) (total : Nat) (rand sig rx : List Byte) : List Instr :=
  .qStart cmd total rand.length sig.length :: (slotEvents total rand sig rx).take rx.length

section Events

variable {s : State} {cmd : Cmd} {total : Nat} {rand sig rx : List Byte} {u : State} (hready : s.qReady = true)
  (hidle : s.enc.state = .idle) (htotal : s.params.fits total = true) (hrand : s.params.fits rand.length = true)
  (hsig : s.params.fits sig.length = true)
  (hacc : startRejected s.params cmd total rand.length sig.length = false)
  (hu : State.feed rx s.rxStart = .next u)

include hready hidle htotal hrand hsig hacc hu

theorem runAll_queryEvents (hlen : rx.length ≤ total) :
    runAll (queryEvents cmd total rand sig rx) s = .next (s.queryAfter cmd total rand sig rx.length u) := by
  have hoffers : (s.queryStarted cmd total rand sig).OffersMeet (bodyBytes cmd rand sig)
      (fun k => (rand ++ sig)[k - 7]?) := State.queryStarted_offersMeet fun _ _ _ => rfl
  have hfeed := State.queryStarted_feed (cmd := cmd) (total := total) (rand := rand) (sig := sig) hu
  rw [← List.take_length (l := rx)] at hfeed
  rw [queryEvents, runAll, exec_qStart_of_fits cmd htotal hrand hsig, andThen_next,
    State.qStart_eq_queryStarted hready hidle hacc]
  have hrun := (State.queryStarted_sends hacc).runAll_slotEvents rfl hoffers (Nat.le_refl _) hlen hfeed
  exact hrun

/-- The failure of the transfer after the slots of `rx`. -/
theorem runAll_queryEvents_qXferErr (hlen : rx.length < total) :
    runAll (queryEvents cmd total rand sig rx ++ [.qXferErr]) s =
      .next (s.queryFailed cmd total rand sig rx.length u) := by
  rw [runAll_append, runAll_queryEvents hready hidle htotal hrand hsig hacc hu hlen.le, andThen_next]
  exact congrArg Host.Outcome.next (State.qXferErr_exchanged ((Nat.zero_add _).trans_lt hlen))

/-- The post steps after all slots, at most as many as R98 counts. -/
theorem runAll_queryEvents_qPost (hlen : rx.length = total) (m : Nat) :
    runAll (queryEvents cmd total rand sig rx ++ List.replicate m .qPost) s =
      runAll (List.replicate m .qPost) (s.queryAfter cmd total rand sig rx.length u) := by
  rw [runAll_append, runAll_queryEvents hready hidle htotal hrand hsig hacc hu hlen.le, andThen_next]

end Events

/-- The start of a rejected query is the whole of it. -/
theorem runAll_qStart {s : State} {total randLen sigLen : Nat} (cmd : Cmd) (htotal : s.params.fits total = true)
    (hrand : s.params.fits randLen = true) (hsig : s.params.fits sigLen = true) :
    runAll [.qStart cmd total randLen sigLen] s = .next (s.qStart cmd total randLen sigLen) :=
  (andThen_next_right _).trans (exec_qStart_of_fits cmd htotal hrand hsig)

/-- Settles O41: what a whole query leaves, and its events, which lead through the same states. -/
theorem queryLevelsAgree : Obligations.QueryLevelsAgree := by
  intro i cmd total rand sig s hi hready hidle htotal hrand hsig
  obtain ⟨t, ht, h⟩ := State.wholeQuery_leaves (cmd := cmd) hready hidle htotal hrand hsig
  refine ⟨t, (exec_of_queryOf s hi).trans ht, h.frame, h.waiting, fun r hr => ?ended, fun body f hbody hf => ?sent,
    fun e he => h.unsent (rejected_of_error he), h.stored, fun e he => ?rejected, fun body f rx rest hbody hf hlen => ?events⟩
  case ended =>
    obtain ⟨hshows, hret⟩ := h.ended r hr
    exact ⟨hshows.done, hshows.code, hret, hshows.reply, hshows.status, hshows.payload, hshows.record, hshows.session⟩
  case sent =>
    obtain ⟨hacc, -, rfl⟩ := accepted_of_framed hbody hf
    exact h.sent hacc
  case rejected =>
    have hrej := rejected_of_error he
    rw [State.wholeQuery_rejected hready htotal hrand hsig hrej] at ht
    cases ht
    rw [runAll_qStart cmd htotal hrand hsig, State.qStart_of_rejected hready hrej]
  case events =>
    obtain ⟨hacc, -, rfl⟩ := accepted_of_framed hbody hf
    obtain ⟨u, hu, -⟩ := State.feed_started rx s
    have hrun := runAll_queryEvents hready hidle htotal hrand hsig hacc hu hlen
    refine ⟨fun hless henv => ?waits, fun hless => ?underWay, fun hless henv => ?fails, fun hall m hm => ?post,
      fun hall henv => ?completes⟩
    case waits =>
      rw [State.wholeQuery_waits hready htotal hrand hsig hidle hacc hu hless henv] at ht
      cases ht
      exact hrun
    case underWay => exact ⟨_, hrun, s.queryAfter_xfer hless u, s.queryAfter_slot u, s.queryAfter_txFrame u⟩
    case fails =>
      rw [State.wholeQuery_fails hready htotal hrand hsig hidle hacc hu hless henv] at ht
      cases ht
      exact runAll_queryEvents_qXferErr (u := u) hready hidle htotal hrand hsig hacc hu hless
    case post =>
      have hpostRun := (s.queryAfter_verdict (cmd := cmd) (rand := rand) (sig := sig) hall hu).postRun
        (s.queryAfter_post hall u) rfl
      obtain ⟨v, hv, hpost, hframe⟩ := hpostRun.before m hm
      refine ⟨v, (runAll_queryEvents_qPost hready hidle htotal hrand hsig hacc hu hall m).trans hv, hpost, ?_⟩
      rw [hframe, s.queryAfter_txFrame, List.take_of_length_le]
      rw [frameBytes_length (bodyBytes_fits_of_accepted hacc), hall]
    case completes =>
      have hpostRun := (s.queryAfter_verdict (cmd := cmd) (rand := rand) (sig := sig) hall hu).postRun
        (s.queryAfter_post hall u) rfl
      rw [State.wholeQuery_completes hready htotal hrand hsig hidle hacc hu hall henv] at ht
      cases ht
      exact (runAll_queryEvents_qPost hready hidle htotal hrand hsig hacc hu hall _).trans hpostRun.last

end Sys2Proof.Machine
end

section
/-! PROOFS. The errors and their codes (spec/60_exceptions.md R100), what raising one writes (R101, R108), and the events that
the port levels of ENC, RXP, RDEC and QSEQ select (R109, R123). -/

namespace Sys2Proof.Machine

/-! ### Codes (R100) -/

/-- An error with another status in place of its own, where it has one (R108). -/
def Err.withStatus (status : Half) : Err → Err
  | .statusError _ => .statusError status
  | e => e

/-- The code and the status give the error back. -/
theorem errOf_codeOf (e : Err) (status : Half) : errOf (codeOf e) status = some (e.withStatus status) := by
  cases e with
  | syncNotFound | statusError | truncated | checksumMismatch | invalidLength | transportError => rfl

theorem errOf_zero (status : Half) : errOf 0 status = none := rfl

theorem errOf_seven (status : Half) : errOf 7 status = none := rfl

/-- A value that names no error is no error's code. -/
theorem codeOf_ne_of_errOf_eq_none {code : BitVec 3} {status : Half} (h : errOf code status = none) (e : Err) :
    codeOf e ≠ code := by
  rintro rfl
  rw [errOf_codeOf] at h
  cases h

/-- Settles O46: that no code is 0 or 7 follows from what the codes name. -/
theorem errorCodesNameTheErrors : Obligations.ErrorCodesNameTheErrors :=
  ⟨⟨rfl, fun _ => rfl, rfl, rfl, rfl, rfl⟩,
    fun e => ⟨codeOf_ne_of_errOf_eq_none (errOf_zero 0) e, codeOf_ne_of_errOf_eq_none (errOf_seven 0) e⟩,
    errOf_codeOf,
    fun status => ⟨errOf_zero status, errOf_seven status⟩⟩

/-! ### Raising (R101) -/

/-- QSEQ's own errors leave the other sub-blocks. -/
theorem State.raise_qseq_of_ne {e : Err} (h : e ≠ .transportError) (s : State) :
    s.raise .qseq e = { s with q := s.q.raise e } := if_neg h

/-- A transfer failure returns ENC, RXP and RDEC to reset (R97). -/
theorem State.raise_qseq_transportError (s : State) :
    s.raise .qseq .transportError =
      { s with enc := .reset, rxp := .reset, rdec := .reset, q := s.q.raise .transportError } := rfl

/-- Settles O47, raiser by raiser. -/
theorem raiseLeavesTheDetail : Obligations.RaiseLeavesTheDetail :=
  fun s _ => ⟨rfl, rfl, rfl, fun h => s.raise_qseq_of_ne h, s.raise_qseq_transportError⟩

/-! ### Port levels (R109, R123) -/

section PortLevels

variable {bodyLen total randLen sigLen : Nat} {valid : Bool} {data rx : Byte} {sel : BitVec 2}

/-- A start is ENC's event when ENC is ready, or when no other strobe is high. -/
theorem decodeUnit_encStart (v : View) {txReady : Bool} (h : v.encReady = true ∨ txReady = false) :
    decodeUnit v (.enc true bodyLen total valid data txReady) = .event (.encStart bodyLen total) := by
  rcases h with h | rfl <;> simp [decodeUnit, *]

/-- A busy ENC emits, whether or not a start is offered. -/
theorem decodeUnit_encEmit_of_busy {v : View} (h : v.encReady = false) (start : Bool) :
    decodeUnit v (.enc start bodyLen total valid data true) = .event (.encEmit (offered valid data)) := by
  simp [decodeUnit, h]

/-- A start is QSEQ's event when QSEQ is ready, or when no other strobe is high; its selector names the command (R50). -/
theorem decodeUnit_qStart (v : View) (cmd : Cmd) {slotReady xferErr : Bool}
    (h : v.qReady = true ∨ (slotReady = false ∧ xferErr = false)) :
    decodeUnit v (.qseq true (selectorOf cmd) total randLen sigLen valid data slotReady rx xferErr) =
      .event (.qStart cmd total randLen sigLen) := by
  rcases h with h | ⟨rfl, rfl⟩ <;> simp [decodeUnit, cmdOf_selectorOf, *]

/-- While a query runs a failure wins over a slot and over a start. -/
theorem decodeUnit_qXferErr_of_busy {v : View} (h : v.qReady = false) (start slotReady : Bool) :
    decodeUnit v (.qseq start sel total randLen sigLen valid data slotReady rx true) = .event .qXferErr := by
  simp [decodeUnit, h]

/-- While a query runs a slot without a failure is exchanged, whether or not a start is offered. -/
theorem decodeUnit_qSlot_of_busy {v : View} (h : v.qReady = false) (start : Bool) :
    decodeUnit v (.qseq start sel total randLen sigLen valid data true rx false) =
      .event (.qSlot (offered valid data) rx) := by
  simp [decodeUnit, h]

end PortLevels

/-- The four selectors are listed with their commands (R50). -/
theorem selectors_listed :
    ∀ pair ∈ [((0 : BitVec 2), Cmd.getMsCert), (1, .getTermCert), (2, .getInfo), (3, .negotiate)],
      pair.1 = selectorOf pair.2 := by decide

/-- Settles O49, unit by unit; where no start is offered the levels alone decide, and so they do for RXP and RDEC, which
have no busy state. -/
theorem portLevelsSelectEvents : Obligations.PortLevelsSelectEvents := by
  intro p v on byteOn
  refine ⟨fun _ _ _ _ => ?enc, fun _ _ _ => ⟨rfl, rfl, rfl, rfl⟩, fun _ _ _ => ⟨rfl, rfl, rfl⟩,
    ⟨rfl, rfl, rfl, rfl⟩, fun sel cmd _ _ _ _ _ slotReady _ _ hsel => ?qseq⟩
  case enc =>
    exact ⟨decodeUnit_encStart v (.inr rfl), fun hready => decodeUnit_encStart v (.inl hready),
      fun hbusy => decodeUnit_encEmit_of_busy hbusy true, rfl, rfl⟩
  case qseq =>
    obtain rfl : sel = selectorOf cmd := selectors_listed _ hsel
    exact ⟨decodeUnit_qStart v cmd (.inr ⟨rfl, rfl⟩), fun hready => decodeUnit_qStart v cmd (.inl hready),
      fun hbusy => decodeUnit_qXferErr_of_busy hbusy true slotReady,
      fun hbusy => decodeUnit_qSlot_of_busy hbusy true, rfl, rfl, rfl⟩

end Sys2Proof.Machine
end

section
/-! PROOFS. Reset and hazards (spec/70_reset_and_hazards.md): `rst` before everything else in its step (R118), the units of
a running query (R123), starts that are ignored and never queued (R94, R109, R123), and the loop-back (R128). -/

namespace Sys2Proof.Machine

/-! ### Reset in a step (R118) -/

/-- The block's own event does nothing once the offer has ended the query's post phase and RDEC's run. -/
theorem State.ownEvent_of_resting (before : State) {s : State} (hq : s.q.state ≠ .post) (hr : s.rdec.state ≠ .run)
    (driven : Bool) : before.ownEvent driven s = .next s := by
  unfold State.ownEvent
  split
  · exact State.qPost_outside hq
  · split
    · exact State.rdByte_of_not_run hr _
    · rfl

/-- Settles O3: the offer is the reset event, after which the block has no event of its own. -/
theorem rstWinsOverEverything : Obligations.RstWinsOverEverything := by
  intro s u rest hin
  have hdecode : decode s.params s.view (.ports { rst := true, unit := u }) = .event .rst := rfl
  have hexec : exec .rst { s with inbox := rest } = .next ({ s with inbox := rest } : State).rstAll := rfl
  have hq : ({ s with inbox := rest } : State).rstAll.q.state ≠ .post := (nofun : QState.idle ≠ .post)
  have hr : ({ s with inbox := rest } : State).rstAll.rdec.state ≠ .run := (nofun : RdState.idle ≠ .run)
  rw [step_of_event hin hdecode nofun, hexec, andThen_next, State.ownEvent_of_resting s hq hr]
  rfl

/-! ### The units of a running query (R123) -/

theorem whenFree_of_running {s : State} (h : s.q.state = .xfer ∨ s.q.state = .post) (r : Result) :
    s.whenFree r = .refused .ownedByQuery := by
  rcases h with h | h <;> simp [State.whenFree, State.queryRuns, h]

/-- Settles O50: all of them are guarded by the one check `State.whenFree`. -/
theorem unitsBelongToTheRunningQuery : Obligations.UnitsBelongToTheRunningQuery := by
  intro s hruns
  have hrefused := whenFree_of_running hruns
  exact ⟨fun _ _ => hrefused _, fun _ => hrefused _, fun _ _ => hrefused _, hrefused _, fun _ _ => hrefused _,
    hrefused _, fun _ => hrefused _, fun _ => hrefused _, fun _ => hrefused _, fun _ => hrefused _,
    fun _ => hrefused _⟩

/-! ### Ignored starts (R65, R94) -/

/-- ENCODE at a busy ENC has no effect and returns nothing (log 8). -/
theorem exec_encode_of_busy {s : State} (hfree : s.free) (hbusy : s.enc.state ≠ .idle) (body : List Byte)
    (total : Nat) : exec (.encode body total) s = .next s := by
  have hready : ¬ s.encReady = true := by simp [State.encReady, hbusy]
  exact (whenFree_of_free hfree).trans (if_neg hready)

/-- The four commands and QUERY while a query runs. -/
theorem exec_query_of_running {i : Instr} {cmd : Cmd} {total : Nat} {rand sig : List Byte} {s : State}
    (hi : queryOf i = some (cmd, total, rand, sig)) (htotal : s.params.fits total = true)
    (hrand : s.params.fits rand.length = true) (hsig : s.params.fits sig.length = true)
    (hruns : s.q.state = .xfer ∨ s.q.state = .post) : exec i s = .next s := by
  rw [exec_of_queryOf s hi]
  exact State.wholeQuery_of_running (State.qReady_eq_false hruns) cmd htotal hrand hsig

/-- An offer that `Q_POST` ignores leaves the step to the block's own event (R98). -/
theorem step_of_ignored_in_post {s : State} {o : Offer} {rest : List Offer} {i : Instr} (hin : s.inbox = o :: rest)
    (hpost : s.q.state = .post) (hdecode : decode s.params s.view o = .event i) (hi : i ≠ .qPost)
    (hignored : exec i { s with inbox := rest } = .next { s with inbox := rest }) :
    step s = exec .qPost { s with inbox := rest } := by
  rw [step_of_event hin hdecode hi, hignored, andThen_next, State.ownEvent_post hpost]
  rfl

theorem exec_qStart_of_running {s : State} {total randLen sigLen : Nat} (cmd : Cmd)
    (hruns : s.q.state = .xfer ∨ s.q.state = .post) (htotal : s.params.fits total = true)
    (hrand : s.params.fits randLen = true) (hsig : s.params.fits sigLen = true) :
    exec (.qStart cmd total randLen sigLen) s = .next s := by
  rw [exec_qStart_of_fits cmd htotal hrand hsig, State.qStart_of_running (State.qReady_eq_false hruns)]

theorem exec_qSlot_of_not_xfer {s : State} (h : s.q.state ≠ .xfer) (arg : Option Byte) (rx : Byte) :
    exec (.qSlot arg rx) s = .next s :=
  State.qSlot_of_none (State.slotTx_of_not_xfer h arg) rx

theorem exec_qXferErr_of_not_xfer {s : State} (h : s.q.state ≠ .xfer) : exec .qXferErr s = .next s := by
  rw [exec_qXferErr, State.qXferErr_of_not_xfer h]

/-! ### No instruction offers anything (R14, U4) -/

theorem State.rxByte_inbox {s t : State} {b : Byte} (h : s.rxByte b = .next t) : t.inbox = s.inbox := by
  rcases State.rxByte_eq_next.mp h with ⟨-, rfl⟩ | ⟨-, -, -, rfl⟩ <;> rfl

theorem State.rdByte_inbox {s t : State} {b : Byte} (h : s.rdByte b = .next t) : t.inbox = s.inbox := by
  rcases State.rdByte_eq_next.mp h with ⟨-, rfl⟩ | ⟨-, -, rfl⟩ | ⟨-, -, -, -, rfl⟩ <;> rfl

theorem State.wholeQuery_inbox {s t : State} {cmd : Cmd} {total : Nat} {rand sig : List Byte}
    (h : s.wholeQuery cmd total rand sig = .next t) : t.inbox = s.inbox := by
  obtain ⟨-, h⟩ := whenFits_eq_next.mp h
  split at h
  · obtain ⟨u, hu, h⟩ := andThen_eq_next.mp h
    obtain ⟨v, hv, h⟩ := andThen_eq_next.mp h
    cases h
    calc v.inbox
      _ = u.inbox := (congrArg State.inbox (State.posts_frame hv) :)
      _ = (s.qStart cmd total rand.length sig.length).inbox := (congrArg State.inbox (State.slots_frame hu) :)
      _ = s.inbox := State.qStart_inbox ..
  · cases h; rfl

theorem State.transferOp_inbox {s t : State} {tx : List Byte} {length : Nat} (h : s.transferOp tx length = .next t) :
    t.inbox = s.inbox := by
  unfold State.transferOp at h
  split at h
  · obtain ⟨u, hu, h⟩ := andThen_eq_next.mp h
    cases h
    exact (congrArg State.inbox (State.slots_frame hu) :)
  · split at h <;> cases h <;> rfl

theorem State.decodeOp_inbox {s t : State} {raw : List Byte} (h : s.decodeOp raw = .next t) : t.inbox = s.inbox := by
  obtain ⟨-, h⟩ := whenFree_eq_next.mp h
  obtain ⟨u, hu, h⟩ := andThen_eq_next.mp h
  obtain ⟨v, hv, hu⟩ := andThen_eq_next.mp hu
  cases hu
  cases h
  exact (congrArg State.inbox (State.feed_frame hv) :)

theorem execEncode_inbox {s t : State} {body : List Byte} {total : Nat} (h : execEncode body total s = .next t) :
    t.inbox = s.inbox := by
  obtain ⟨-, h⟩ := whenFree_eq_next.mp h
  split at h
  · dsimp only at h
    split at h <;> cases h
    · exact (congrArg State.inbox (State.emits_frame body total (s.encStart body.length total)) :)
    · rfl
  · cases h; rfl

theorem execDecodeInfo_inbox {s t : State} {payload : List Byte} (h : execDecodeInfo payload s = .next t) :
    t.inbox = s.inbox := by
  obtain ⟨-, h⟩ := whenFree_eq_next.mp h
  dsimp only at h
  split at h
  · obtain ⟨u, hu, h⟩ := andThen_eq_next.mp h
    cases h
    exact (congrArg State.inbox (State.cursorSteps_frame hu) :)
  · cases h; rfl

theorem execRxByte_inbox {s t : State} {b : Byte} {atEnd : Bool} (h : execRxByte b atEnd s = .next t) :
    t.inbox = s.inbox := by
  obtain ⟨-, h⟩ := whenFree_eq_next.mp h
  obtain ⟨u, hu, h⟩ := andThen_eq_next.mp h
  cases h
  rw [← State.rxByte_inbox hu]
  split <;> rfl

/-- No instruction takes an offer or adds one: only the step does. -/
theorem exec_inbox {i : Instr} {s t : State} (h : exec i s = .next t) : t.inbox = s.inbox := by
  cases i with
  | getMsCert | getTermCert | getInfo | negotiate | query => exact State.wholeQuery_inbox h
  | transfer tx length => exact State.transferOp_inbox h
  | responseFrame | decode => exact State.decodeOp_inbox h
  | encode body total => exact execEncode_inbox h
  | decodeInfo payload => exact execDecodeInfo_inbox h
  | xorfold | checksum | hex | csClear | csAbsorb | rst => cases h; rfl
  | encStart bodyLen total =>
    obtain ⟨-, h⟩ := whenFree_eq_next.mp h
    obtain ⟨-, h⟩ := whenFits_eq_next.mp h
    cases h; rfl
  | encEmit | rxStart | rxEnd | rdStart =>
    obtain ⟨-, h⟩ := whenFree_eq_next.mp h
    cases h; rfl
  | rxByte b atEnd => exact execRxByte_inbox h
  | rdByte b =>
    obtain ⟨-, h⟩ := whenFree_eq_next.mp h
    exact State.rdByte_inbox h
  | qStart cmd total randLen sigLen =>
    obtain ⟨-, h⟩ := whenFits_eq_next.mp h
    cases h
    exact State.qStart_inbox ..
  | qSlot arg rx => exact (congrArg State.inbox (State.qSlot_frame h) :)
  | qXferErr => cases h; exact State.qXferErr_inbox s
  | qPost => exact (congrArg State.inbox (State.qPost_frame h) :)

/-- A step that answers a next state has taken its offer, and nothing else of what is offered. -/
theorem step_inbox {s t : State} {o : Offer} {rest : List Offer} (hin : s.inbox = o :: rest) (h : step s = .next t) :
    t.inbox = rest := by
  rcases step_eq_next h with ⟨hnone, -⟩ | ⟨o', rest', hin', hcase⟩
  · rw [hin] at hnone; contradiction
  · rw [hin] at hin'
    cases hin'
    rcases hcase with ⟨-, h⟩ | ⟨-, h⟩ | ⟨i, u, -, -, hu, h⟩
    · exact (congrArg State.inbox (State.ownEvent_frame h) :)
    · exact (congrArg State.inbox (State.ownEvent_frame h) :)
    · exact (congrArg State.inbox (State.ownEvent_frame h) :).trans (exec_inbox hu)

/-- Settles O48: the ignored starts leave the state, the step alone takes an offer, and in `Q_POST` what is ignored
leaves the post step. -/
theorem startsWhileBusyAreIgnored : Obligations.StartsWhileBusyAreIgnored := by
  refine ⟨?encStart, fun body total s hfree hbusy => exec_encode_of_busy hfree hbusy body total,
    fun i cmd total rand sig s => exec_query_of_running, fun s t o rest => step_inbox, ?inPost⟩
  case encStart =>
    intro bodyLen total s hfree hbody htotal hbusy
    rw [exec_encStart_of_fits hfree hbody htotal, State.encStart_of_busy hbusy]
  case inPost =>
    intro s o rest i hin hpost hdecode hi
    have hxfer : s.q.state ≠ .xfer := hpost.trans_ne nofun
    rcases hi with ⟨cmd, total, randLen, sigLen, rfl, htotal, hrand, hsig⟩ | ⟨arg, rx, rfl⟩ | rfl |
      ⟨cmd, total, rand, sig, hquery, htotal, hrand, hsig⟩
    · exact step_of_ignored_in_post hin hpost hdecode nofun
        (exec_qStart_of_running cmd (.inr hpost) htotal hrand hsig)
    · exact step_of_ignored_in_post hin hpost hdecode nofun
        (exec_qSlot_of_not_xfer (s := { s with inbox := rest }) hxfer arg rx)
    · exact step_of_ignored_in_post hin hpost hdecode nofun (exec_qXferErr_of_not_xfer hxfer)
    · refine step_of_ignored_in_post hin hpost hdecode ?_ (exec_query_of_running hquery htotal hrand hsig (.inr hpost))
      rintro rfl
      contradiction

/-! ### Loop-back (R128) -/

/-- Settles O44: the transfer brings the frame sent, which `decode` answers with its header's status (Q8). -/
theorem loopBackFails : Obligations.LoopBackFails := by
  intro p cmd total rand sig body f rest hbody hf
  obtain ⟨haccepted, -, -⟩ := accepted_of_framed hbody hf
  obtain ⟨hfits, hframe⟩ := encodeFrame_eq_ok.mp hf
  have hlen : f.length = total := hframe ▸ frameBytes_length hfits
  have hreceived : duplexTransfer total (f.map Answer.rx ++ rest) = some (.ok f, rest) :=
    hlen ▸ duplexTransfer_completes f rest
  rw [query_of_accepted haccepted, hreceived]
  simp only [Option.map_some, Except.bind, decodeResponse_of_command hbody hf]

end Sys2Proof.Machine
end
